-- ==== Sys2Proof/Word.lean ====
section
/-! DEFINITION. The word types of the block (spec/00_scope.md R10: a value of width N is a bit vector,
bit 0 the least significant). -/

namespace Sys2Proof

/-- A byte: a telegram byte, a datagram, a light state, a setpoint. -/
abbrev Byte := BitVec 8

/-- A u32: a timestamp, a duration, a tick count (R7 `TS_BITS` = 32, wrapping). -/
abbrev U32 := BitVec 32

/-- An i64 in two's complement (R10), the type of a lap-time improvement. -/
abbrev I64 := BitVec 64

/-- An event word `W` of 96 bits (spec/30_encoding.md R100). -/
abbrev EventWord := BitVec 96

/-- A car index, 0..3 (R7 `N_CARS` = 4). -/
abbrev CarIdx := Fin 4

end Sys2Proof
end

