-- ==== Sys2Proof/Syntax.lean ====
section
/-! DEFINITION. The operations of the block as syntax: one constructor of `Instr` for each row of
spec/opcode_table.json, with what spec/30_encoding.md R102, R105, R106 and spec/60_exceptions.md R294 say of
each. -/

namespace Sys2Proof

/-- The two EventTimer units (spec/10_state.md R35): unit 0, the basic variant of the operator controls on
the Timing Node; unit 1, the optical variant of the tape sensors on the Car Node. -/
inductive TimerUnit where
  | unit0
  | unit1
  deriving DecidableEq, Repr

/-- The reset domains (spec/70_reset_and_hazards.md R320). -/
inductive Domain where
  | tn
  | cn
  | all
  deriving DecidableEq, Repr

/-- The two directions of the wireless channel (spec/00_scope.md R14). -/
inductive Dir where
  | t2c
  | c2t
  deriving DecidableEq, Repr

/-- One operation: one input event (R2, R102). A level or flag operand is a `Bool`, `true` for 1. The input
number of `etEdge` is checked by `Instr.wellFormed`. -/
inductive Instr where
  /-- `RST dom`, R322 -/
  | rst (dom : Domain)
  /-- `TN.RESTART`, R301 -/
  | tnRestart
  /-- `ET.EDGE u, i, dir, ts`, R132 -/
  | etEdge (u : TimerUnit) (i : Nat) (dir : Bool) (ts : U32)
  /-- `ET.FIRE u, ts`, R135 -/
  | etFire (u : TimerUnit) (ts : U32)
  /-- `ET.TAKE u`, R147 -/
  | etTake (u : TimerUnit)
  /-- `OC.SERVE`, R150 -/
  | ocServe
  /-- `TD.POLL`, R171 -/
  | tdPoll
  /-- `TD.RXB b`, R172 -/
  | tdRxb (b : Byte)
  /-- `TD.DEC`, R173 -/
  | tdDec
  /-- `LE.PASS c, ts`, R211 and R212 -/
  | lePass (c : CarIdx) (ts : U32)
  /-- `LE.LIGHT ls, changed`, R221 -/
  | leLight (ls : Byte) (changed : Bool)
  /-- `LE.RANK`, R230 -/
  | leRank
  /-- `KA.FIRE`, R233 -/
  | kaFire
  /-- `TC.SUB a, b`, R205 -/
  | tcSub (a b : U32)
  /-- `TC.CMP a, b`, R206 -/
  | tcCmp (a b : U32)
  /-- `CH.DLV dir, v`, R255 -/
  | chDlv (dir : Dir) (v : Byte)
  /-- `CH.DROP dir, v`, R256 -/
  | chDrop (dir : Dir) (v : Byte)
  /-- `CN.SETSP v`, R266 -/
  | cnSetsp (v : Byte)
  /-- `CN.FINACK`, R267 -/
  | cnFinack
  /-- `CN.MEASDONE`, R269 -/
  | cnMeasdone
  /-- `CN.MAPSET b`, R268 -/
  | cnMapset (b : Bool)
  /-- `TN.LOOP`, R258 -/
  | tnLoop
  deriving DecidableEq, Repr

/-- The mnemonic of an operation (R102). -/
def Instr.mnemonic : Instr → String
  | .rst _ => "RST"
  | .tnRestart => "TN.RESTART"
  | .etEdge _ _ _ _ => "ET.EDGE"
  | .etFire _ _ => "ET.FIRE"
  | .etTake _ => "ET.TAKE"
  | .ocServe => "OC.SERVE"
  | .tdPoll => "TD.POLL"
  | .tdRxb _ => "TD.RXB"
  | .tdDec => "TD.DEC"
  | .lePass _ _ => "LE.PASS"
  | .leLight _ _ => "LE.LIGHT"
  | .leRank => "LE.RANK"
  | .kaFire => "KA.FIRE"
  | .tcSub _ _ => "TC.SUB"
  | .tcCmp _ _ => "TC.CMP"
  | .chDlv _ _ => "CH.DLV"
  | .chDrop _ _ => "CH.DROP"
  | .cnSetsp _ => "CN.SETSP"
  | .cnFinack => "CN.FINACK"
  | .cnMeasdone => "CN.MEASDONE"
  | .cnMapset _ => "CN.MAPSET"
  | .tnLoop => "TN.LOOP"

/-- Who causes an operation (the agent column of R102). -/
inductive Agent where
  | host | pins | oneShotTimer | consumerTask | operatorControlTask | pollTask | cu | decoderOrTest
  | printCycle | keepaliveTimer | test | channel | carNodeController | trackPositionConsumer
  | measurementTask | trackMapper
  deriving DecidableEq, Repr

/-- The agent of each operation; each belongs to exactly one (spec/00_scope.md R8). -/
def Instr.agent : Instr → Agent
  | .rst _ | .tnRestart | .tnLoop => .host
  | .etEdge _ _ _ _ => .pins
  | .etFire _ _ => .oneShotTimer
  | .etTake _ => .consumerTask
  | .ocServe => .operatorControlTask
  | .tdPoll | .tdDec => .pollTask
  | .tdRxb _ => .cu
  | .lePass _ _ | .leLight _ _ => .decoderOrTest
  | .leRank => .printCycle
  | .kaFire => .keepaliveTimer
  | .tcSub _ _ | .tcCmp _ _ => .test
  | .chDlv _ _ | .chDrop _ _ => .channel
  | .cnSetsp _ => .carNodeController
  | .cnFinack => .trackPositionConsumer
  | .cnMeasdone => .measurementTask
  | .cnMapset _ => .trackMapper

/-- The node whose state an operation touches (the node column of R102): the Timing Node, the Car Node, both
(a reset of the whole block), or neither (a lost datagram). -/
inductive NodeScope where
  | timing
  | car
  | both
  | neither
  deriving DecidableEq, Repr

/-- The node of an EventTimer unit (R35). -/
def TimerUnit.node : TimerUnit → NodeScope
  | .unit0 => .timing
  | .unit1 => .car

/-- The node of an operation, by its operands where R102 says "any", "by unit" or "receiver's". -/
def Instr.node : Instr → NodeScope
  | .rst .tn => .timing
  | .rst .cn => .car
  | .rst .all => .both
  | .tnRestart => .timing
  | .etEdge u _ _ _ => u.node
  | .etFire u _ => u.node
  | .etTake u => u.node
  | .ocServe | .tdPoll | .tdRxb _ | .tdDec | .lePass _ _ | .leLight _ _ | .leRank | .kaFire => .timing
  | .tcSub _ _ | .tcCmp _ _ | .tnLoop => .timing
  | .chDlv .t2c _ => .car
  | .chDlv .c2t _ => .timing
  | .chDrop _ _ => .neither
  | .cnSetsp _ | .cnFinack | .cnMeasdone | .cnMapset _ => .car

/-- The contexts of spec/60_exceptions.md R294. Neither is a privilege level. -/
inductive Context where
  | interrupt
  | task
  | environment
  deriving DecidableEq, Repr

/-- The context an operation runs in (the table of R294). -/
def Instr.context : Instr → Context
  | .etEdge _ _ _ _ | .etFire _ _ | .kaFire | .tdRxb _ | .chDlv _ _ => .interrupt
  | .etTake _ | .ocServe | .tdPoll | .tdDec | .lePass _ _ | .leLight _ _ | .leRank | .tcSub _ _ => .task
  | .tcCmp _ _ | .cnSetsp _ | .cnFinack | .cnMapset _ | .cnMeasdone | .tnLoop => .task
  | .chDrop _ _ | .rst _ | .tnRestart => .environment

/-- Whether an operation may hold (the last column of R294): `ET.TAKE` and `OC.SERVE` only. -/
def Instr.mayHold : Instr → Bool
  | .etTake _ | .ocServe => true
  | .rst _ | .tnRestart | .etEdge _ _ _ _ | .etFire _ _ | .tdPoll | .tdRxb _ | .tdDec | .lePass _ _ => false
  | .leLight _ _ | .leRank | .kaFire | .tcSub _ _ | .tcCmp _ _ | .chDlv _ _ | .chDrop _ _ => false
  | .cnSetsp _ | .cnFinack | .cnMeasdone | .cnMapset _ | .tnLoop => false

end Sys2Proof
end

