-- ==== Sys2Proof/WellFormed.lean ====
section
/-! DEFINITION. The checks on an operation's operands that the types of `Instr` leave over
(spec/30_encoding.md R103, R104). -/

namespace Sys2Proof

/-- `N_IN[u]`, the number of inputs of a unit (spec/10_state.md R35). -/
def nIn : TimerUnit → Nat
  | .unit0 => 3
  | .unit1 => 2

/-- An operation names only what exists: the input `i` of `ET.EDGE` is below `N_IN[u]` (R103). Every other
selector has a type with no illegal value. -/
def Instr.wellFormed : Instr → Bool
  | .etEdge u i _ _ => decide (i < nIn u)
  | .rst _ | .tnRestart | .etFire _ _ | .etTake _ | .ocServe | .tdPoll | .tdRxb _ | .tdDec => true
  | .lePass _ _ | .leLight _ _ | .leRank | .kaFire | .tcSub _ _ | .tcCmp _ _ => true
  | .chDlv _ _ | .chDrop _ _ | .cnSetsp _ | .cnFinack | .cnMeasdone | .cnMapset _ | .tnLoop => true

end Sys2Proof
end

