-- ==== Sys2Proof/Decode.lean ====
section
/-! DEFINITION. The event word: its fields, the decoder (total, refusing by name) and the encoder
(spec/30_encoding.md R100 to R104), with the rows of spec/opcode_table.json as data. -/

namespace Sys2Proof

/-! ## The fields of a word (R100) -/

/-- `W[95:88]` -/
def opField (w : EventWord) : Byte := w.extractLsb' 88 8
/-- `W[87:80]` -/
def selField (w : EventWord) : Byte := w.extractLsb' 80 8
/-- `W[79:72]` -/
def bField (w : EventWord) : Byte := w.extractLsb' 72 8
/-- `W[71:64]` -/
def zField (w : EventWord) : Byte := w.extractLsb' 64 8
/-- `W[63:32]` -/
def aField (w : EventWord) : U32 := w.extractLsb' 32 32
/-- `W[31:0]` -/
def tField (w : EventWord) : U32 := w.extractLsb' 0 32

/-- A word from its fields, `Z` zero (R100). -/
def packWord (op sel b : Byte) (a t : U32) : EventWord :=
  op ++ sel ++ b ++ 0#8 ++ a ++ t

/-! ## Formats (R101) and the reasons a word is illegal (R103) -/

/-- The formats of R101. -/
inductive Format where
  | fN
  | fS
  | fB
  | fSB
  | fST
  | fSBT
  | fAT
  deriving DecidableEq, Repr

/-- Every field the format leaves unused, and `Z`, is zero (R101). -/
def Format.unusedZero (f : Format) (w : EventWord) : Bool :=
  zField w == 0 &&
  match f with
  | .fN => selField w == 0 && bField w == 0 && aField w == 0 && tField w == 0
  | .fS => bField w == 0 && aField w == 0 && tField w == 0
  | .fB => selField w == 0 && aField w == 0 && tField w == 0
  | .fSB => aField w == 0 && tField w == 0
  | .fST => bField w == 0 && aField w == 0
  | .fSBT => aField w == 0
  | .fAT => selField w == 0 && bField w == 0

/-- Why a word or a byte string is no operation (R103). -/
inductive DecodeError where
  /-- `OP` is not in R102 -/
  | unknownOpcode (op : Byte)
  /-- a field the format leaves unused, or `Z`, is not zero -/
  | unusedField (op : Byte)
  /-- a selector is out of range -/
  | selector (op sel : Byte)
  /-- a `B` that must be 0 or 1 is larger -/
  | flag (op b : Byte)
  /-- fewer than twelve bytes are left of a file of words -/
  | truncated (bytes : Nat)
  deriving DecidableEq, Repr

/-! ## Reading the operands (R104) -/

/-- A domain selector: 0, 1, 2. -/
def readDomain (op sel : Byte) : Except DecodeError Domain :=
  match sel.toNat with
  | 0 => .ok .tn
  | 1 => .ok .cn
  | 2 => .ok .all
  | _ => .error (.selector op sel)

/-- A unit number `SEL[7:4]`: 0 or 1. -/
def readUnit (op sel : Byte) : Except DecodeError TimerUnit :=
  match (sel.extractLsb' 4 4).toNat with
  | 0 => .ok .unit0
  | 1 => .ok .unit1
  | _ => .error (.selector op sel)

/-- The input number `SEL[3:0]` of a unit, below `N_IN[u]`. -/
def readInput (op sel : Byte) (u : TimerUnit) : Except DecodeError Nat :=
  if (sel.extractLsb' 0 4).toNat < nIn u then .ok (sel.extractLsb' 0 4).toNat else .error (.selector op sel)

/-- A unit selector whose `SEL[3:0]` must be 0 (`ET.FIRE`, `ET.TAKE`). -/
def readUnitOnly (op sel : Byte) : Except DecodeError TimerUnit :=
  if sel.extractLsb' 0 4 == 0 then readUnit op sel else .error (.selector op sel)

/-- A car index 0..3. -/
def readCar (op sel : Byte) : Except DecodeError CarIdx :=
  if h : sel.toNat < 4 then .ok ⟨sel.toNat, h⟩ else .error (.selector op sel)

/-- A direction: 0 `T2C`, 1 `C2T`. -/
def readDir (op sel : Byte) : Except DecodeError Dir :=
  match sel.toNat with
  | 0 => .ok .t2c
  | 1 => .ok .c2t
  | _ => .error (.selector op sel)

/-- The selector `changed` of `LE.LIGHT`: 0 or 1. -/
def readChanged (op sel : Byte) : Except DecodeError Bool :=
  match sel.toNat with
  | 0 => .ok false
  | 1 => .ok true
  | _ => .error (.selector op sel)

/-- A `B` operand that must be 0 or 1. -/
def readFlag (op b : Byte) : Except DecodeError Bool :=
  match b.toNat with
  | 0 => .ok false
  | 1 => .ok true
  | _ => .error (.flag op b)

/-! ## The decoder -/

/-- Refuse a word with a non-zero unused field, else go on (R101, R103). -/
def checked (f : Format) (w : EventWord) (k : Except DecodeError Instr) : Except DecodeError Instr :=
  if f.unusedZero w then k else .error (.unusedField (opField w))

/-- `ET.EDGE` (format SBT): unit, input, level, timestamp. -/
def decodeEdge (w : EventWord) : Except DecodeError Instr := do
  let u ← readUnit (opField w) (selField w)
  let i ← readInput (opField w) (selField w) u
  let dir ← readFlag (opField w) (bField w)
  .ok (.etEdge u i dir (tField w))

/-- The operation a word encodes, by its whole `OP` byte (R102), or the reason it is illegal (R103). -/
def decode (w : EventWord) : Except DecodeError Instr :=
  match (opField w).toNat with
  | 0x01 => checked .fS w ((readDomain (opField w) (selField w)).map .rst)
  | 0x02 => checked .fN w (.ok .tnRestart)
  | 0x10 => checked .fSBT w (decodeEdge w)
  | 0x11 => checked .fST w ((readUnitOnly (opField w) (selField w)).map (.etFire · (tField w)))
  | 0x12 => checked .fS w ((readUnitOnly (opField w) (selField w)).map .etTake)
  | 0x13 => checked .fN w (.ok .ocServe)
  | 0x20 => checked .fN w (.ok .tdPoll)
  | 0x21 => checked .fB w (.ok (.tdRxb (bField w)))
  | 0x22 => checked .fN w (.ok .tdDec)
  | 0x30 => checked .fST w ((readCar (opField w) (selField w)).map (.lePass · (tField w)))
  | 0x31 => checked .fSB w ((readChanged (opField w) (selField w)).map (.leLight (bField w)))
  | 0x32 => checked .fN w (.ok .leRank)
  | 0x33 => checked .fN w (.ok .kaFire)
  | 0x40 => checked .fAT w (.ok (.tcSub (aField w) (tField w)))
  | 0x41 => checked .fAT w (.ok (.tcCmp (aField w) (tField w)))
  | 0x50 => checked .fSB w ((readDir (opField w) (selField w)).map (.chDlv · (bField w)))
  | 0x51 => checked .fSB w ((readDir (opField w) (selField w)).map (.chDrop · (bField w)))
  | 0x52 => checked .fB w (.ok (.cnSetsp (bField w)))
  | 0x53 => checked .fN w (.ok .cnFinack)
  | 0x54 => checked .fN w (.ok .cnMeasdone)
  | 0x55 => checked .fB w ((readFlag (opField w) (bField w)).map .cnMapset)
  | 0x56 => checked .fN w (.ok .tnLoop)
  | _ => .error (.unknownOpcode (opField w))

/-! ## The encoder -/

/-- The operand `dom` (R102): 0 `TN`, 1 `CN`, 2 `ALL`. -/
def Domain.code : Domain → Byte
  | .tn => 0
  | .cn => 1
  | .all => 2

/-- The unit nibble `SEL[7:4]`. -/
def TimerUnit.code : TimerUnit → BitVec 4
  | .unit0 => 0
  | .unit1 => 1

/-- The direction selector: 0 `T2C`, 1 `C2T`. -/
def Dir.code : Dir → Byte
  | .t2c => 0
  | .c2t => 1

/-- A 0 or 1 operand. -/
def bitCode (b : Bool) : Byte := if b then 1 else 0

/-- `SEL` of an EventTimer operation: the unit in `SEL[7:4]`, the input in `SEL[3:0]` (R104). -/
def unitSel (u : TimerUnit) (i : Nat) : Byte := u.code ++ BitVec.ofNat 4 i

/-- The event word of an operation (R100 to R102); an illegal input number of an ill-formed `etEdge` is cut to
its four bits. -/
def encode : Instr → EventWord
  | .rst dom => packWord 0x01 dom.code 0 0 0
  | .tnRestart => packWord 0x02 0 0 0 0
  | .etEdge u i dir ts => packWord 0x10 (unitSel u i) (bitCode dir) 0 ts
  | .etFire u ts => packWord 0x11 (unitSel u 0) 0 0 ts
  | .etTake u => packWord 0x12 (unitSel u 0) 0 0 0
  | .ocServe => packWord 0x13 0 0 0 0
  | .tdPoll => packWord 0x20 0 0 0 0
  | .tdRxb b => packWord 0x21 0 b 0 0
  | .tdDec => packWord 0x22 0 0 0 0
  | .lePass c ts => packWord 0x30 (BitVec.ofNat 8 c.val) 0 0 ts
  | .leLight ls changed => packWord 0x31 (bitCode changed) ls 0 0
  | .leRank => packWord 0x32 0 0 0 0
  | .kaFire => packWord 0x33 0 0 0 0
  | .tcSub a b => packWord 0x40 0 0 a b
  | .tcCmp a b => packWord 0x41 0 0 a b
  | .chDlv dir v => packWord 0x50 dir.code v 0 0
  | .chDrop dir v => packWord 0x51 dir.code v 0 0
  | .cnSetsp v => packWord 0x52 0 v 0 0
  | .cnFinack => packWord 0x53 0 0 0 0
  | .cnMeasdone => packWord 0x54 0 0 0 0
  | .cnMapset b => packWord 0x55 0 (bitCode b) 0 0
  | .tnLoop => packWord 0x56 0 0 0 0

/-! ## Words as bytes: "stored as 12 bytes, most significant byte first" (R100) -/

/-- The twelve bytes of a word, the one at the lowest address first. -/
def wordBytes (w : EventWord) : List Byte :=
  [88, 80, 72, 64, 56, 48, 40, 32, 24, 16, 8, 0].map fun lo => w.extractLsb' lo 8

/-- The word that bytes store, most significant byte first. -/
def wordOfBytes (bytes : List Byte) : EventWord :=
  bytes.foldl (fun w b => (w <<< 8) ||| b.setWidth 96) 0

/-- Decode the first event word of any bytes; the answer carries the bytes after it. -/
def decodeBytes (bytes : List Byte) : Except DecodeError (Instr × List Byte) :=
  if bytes.length < 12 then .error (.truncated bytes.length)
  else (decode (wordOfBytes (bytes.take 12))).map fun i => (i, bytes.drop 12)

/-- The event word with the bits of a table word: bit 0 is the least significant (spec/opcode_table.json),
and every bit from `nbits` on is zero. -/
def tableWord (nbits w : Nat) : EventWord := BitVec.ofNat 96 (w % 2 ^ nbits)

/-- What the decoder reads from the instruction whose bits are `w` as spec/opcode_table.json numbers them,
stored as R100 says; `none` where it refuses. -/
def decodeTableWord (nbits w : Nat) : Option Instr :=
  match decodeBytes (wordBytes (tableWord nbits w)) with
  | .ok (i, _) => some i
  | .error _ => none

/-! ## The rows of spec/opcode_table.json -/

/-- One row: a word belongs to it when its bits under `mask` are `pattern`. -/
structure OpcodeRow where
  mnemonic : String
  pattern : EventWord
  mask : EventWord
  deriving DecidableEq, Repr

/-- The word's bits under the mask are the pattern. -/
def OpcodeRow.covers (r : OpcodeRow) (w : EventWord) : Bool := w &&& r.mask == r.pattern

/-- The "match" and "mask" of every row of spec/opcode_table.json. -/
def opcodeRows : List OpcodeRow := [
  ⟨"RST",         0x010000000000000000000000, 0xFFFCFFFFFFFFFFFFFFFFFFFF⟩,
  ⟨"TN.RESTART",  0x020000000000000000000000, 0xFFFFFFFFFFFFFFFFFFFFFFFF⟩,
  ⟨"ET.EDGE",     0x100000000000000000000000, 0xFFECFEFFFFFFFFFF00000000⟩,
  ⟨"ET.FIRE",     0x110000000000000000000000, 0xFFEFFFFFFFFFFFFF00000000⟩,
  ⟨"ET.TAKE",     0x120000000000000000000000, 0xFFEFFFFFFFFFFFFFFFFFFFFF⟩,
  ⟨"OC.SERVE",    0x130000000000000000000000, 0xFFFFFFFFFFFFFFFFFFFFFFFF⟩,
  ⟨"TD.POLL",     0x200000000000000000000000, 0xFFFFFFFFFFFFFFFFFFFFFFFF⟩,
  ⟨"TD.RXB",      0x210000000000000000000000, 0xFFFF00FFFFFFFFFFFFFFFFFF⟩,
  ⟨"TD.DEC",      0x220000000000000000000000, 0xFFFFFFFFFFFFFFFFFFFFFFFF⟩,
  ⟨"LE.PASS",     0x300000000000000000000000, 0xFFFCFFFFFFFFFFFF00000000⟩,
  ⟨"LE.LIGHT",    0x310000000000000000000000, 0xFFFE00FFFFFFFFFFFFFFFFFF⟩,
  ⟨"LE.RANK",     0x320000000000000000000000, 0xFFFFFFFFFFFFFFFFFFFFFFFF⟩,
  ⟨"KA.FIRE",     0x330000000000000000000000, 0xFFFFFFFFFFFFFFFFFFFFFFFF⟩,
  ⟨"TC.SUB",      0x400000000000000000000000, 0xFFFFFFFF0000000000000000⟩,
  ⟨"TC.CMP",      0x410000000000000000000000, 0xFFFFFFFF0000000000000000⟩,
  ⟨"CH.DLV",      0x500000000000000000000000, 0xFFFE00FFFFFFFFFFFFFFFFFF⟩,
  ⟨"CH.DROP",     0x510000000000000000000000, 0xFFFE00FFFFFFFFFFFFFFFFFF⟩,
  ⟨"CN.SETSP",    0x520000000000000000000000, 0xFFFF00FFFFFFFFFFFFFFFFFF⟩,
  ⟨"CN.FINACK",   0x530000000000000000000000, 0xFFFFFFFFFFFFFFFFFFFFFFFF⟩,
  ⟨"CN.MEASDONE", 0x540000000000000000000000, 0xFFFFFFFFFFFFFFFFFFFFFFFF⟩,
  ⟨"CN.MAPSET",   0x550000000000000000000000, 0xFFFFFEFFFFFFFFFFFFFFFFFF⟩,
  ⟨"TN.LOOP",     0x560000000000000000000000, 0xFFFFFFFFFFFFFFFFFFFFFFFF⟩]

end Sys2Proof
end

