-- ==== Sys2Proof/Config.lean ====
section
/-! DEFINITION. The parameters of the block (spec/00_scope.md R7, spec/92_eei_decisions.md section 6): what an
implementation fixes before the first step and no step changes (spec/70_reset_and_hazards.md R324). They are
arguments of the step relation (spec/10_state.md R43); the model carries them as plain data in `State.cfg`. -/

namespace Sys2Proof

/-- The classes of `LIGHT_CLASS` (spec/43_lap_engine.md R222, R227). -/
inductive LightClass where
  | allClear
  | ready
  | countdown
  | earlyStart
  | idle
  deriving DecidableEq, Repr

/-- `POLICY_FIRST`: the Car Node state entered from Idle when no map exists (R7, spec/44_wireless_sync.md
R261). -/
inductive FirstState where
  | trackMapping
  | measurement
  deriving DecidableEq, Repr

/-- What starts a Car Node that a finished measurement left in Idle with the status `RaceGoing`. The spec's rules
differ there, so the model takes it as a parameter of its own (DESIGN CHOICE, log 30). -/
inductive RestartRule where
  /-- a `NoRaceGoing` followed by a `RaceGoing` (the last words of spec/44_wireless_sync.md R269) -/
  | stopFirst
  /-- any `RaceGoing` (the pseudocode of R261 and the table of R270) -/
  | anyRaceGoing
  deriving DecidableEq, Repr

/-- `NUM`: the numeric representation of the winner's mean and standard deviation (R7, spec/43_lap_engine.md
R219). -/
inductive NumRep where
  /-- `NUM(x)` is `x` itself -/
  | exactReal
  /-- the representation R219 names: rounding steps and order of operations are open, steps on integers below `2^53`
  with an integer result are exact -/
  | binary64
  /-- any other reasonable representation, by a number of its own: one in which steps on integers below `2^15` with an
  integer result are exact, as those of R219's worked example are -/
  | other (id : Nat)
  deriving DecidableEq, Repr

/-- A number in a representation `NUM`: a rational number, which every number of a rounding representation is, or the
exact real `sqrt radicand`. -/
inductive NumValue where
  | rat (value : Rat)
  | root (radicand : Rat)
  deriving DecidableEq, Repr, Inhabited

/-- The parameters a rule reads. The timing-only ones (`TICK`, `KA_WINDOW`, `GRACE`, `POLL_PERIOD`,
`POLL_WAIT`, `BAUD`, `CU_TS_UNIT`) are read by no rule and stand in no definition (log 16). -/
structure Config where
  /-- `D[0]`, debounce delay of unit 0 in ticks -/
  debounce0 : U32
  /-- `D[1]`, debounce delay of unit 1 in ticks -/
  debounce1 : U32
  /-- `ACTIVE[0]` -/
  active0 : Bool
  /-- `ACTIVE[1]` -/
  active1 : Bool
  /-- `MIN_PASS` -/
  minPass : U32
  /-- `LIGHT_CLASS` at the bytes 0, 1, 2, ...; a byte past the end is Idle (log 17) -/
  lights : List LightClass
  /-- `LAP_TARGET_RESET` -/
  lapTargetReset : Byte
  /-- `RESEND`, the number of transmissions of each datagram -/
  resend : Nat
  /-- `POLICY_FIRST` -/
  policyFirst : FirstState
  /-- `NUM` -/
  num : NumRep
  /-- the model's own, no parameter of R7 (log 30) -/
  restart : RestartRule
  deriving DecidableEq, Repr

/-- `LIGHT_CLASS`, a total function from a byte (R227). Every such function is `lightClass` of some list of
256 classes. -/
def Config.lightClass (c : Config) (b : Byte) : LightClass :=
  c.lights.getD b.toNat .idle

/-- The ranges R7 and spec/92_eei_decisions.md section 6 give: positive delays, a lap target in 1..255, at
least one transmission. -/
def Config.legal (c : Config) : Bool :=
  c.debounce0 != 0 && c.debounce1 != 0 && c.lapTargetReset != 0 && c.resend != 0

/-- DESIGN CHOICE (log 4): the reference values of R7, "the spec's own choice and binds nobody", with the test
mapping of `LIGHT_CLASS` (spec/93_implementation_defined.md G2, a guess) and, for `restart`, the more specific of the
two readings, as spec/90_conflicts.md prefers (log 30). `State.reset` uses them; every meaning
reads the parameters of the state it is given. -/
def Config.reference : Config where
  debounce0 := 10000
  debounce1 := 1000
  active0 := true
  active1 := true
  minPass := 100
  lights := [.idle, .ready, .countdown, .countdown, .countdown, .countdown, .countdown, .allClear,
    .earlyStart, .earlyStart]
  lapTargetReset := 3
  resend := 1
  policyFirst := .trackMapping
  num := .exactReal
  restart := .stopFirst

/-- FREE VALUE (log 6): `NUM(mean)` and `NUM(sd)` in a representation that rounds, where a step does round.
spec/43_lap_engine.md R219 gives neither the rounding of a step nor the order of the steps, so nothing is fixed but
what the two are computed from: the representation, `lap_sum` and the measured laps. -/
opaque Config.roundedStats : NumRep → Nat → List U32 → Rat × Rat

/-- FREE VALUE (log 7): the winner's mean and standard deviation when the lap target is 0, a value the register never
holds (spec/10_state.md R28) and for which spec/43_lap_engine.md R217, R218 state no statistics. Applied to the
representation and the record's `lap_sum`. -/
opaque Config.statsAtZeroTarget : NumRep → Nat → Rat × NumValue

end Sys2Proof
end

