-- ==== Sys2Proof/Machine/Nodes.lean ====
section
/-! DEFINITION. The state of the two nodes, of the channel and of the output log as plain data, each with its
reset value (spec/10_state.md R20 to R53). -/

namespace Sys2Proof.Machine

/-! ## Storage reached by an index -/

/-- An address space of elements of `w` bits (spec/20_memory.md R60) as (address, element) cells in one canonical
form: addresses strictly rising and no element equal to zero, which is what an unlisted address reads as: the
zero fill of the telegram buffer (spec/10_state.md R38) and of a reset history (R52, R53). For `w = 8` a cell is a
`Host.Cell`. Reads and writes are `Mem.read` and `Mem.write` of Machine/Ops.lean. -/
abbrev Mem (w : Nat) := List (Nat × BitVec w)

/-- Each cell's address lies above the one before it, the first above every address below `lo`, and no cell holds
zero. -/
def Mem.wfFrom {w : Nat} (lo : Nat) : Mem w → Bool
  | [] => true
  | c :: m => decide (lo ≤ c.1) && c.2 != 0 && Mem.wfFrom (c.1 + 1) m

/-- The canonical form. -/
def Mem.wf {w : Nat} (m : Mem w) : Bool := Mem.wfFrom 0 m

/-- Size of `BUF`, the telegram buffer: addresses 0..19 (R60, R7 `BUF_LEN`). -/
abbrev bufLen : Nat := 20

/-! ## EventTimer -/

/-- The registers of a unit with `n` inputs (R36); bit `i` of `pin` and of `smpLevels` is input `i`. -/
structure EventTimer (n : Nat) where
  pin : BitVec n
  armed : Bool
  deadline : U32
  lastEdgeTs : U32
  ready : Bool
  smpLevels : BitVec n
  smpTs : U32
  deriving DecidableEq, Repr

/-- R52: the pins at the inactive level `1 - ACTIVE[u]`, everything else 0. -/
def EventTimer.reset {n : Nat} (active : Bool) : EventTimer n where
  pin := if active then 0 else BitVec.allOnes n
  armed := false
  deadline := 0
  lastEdgeTs := 0
  ready := false
  smpLevels := 0
  smpTs := 0

/-- A side of the optical variant: 0 left, 1 right (R37). -/
inductive Side where
  | left
  | right
  deriving DecidableEq, Repr

/-- The registers of one side of the optical variant (R37), its part of the sample extension included. -/
structure OpticalSide where
  riseSeen : Bool
  riseTs : U32
  hcur : U32
  hcurValid : Bool
  val : Bool
  arr : U32
  pas : U32
  his : U32
  hisValid : Bool
  smpPas : U32
  smpHis : U32
  smpHisValid : Bool
  deriving DecidableEq, Repr

/-- R52: every `opt.` register 0. -/
def OpticalSide.reset : OpticalSide where
  riseSeen := false
  riseTs := 0
  hcur := 0
  hcurValid := false
  val := false
  arr := 0
  pas := 0
  his := 0
  hisValid := false
  smpPas := 0
  smpHis := 0
  smpHisValid := false

/-- The extra registers of unit 1 (R37); `smpSkew` is read as an i32. -/
structure Optical where
  left : OpticalSide
  right : OpticalSide
  smpSkew : U32
  deriving DecidableEq, Repr

/-- R52: every `opt.` register 0. -/
def Optical.reset : Optical where
  left := OpticalSide.reset
  right := OpticalSide.reset
  smpSkew := 0

/-! ## Telegram decoder and comparator -/

/-- The registers of the telegram decoder (R38, R29, R30, R26). `isDone` and `isOpen` are the spec's `td.done`
and `td.open`. -/
structure Decoder where
  buf : Mem 8
  idx : Nat
  isDone : Bool
  isOpen : Bool
  emptyCnt : Byte
  fatal : Bool
  prevLight : Byte
  prevLightValid : Bool
  deriving DecidableEq, Repr

/-- R52: all zero. -/
def Decoder.reset : Decoder where
  buf := []
  idx := 0
  isDone := false
  isOpen := false
  emptyCnt := 0
  fatal := false
  prevLight := 0
  prevLightValid := false

/-- The result registers of the comparator (R39). -/
structure Comparator where
  diff : U32
  before : Bool
  deriving DecidableEq, Repr

/-- R52: zero. -/
def Comparator.reset : Comparator where
  diff := 0
  before := false

/-! ## Lap engine -/

/-- A CarRecord (R21). `lapSum` is the exact integer of R21. -/
structure CarRecord where
  lastTs : U32
  prevTs : U32
  lapTime : U32
  prevLapTime : U32
  improvement : I64
  lapCount : Byte
  hist : Mem 32
  lapSum : Nat
  position : Byte
  deriving DecidableEq, Repr

/-- R52, R223: every field 0, the whole history included. -/
def CarRecord.reset : CarRecord where
  lastTs := 0
  prevTs := 0
  lapTime := 0
  prevLapTime := 0
  improvement := 0
  lapCount := 0
  hist := []
  lapSum := 0
  position := 0

/-- The race status (R27): `noRaceGoing` is 0, `raceGoing` is 1 (R25). -/
inductive RaceStatus where
  | noRaceGoing
  | raceGoing
  deriving DecidableEq, Repr

/-- The Timing Node (R20): unit 0, the telegram decoder, the comparator's result registers, the lap engine with
the registers of R27 to R33. `rxSp` is the spec's `tn_rx_sp`. `winMean` and `winSd` are numbers of the representation
`cfg.num` (R32); a mean is a rational number in each of them. -/
structure TimingNode where
  et : EventTimer 3
  td : Decoder
  tc : Comparator
  cars : Vector CarRecord 4
  status : RaceStatus
  lapTarget : Byte
  winnerValid : Bool
  winnerCar : CarIdx
  winMean : Rat
  winSd : NumValue
  actOut : Byte
  lapOvf : Bool
  rxSp : Byte
  deriving DecidableEq, Repr

/-- R52: the Timing Node domain after reset. -/
def TimingNode.reset (cfg : Config) : TimingNode where
  et := EventTimer.reset cfg.active0
  td := Decoder.reset
  tc := Comparator.reset
  cars := Vector.replicate 4 CarRecord.reset
  status := .noRaceGoing
  lapTarget := cfg.lapTargetReset
  winnerValid := false
  winnerCar := 0
  winMean := 0
  winSd := .rat 0
  actOut := 0
  lapOvf := false
  rxSp := 0

/-! ## Car Node -/

/-- CarNodeState (R40). -/
inductive CarNodeState where
  | idle
  | racing
  | trackMapping
  | measurement
  deriving DecidableEq, Repr

/-- The Car Node (R20): unit 1 and the `cn_` registers of R40, each under its name without the prefix. -/
structure CarNode where
  et : EventTimer 2
  opt : Optical
  status : RaceStatus
  state : CarNodeState
  finish : Bool
  loopback : Bool
  lastSent : Byte
  lastValid : Bool
  mapComplete : Bool
  deriving DecidableEq, Repr

/-- R52: the Car Node domain after reset. -/
def CarNode.reset (cfg : Config) : CarNode where
  et := EventTimer.reset cfg.active1
  opt := Optical.reset
  status := .noRaceGoing
  state := .idle
  finish := false
  loopback := false
  lastSent := 0
  lastValid := false
  mapComplete := false

/-! ## Channel and output log -/

/-- A finite multiset of bytes as its sorted list, so that equal multisets are equal data (log 10). -/
abbrev Bag := List Byte

/-- The channel (R41): the bytes in flight in each direction. -/
structure Channel where
  t2c : Bag
  c2t : Bag
  deriving DecidableEq, Repr

/-- R52: empty at reset of the whole block. -/
def Channel.reset : Channel where
  t2c := []
  c2t := []

/-- What a class (a) decode failure reports (spec/60_exceptions.md R290, codes 1 to 4). -/
inductive NoiseInfo where
  | badCarDigit (byte : Byte)
  | badNibble (offset : Nat)
  | zeroTimestamp (car : CarIdx)
  | badWireValue (value : Byte)
  deriving DecidableEq, Repr

/-- The resource of a contention error (R290, code 6). -/
inductive Resource where
  | actuator
  deriving DecidableEq, Repr

/-- The error classes of R290 with their `info`. -/
inductive ErrorClass where
  | decodeNoise (info : NoiseInfo)
  | sensorNoise (side : Side) (duration : U32)
  | contention (resource : Resource)
  | lapOverflow (car : CarIdx)
  | linkSilence (emptyCnt : Byte)
  deriving DecidableEq, Repr

/-- The spec's numbering of the error classes (R290). -/
def ErrorClass.code : ErrorClass → Nat
  | .decodeNoise (.badCarDigit _) => 1
  | .decodeNoise (.badNibble _) => 2
  | .decodeNoise (.zeroTimestamp _) => 3
  | .decodeNoise (.badWireValue _) => 4
  | .sensorNoise _ _ => 5
  | .contention _ => 6
  | .lapOverflow _ => 7
  | .linkSilence _ => 8

/-- The output events of spec/10_state.md R51. -/
inductive OutEvent where
  | taken0 (levels : BitVec 3) (ts : U32)
  | taken1 (levels : BitVec 2) (ts skew pasLeft pasRight hisLeft : U32) (hisLeftValid : Bool)
      (hisRight : U32) (hisRightValid : Bool)
  | startReq
  | lightChanged (ls : Byte)
  | readyAnn
  | winner (car : CarIdx)
  | kaPulse
  | fatalNotice
  | tx (dir : Dir) (value : Byte)
  | err (error : ErrorClass)
  | reset (domain : Domain)
  deriving DecidableEq, Repr

end Sys2Proof.Machine
end

