-- ==== Sys2Proof/Machine/State.lean ====
section
/-! DEFINITION. The whole state of the block as plain data (spec/10_state.md R20), the reasons a step can stop, and
the state after reset. -/

namespace Sys2Proof.Machine

/-- The state: the two nodes, the channel between them, the output log outside both (R20), and two fields of the
model's own: the parameters (log 4) and the environment's event words not yet presented (log 1). -/
structure State where
  tn : TimingNode
  cn : CarNode
  ch : Channel
  out : List OutEvent
  /-- the model's own: the parameters of spec/00_scope.md R7, which no step changes -/
  cfg : Config
  /-- the model's own: the "program" of R24, a list of event words consumed front to back -/
  stimulus : List EventWord
  deriving DecidableEq, Repr

/-- A fault of the model: the machine stops. -/
inductive Fault where
  /-- Raised by `TD.RXB` when the next free buffer address is not in 0..19 (spec/20_memory.md R60, R61). Safe: no
  run reaches such a state (log 8). -/
  | bufferAddress (address : Nat)
  deriving DecidableEq, Repr

/-- Why an operation is refused: "the operation is outside what the environment may do" (spec/00_scope.md R9;
the list is spec/70_reset_and_hazards.md R331). Each is safe: the model gives the input no meaning. -/
inductive Refusal where
  /-- Raised by a still unwritten arm of `exec` only. Safe. -/
  | notModelled (mnemonic : String)
  /-- Raised by `step` on an illegal event word (spec/30_encoding.md R103). Safe. -/
  | illegalWord (why : DecodeError)
  /-- Raised by `ET.EDGE` on an input the unit does not have, an ill-formed operand that no legal word encodes
  (R103). Safe. -/
  | noSuchInput (u : TimerUnit) (i : Nat)
  /-- Raised by `ET.EDGE`: `D[u]` or more ticks passed on an armed timer (spec/40_event_timer.md R133). Safe. -/
  | edgePastWindow (u : TimerUnit)
  /-- Raised by `ET.FIRE`: no timer is armed (R135). Safe. -/
  | timerNotArmed (u : TimerUnit)
  /-- Raised by `ET.FIRE`: the timestamp is not the deadline (R135). Safe. -/
  | fireOffDeadline (u : TimerUnit)
  /-- Raised by `TD.POLL`: an exchange is open (spec/41_telegram_decoder.md R171). Safe. -/
  | exchangeOpen
  /-- Raised by `TD.RXB` and `TD.DEC`: no exchange is open (R172, R173). Safe. -/
  | noExchangeOpen
  /-- Raised by `CH.DLV` and `CH.DROP`: the byte is not in flight (spec/44_wireless_sync.md R255, R256). Safe. -/
  | notInFlight (dir : Dir) (v : Byte)
  /-- Raised by `CN.MEASDONE` outside the Measurement state (R269). Safe. -/
  | notMeasuring
  /-- Raised by `TN.RESTART` on a node that is not halted (spec/60_exceptions.md R301). Safe. -/
  | notHalted
  deriving DecidableEq, Repr

/-- The outcomes of an operation (spec/00_scope.md R9), a refusal and the model's fault included. `drop` carries the
state because a dropping rule may first have changed a counter or the log (R16). -/
inductive Verdict where
  | step (t : State)
  | drop (t : State)
  | hold
  | refuse (why : Refusal)
  | fault (why : Fault)
  deriving DecidableEq, Repr

/-- The state after `reset_domain(ALL)` with `out` empty (spec/70_reset_and_hazards.md R320), for any parameters:
every register at the value of spec/10_state.md R52, and no event word waiting. -/
def State.resetWith (cfg : Config) : State where
  tn := TimingNode.reset cfg
  cn := CarNode.reset cfg
  ch := Channel.reset
  out := []
  cfg := cfg
  stimulus := []

/-- The state after reset with the reference parameters (DESIGN CHOICE, log 4). -/
def State.reset : State := State.resetWith Config.reference

end Sys2Proof.Machine
end

