-- ==== Sys2Proof/Machine/Ops.lean ====
section
/-! DEFINITION. The named operations over the state: storage, the in-flight multisets, the output log, raising an
error class (with the one fatal entry), the return from it, reset of a domain, transmission, and presenting and
fetching event words. -/

namespace Sys2Proof.Machine

/-! ## Storage (spec/00_scope.md R13, spec/20_memory.md R60) -/

/-- The element at an address; an unlisted address reads zero. -/
def Mem.read {w : Nat} (m : Mem w) (a : Nat) : BitVec w :=
  match m with
  | [] => 0
  | c :: m => if c.1 = a then c.2 else Mem.read m a

/-- Put a cell before the first cell of a higher address. -/
def Mem.insertCell {w : Nat} (a : Nat) (v : BitVec w) : Mem w → Mem w
  | [] => [(a, v)]
  | c :: m => if a < c.1 then (a, v) :: c :: m else c :: Mem.insertCell a v m

/-- Store an element: the old cell goes, and a new one comes unless the element is what an unlisted address reads
as. -/
def Mem.write {w : Nat} (m : Mem w) (a : Nat) (v : BitVec w) : Mem w :=
  let rest := m.filter fun c => c.1 != a
  if v = 0 then rest else Mem.insertCell a v rest

/-- Bit `i` of a bit vector set to `b`: the assignment `et[u].pin[i] <- dir` of R132. -/
def setBit {n : Nat} (v : BitVec n) (i : Nat) (b : Bool) : BitVec n :=
  if b then v ||| BitVec.twoPow n i else v &&& ~~~(BitVec.twoPow n i)

/-! ## Multisets of bytes in flight (spec/10_state.md R41) -/

/-- The multiset with one more copy of `v`. -/
def Bag.insert (v : Byte) : Bag → Bag
  | [] => [v]
  | x :: l => if v ≤ x then v :: x :: l else x :: Bag.insert v l

/-- The multiset with one copy of `v` less. -/
def Bag.remove (v : Byte) : Bag → Bag
  | [] => []
  | x :: l => if x = v then l else x :: Bag.remove v l

/-- The canonical form: the list is sorted. -/
def Bag.sorted : Bag → Bool
  | [] => true
  | [_] => true
  | x :: y :: l => decide (x ≤ y) && Bag.sorted (y :: l)

/-- The bytes in flight in a direction. -/
def Channel.inFlight (ch : Channel) : Dir → Bag
  | .t2c => ch.t2c
  | .c2t => ch.c2t

/-- `ch[dir] <- ch[dir] + {v}` (R252) -/
def Channel.add (ch : Channel) (dir : Dir) (v : Byte) : Channel :=
  match dir with
  | .t2c => { ch with t2c := Bag.insert v ch.t2c }
  | .c2t => { ch with c2t := Bag.insert v ch.c2t }

/-- `ch[dir] <- ch[dir] - {v}`, one copy (R255) -/
def Channel.take (ch : Channel) (dir : Dir) (v : Byte) : Channel :=
  match dir with
  | .t2c => { ch with t2c := Bag.remove v ch.t2c }
  | .c2t => { ch with c2t := Bag.remove v ch.c2t }

/-! ## Updates of the state's parts -/

/-- The state with another Timing Node. -/
def State.withTn (s : State) (tn : TimingNode) : State := { s with tn := tn }
/-- The state with another Car Node. -/
def State.withCn (s : State) (cn : CarNode) : State := { s with cn := cn }
/-- The state with another channel. -/
def State.withCh (s : State) (ch : Channel) : State := { s with ch := ch }
/-- The state with other event words waiting. -/
def State.withStimulus (s : State) (ws : List EventWord) : State := { s with stimulus := ws }
/-- The state with another telegram decoder. -/
def State.withTd (s : State) (td : Decoder) : State := s.withTn { s.tn with td := td }
/-- The state with another record of car `c`. -/
def State.withCar (s : State) (c : CarIdx) (r : CarRecord) : State :=
  s.withTn { s.tn with cars := s.tn.cars.set c r }

/-- `emit(o)`: append an output event (spec/00_scope.md R14). -/
def State.emit (s : State) (o : OutEvent) : State := { s with out := s.out ++ [o] }

/-! ## Errors, the fatal halt and its end -/

/-- `raise X(info)` (R15, spec/60_exceptions.md R290): the log entry, and for `LinkSilence` the entry into the
halt (R300): the notice, then `td.fatal`. Nothing else is written, `status` and `act_out` included. -/
def raise (e : ErrorClass) (s : State) : State :=
  match e with
  | .linkSilence _ =>
    let s := (s.emit (.err e)).emit .fatalNotice
    s.withTd { s.tn.td with fatal := true }
  | .decodeNoise _ | .sensorNoise _ _ | .contention _ | .lapOverflow _ => s.emit (.err e)

/-- `reset_domain(d)` (spec/70_reset_and_hazards.md R320): every piece of state of the domain at its reset value;
only `ALL` empties the channel (R321); `out` is in no domain. -/
def resetDomain (d : Domain) (s : State) : State :=
  match d with
  | .tn => s.withTn (TimingNode.reset s.cfg)
  | .cn => s.withCn (CarNode.reset s.cfg)
  | .all => ((s.withTn (TimingNode.reset s.cfg)).withCn (CarNode.reset s.cfg)).withCh Channel.reset

/-- The return from the halt, `TN.RESTART` past its guard (R301): the Timing Node's reset and its log entry. There
is no return to the point of the fault. -/
def restartTimingNode (s : State) : State := (resetDomain .tn s).emit (.reset .tn)

/-! ## Transmission (spec/44_wireless_sync.md R252) -/

/-- One transmission: one more copy in flight and its log entry. -/
def txOnce (dir : Dir) (v : Byte) (s : State) : State := (s.withCh (s.ch.add dir v)).emit (.tx dir v)

/-- `n` transmissions. -/
def txTimes (dir : Dir) (v : Byte) : Nat → State → State
  | 0, s => s
  | n + 1, s => txTimes dir v n (txOnce dir v s)

/-- `tx(dir, v)`: `RESEND` transmissions. -/
def tx (dir : Dir) (v : Byte) (s : State) : State := txTimes dir v s.cfg.resend s

/-! ## Outcomes (spec/00_scope.md R9, R16) -/

/-- The outcome of an operation started in `s`: a step or a drop goes on in its state, a hold leaves `s` as it is,
a refusal and a fault stop. -/
def Verdict.outcome (s : State) : Verdict → Host.Outcome State Fault Refusal
  | .step t => .next t
  | .drop t => .next t
  | .hold => .next s
  | .refuse why => .refused why
  | .fault why => .fault why

/-! ## Event words (spec/10_state.md R24) -/

/-- The next event word of the environment's list, and the state without it; none when the list is used up. -/
def State.fetch (s : State) : Option (EventWord × State) :=
  match s.stimulus with
  | [] => none
  | w :: ws => some (w, s.withStimulus ws)

/-- The state with a word put in front of the environment's list. -/
def State.present (s : State) (w : EventWord) : State := s.withStimulus (w :: s.stimulus)

end Sys2Proof.Machine
end

