-- ==== Sys2Proof/Machine/Operands.lean ====
section
/-! DEFINITION. The operand forms: wrapping timestamp arithmetic (spec/42_timestamp_comparator.md R201, R204),
the fields of a CU telegram (spec/30_encoding.md R92 to R96, spec/20_memory.md R63), the wireless byte (R97 to
R99, spec/44_wireless_sync.md R251), and selecting a side or a unit's parameters. -/

namespace Sys2Proof.Machine

/-! ## Timestamps -/

/-- `wadd32(a, b) = (uint(a) + uint(b)) mod 2^32` (spec/00_scope.md R11) -/
def wadd32 (a b : U32) : U32 := a + b

/-- `wsub32(a, b) = (uint(a) - uint(b)) mod 2^32` (R201) -/
def wsub32 (a b : U32) : U32 := a - b

/-- `ssub64(a, b)`: the i64 `uint(a) - uint(b)`, without wrapping (R204) -/
def ssub64 (a b : U32) : I64 := a.setWidth 64 - b.setWidth 64

/-! ## The CU telegram -/

/-- The byte at an offset of the telegram buffer: `buf[k] = MemRead(BUF, k, 1)` (spec/00_scope.md R13). -/
def Decoder.byteAt (td : Decoder) (k : Nat) : Byte := td.buf.read k

/-- The end marker `'$'` (R93). -/
def endMarker : Byte := 0x24

/-- The classes of a telegram in the order the decoder tests them (R96); a decode failure is a `carPassing` whose
digit is no car. -/
inductive TelegramClass where
  | heartbeat
  | empty
  | carPassing
  deriving DecidableEq, Repr

/-- Classification reads the byte at offset 1 alone (spec/41_telegram_decoder.md R174). -/
def classify (cls : Byte) : TelegramClass :=
  if cls = 0x3A then .heartbeat else if cls = 0 then .empty else .carPassing

/-- `(uint(buf[1]) - 0x31) mod 256` (R94). -/
def carDigit (b : Byte) : Byte := b - 0x31

/-- The car of a digit byte, when it is one of 0..3 (R94, R175). -/
def carOfDigit (b : Byte) : Option CarIdx :=
  if h : (carDigit b).toNat < 4 then some ⟨(carDigit b).toNat, h⟩ else none

/-- `n[k] = buf[k] - '0'`, a 4-bit nibble (R95). -/
def nibble (b : Byte) : BitVec 4 := (b - 0x30).setWidth 4

/-- The timestamp of a CarPassing: `n[3] ++ n[2] ++ n[5] ++ n[4] ++ n[7] ++ n[6] ++ n[9] ++ n[8]` (R63). -/
def Decoder.telegramTs (td : Decoder) : U32 :=
  nibble (td.byteAt 3) ++ nibble (td.byteAt 2) ++ nibble (td.byteAt 5) ++ nibble (td.byteAt 4) ++
  nibble (td.byteAt 7) ++ nibble (td.byteAt 6) ++ nibble (td.byteAt 9) ++ nibble (td.byteAt 8)

/-! ## The wireless byte -/

/-- The numeric value of a race status, which is its wire value (spec/10_state.md R25, R97). -/
def RaceStatus.code : RaceStatus → Byte
  | .noRaceGoing => 0
  | .raceGoing => 1

/-- What a byte means to the Car Node: a tagged message of direction `T2C` (R251, R97, R99). -/
inductive CarMessage where
  | status (st : RaceStatus)
  | finishLine
  | loopbackAck
  | reserved (v : Byte)
  deriving DecidableEq, Repr

/-- What a byte means to the Timing Node: a tagged message of direction `C2T` (R251, R98). -/
inductive TimingMessage where
  | setpoint (v : Byte)
  deriving DecidableEq, Repr

/-- `decode_wire(T2C, v)` (R251). -/
def decodeT2c (v : Byte) : CarMessage :=
  match v.toNat with
  | 0 => .status .noRaceGoing
  | 1 => .status .raceGoing
  | 2 => .finishLine
  | 3 => .loopbackAck
  | _ => .reserved v

/-- `decode_wire(C2T, v)` (R251): every value is a setpoint. -/
def decodeC2t (v : Byte) : TimingMessage := .setpoint v

/-! ## Units and sides -/

/-- The side of an input of unit 1: input 0 is the left sensor, input 1 the right (spec/10_state.md R35). -/
def sideOfInput (i : Nat) : Side := if i = 0 then .left else .right

/-- The registers of a side. -/
def Optical.side (o : Optical) : Side → OpticalSide
  | .left => o.left
  | .right => o.right

/-- The optical registers with those of one side replaced. -/
def Optical.setSide (o : Optical) (sd : Side) (r : OpticalSide) : Optical :=
  match sd with
  | .left => { o with left := r }
  | .right => { o with right := r }

end Sys2Proof.Machine
end

