-- ==== Sys2Proof/Machine/Flags.lean ====
section
/-! DEFINITION. The one-bit conditions the rules compute. The block has no carry, zero, sign or overflow flag
(spec/10_state.md R26). -/

namespace Sys2Proof.Machine

/-- `ts_before(a, b)`: the sign bit of `wsub32(a, b)` (spec/42_timestamp_comparator.md R203). -/
def tsBefore (a b : U32) : Bool := (wsub32 a b).msb

/-- An edge on an armed timer at which `D[u]` or more ticks have passed since the last edge (spec/40_event_timer.md
R132, R133). -/
def EventTimer.edgePast {n : Nat} (t : EventTimer n) (delay ts : U32) : Bool :=
  t.armed && decide (delay ≤ wsub32 ts t.lastEdgeTs)

/-- A passing duration below `MIN_PASS` is noise; the minimum itself is valid (R142). -/
def pulseTooShort (minPass p : U32) : Bool := decide (p < minPass)

/-- An operator input is pressed in a sample when its level equals `ACTIVE[0]` (R149). -/
def pressed (cfg : Config) (levels : BitVec 3) (i : Nat) : Bool := levels.getLsbD i == cfg.active0

/-- Reception is complete after the byte `b` when it is the end marker or the buffer is full
(spec/41_telegram_decoder.md R172); `idx` counts `b` already. -/
def receptionDone (b : Byte) (idx : Nat) : Bool := b == endMarker || idx == bufLen

/-- A timestamp nibble byte lies in 0x30..0x3F (R95, R176). -/
def nibbleValid (b : Byte) : Bool := decide (0x30 ≤ b) && decide (b ≤ 0x3F)

/-- The lowest offset in 2..9 whose byte is no nibble byte (R176, spec/60_exceptions.md R297). -/
def Decoder.badNibble (td : Decoder) : Option Nat :=
  [2, 3, 4, 5, 6, 7, 8, 9].find? fun k => !nibbleValid (td.byteAt k)

/-- A Heartbeat's light state counts as changed when none was seen before or it differs (R179). -/
def Decoder.lightChanged (td : Decoder) (ls : Byte) : Bool :=
  !td.prevLightValid || td.prevLight != ls

/-- More than ten consecutive Empty telegrams are link silence (R178; R7 `EMPTY_MAX`). -/
def emptyFatal (emptyCnt : Byte) : Bool := decide (10 < emptyCnt)

/-- The win test: `uint(r.lap_count) >= uint(lap_target)` while a race is going (spec/43_lap_engine.md R220). -/
def winReached (status : RaceStatus) (lapCount lapTarget : Byte) : Bool :=
  status == .raceGoing && decide (lapTarget ≤ lapCount)

/-- The actuator token is with the race-active path exactly while a race is going (spec/10_state.md R34). -/
def actuatorGranted (status : RaceStatus) : Bool := status == .raceGoing

end Sys2Proof.Machine
end

