-- ==== Sys2Proof/Machine/EventTimer.lean ====
section
/-! DEFINITION. The EventTimer and the operator controls: `ET.EDGE`, `ET.FIRE`, `ET.TAKE`, `OC.SERVE`
(spec/40_event_timer.md). -/

namespace Sys2Proof.Machine

/-! ## ET.EDGE -/

/-- The basic part of `ET.EDGE` on a unit (R132): the level, the timestamp, and the timer started or restarted. -/
def EventTimer.edge {n : Nat} (t : EventTimer n) (delay : U32) (i : Nat) (dir : Bool) (ts : U32) : EventTimer n :=
  { t with pin := setBit t.pin i dir, lastEdgeTs := ts, armed := true, deadline := wadd32 ts delay }

/-- The level goes to `ACTIVE[1]` (R141): the history duration is measured, the new pulse's start kept. -/
def OpticalSide.activate (r : OpticalSide) (ts : U32) : OpticalSide :=
  let r := if r.riseSeen then { r with hcur := wsub32 ts r.riseTs, hcurValid := true } else r
  { r with riseTs := ts, riseSeen := true }

/-- A validated pulse of passing duration `p` is captured (R142). -/
def OpticalSide.capture (r : OpticalSide) (p : U32) : OpticalSide :=
  { r with val := true, arr := r.riseTs, pas := p, his := r.hcur, hisValid := r.hcurValid }

/-- `optical_edge(s, dir, ts)` on a state whose basic part is done (R141, R142, R144). -/
def opticalEdge (sd : Side) (dir : Bool) (ts : U32) (s : State) : Verdict :=
  let r := s.cn.opt.side sd
  let p := wsub32 ts r.riseTs
  if dir = s.cfg.active1 then
    .step (s.withCn { s.cn with opt := s.cn.opt.setSide sd (r.activate ts) })
  else if pulseTooShort s.cfg.minPass p then .step (raise (.sensorNoise sd p) s)
  else if s.cn.et.ready then .drop s
  else .step (s.withCn { s.cn with opt := s.cn.opt.setSide sd (r.capture p) })

/-- `ET.EDGE u, i, dir, ts` (R132). -/
def etEdge (u : TimerUnit) (i : Nat) (dir : Bool) (ts : U32) (s : State) : Verdict :=
  if nIn u ≤ i then .refuse (.noSuchInput u i)
  else match u with
  | .unit0 =>
    if s.tn.td.fatal then .drop s
    else if s.tn.et.edgePast s.cfg.debounce0 ts then .refuse (.edgePastWindow .unit0)
    else .step (s.withTn { s.tn with et := s.tn.et.edge s.cfg.debounce0 i dir ts })
  | .unit1 =>
    if s.cn.et.edgePast s.cfg.debounce1 ts then .refuse (.edgePastWindow .unit1)
    else
      let changed := dir != s.cn.et.pin.getLsbD i
      let s' := s.withCn { s.cn with et := s.cn.et.edge s.cfg.debounce1 i dir ts }
      if changed then opticalEdge (sideOfInput i) dir ts s' else .step s'

/-- The meaning of `ET.EDGE`. -/
def execEtEdge (u : TimerUnit) (i : Nat) (dir : Bool) (ts : U32) (s : State) : Host.Outcome State Fault Refusal :=
  (etEdge u i dir ts s).outcome s

/-! ## ET.FIRE -/

/-- The common part of `ET.FIRE` on a unit (R135): the timer stops. -/
def EventTimer.disarm {n : Nat} (t : EventTimer n) : EventTimer n := { t with armed := false }

/-- A sample is stored (R136): all inputs in one read, the timestamp of the most recent edge, `ready` raised. -/
def EventTimer.sample {n : Nat} (t : EventTimer n) : EventTimer n :=
  { t with smpLevels := t.pin, smpTs := t.lastEdgeTs, ready := true }

/-- `basic_fire()` on a state whose timer is stopped (R136); a pending sample is kept and the new one dropped
(R137). -/
def basicFire (s : State) : Verdict :=
  if s.tn.et.ready then .drop s
  else .step (s.withTn { s.tn with et := s.tn.et.sample })

/-- The sample extension of a side (R145). -/
def OpticalSide.sample (r : OpticalSide) : OpticalSide :=
  { r with smpPas := r.pas, smpHis := r.his, smpHisValid := r.hisValid }

/-- The paired-sensor sample: the skew is the left arrival minus the right (R145, R146). -/
def Optical.sample (o : Optical) : Optical :=
  { left := o.left.sample, right := o.right.sample, smpSkew := wsub32 o.left.arr o.right.arr }

/-- `optical_fire()` on a state whose timer is stopped (R145). -/
def opticalFire (s : State) : Verdict :=
  if s.cn.et.ready then .drop s
  else if s.cn.opt.left.val && s.cn.opt.right.val then
    .step (s.withCn { s.cn with et := s.cn.et.sample, opt := s.cn.opt.sample })
  else .drop s

/-- `ET.FIRE u, ts` (R135). -/
def etFire (u : TimerUnit) (ts : U32) (s : State) : Verdict :=
  match u with
  | .unit0 =>
    if s.tn.td.fatal then .drop s
    else if !s.tn.et.armed then .refuse (.timerNotArmed .unit0)
    else if ts ≠ s.tn.et.deadline then .refuse (.fireOffDeadline .unit0)
    else basicFire (s.withTn { s.tn with et := s.tn.et.disarm })
  | .unit1 =>
    if !s.cn.et.armed then .refuse (.timerNotArmed .unit1)
    else if ts ≠ s.cn.et.deadline then .refuse (.fireOffDeadline .unit1)
    else opticalFire (s.withCn { s.cn with et := s.cn.et.disarm })

/-- The meaning of `ET.FIRE`. -/
def execEtFire (u : TimerUnit) (ts : U32) (s : State) : Host.Outcome State Fault Refusal :=
  (etFire u ts s).outcome s

/-! ## ET.TAKE -/

/-- The `ready` signal lowered. -/
def EventTimer.lower {n : Nat} (t : EventTimer n) : EventTimer n := { t with ready := false }

/-- The output event of a take of unit 0 (spec/10_state.md R51). -/
def TimingNode.taken (tn : TimingNode) : OutEvent := .taken0 tn.et.smpLevels tn.et.smpTs

/-- The output event of a take of unit 1 (spec/10_state.md R51). -/
def CarNode.taken (cn : CarNode) : OutEvent :=
  .taken1 cn.et.smpLevels cn.et.smpTs cn.opt.smpSkew cn.opt.left.smpPas cn.opt.right.smpPas
    cn.opt.left.smpHis cn.opt.left.smpHisValid cn.opt.right.smpHis cn.opt.right.smpHisValid

/-- Both valid flags cleared: "since the last consumption" (R147). -/
def Optical.consume (o : Optical) : Optical :=
  { o with left := { o.left with val := false }, right := { o.right with val := false } }

/-- The sample of unit 0 handed out and the signal lowered, in one step. -/
def takeSample0 (s : State) : State :=
  (s.emit s.tn.taken).withTn { s.tn with et := s.tn.et.lower }

/-- The sample of unit 1 handed out, the signal lowered and the valid flags cleared, in one step. -/
def takeSample1 (s : State) : State :=
  (s.emit s.cn.taken).withCn { s.cn with et := s.cn.et.lower, opt := s.cn.opt.consume }

/-- `ET.TAKE u` (R147); on a lowered signal it holds (R148). -/
def etTake (u : TimerUnit) (s : State) : Verdict :=
  match u with
  | .unit0 =>
    if s.tn.td.fatal then .drop s
    else if !s.tn.et.ready then .hold
    else .step (takeSample0 s)
  | .unit1 =>
    if !s.cn.et.ready then .hold
    else .step (takeSample1 s)

/-- The meaning of `ET.TAKE`. -/
def execEtTake (u : TimerUnit) (s : State) : Host.Outcome State Fault Refusal := (etTake u s).outcome s

/-! ## OC.SERVE -/

/-- `min(255, uint(lap_target) + 1)` (R150) -/
def raiseTarget (t : Byte) : Byte := BitVec.ofNat 8 (min 255 (t.toNat + 1))

/-- `max(1, uint(lap_target) - 1)` (R150) -/
def lowerTarget (t : Byte) : Byte := BitVec.ofNat 8 (max 1 (t.toNat - 1))

/-- The action of the one input of highest priority that is pressed in the sample `levels`: start, increase,
decrease (R149, R150). -/
def serveControls (levels : BitVec 3) (s : State) : State :=
  if pressed s.cfg levels 0 then s.emit .startReq
  else if pressed s.cfg levels 1 then s.withTn { s.tn with lapTarget := raiseTarget s.tn.lapTarget }
  else if pressed s.cfg levels 2 then s.withTn { s.tn with lapTarget := lowerTarget s.tn.lapTarget }
  else s

/-- `OC.SERVE` (R150). -/
def ocServe (s : State) : Verdict :=
  if s.tn.td.fatal then .drop s
  else if !s.tn.et.ready then .hold
  else .step (serveControls s.tn.et.smpLevels (takeSample0 s))

/-- The meaning of `OC.SERVE`. -/
def execOcServe (s : State) : Host.Outcome State Fault Refusal := (ocServe s).outcome s

end Sys2Proof.Machine
end

