-- ==== Sys2Proof/Machine/HostControl.lean ====
section
/-! DEFINITION. Reset and restart: `RST` (spec/70_reset_and_hazards.md R322), `TN.RESTART`
(spec/60_exceptions.md R301). -/

namespace Sys2Proof.Machine

/-- `RST dom` (R322); never dropped, also not by a halted Timing Node. -/
def rst (dom : Domain) (s : State) : Verdict := .step ((resetDomain dom s).emit (.reset dom))

/-- The meaning of `RST`. -/
def execRst (dom : Domain) (s : State) : Host.Outcome State Fault Refusal := (rst dom s).outcome s

/-- `TN.RESTART` (R301): only a halted node restarts this way. -/
def tnRestart (s : State) : Verdict :=
  if !s.tn.td.fatal then .refuse .notHalted else .step (restartTimingNode s)

/-- The meaning of `TN.RESTART`. -/
def execTnRestart (s : State) : Host.Outcome State Fault Refusal := (tnRestart s).outcome s

end Sys2Proof.Machine
end

