-- ==== Sys2Proof/Machine/LapEngine.lean ====
section
/-! DEFINITION. The lap counter and statistics engine with the race state machine: `LE.PASS`, `LE.LIGHT`,
`LE.RANK`, `KA.FIRE` (spec/43_lap_engine.md). -/

namespace Sys2Proof.Machine

/-! ## The record update (R212) -/

/-- The two most recent raw timestamps: `r.prev_ts <- r.last_ts ; r.last_ts <- ts`. -/
def CarRecord.shiftTs (r : CarRecord) (ts : U32) : CarRecord := { r with prevTs := r.lastTs, lastTs := ts }

/-- Items 1 and 2, after the shift: a lap time when there was a previous timestamp, an improvement when there was a
previous lap time. -/
def CarRecord.measure (r : CarRecord) (ts : U32) : CarRecord :=
  if r.prevTs ≠ 0 then
    let r := { r with prevLapTime := r.lapTime, lapTime := wsub32 ts r.prevTs }
    if r.prevLapTime ≠ 0 then { r with improvement := ssub64 r.lapTime r.prevLapTime } else r
  else r

/-- Item 3: the lap time appended at index `lap_count` before the increment, summed and counted. The guard of R211
keeps the index in `HIST[c]`, 0..254 (spec/20_memory.md R60). -/
def CarRecord.append (r : CarRecord) : CarRecord :=
  { r with
    hist := r.hist.write r.lapCount.toNat r.lapTime
    lapSum := r.lapSum + r.lapTime.toNat
    lapCount := r.lapCount + 1 }

/-- Items 1 to 3 in the order written (R212, R213). -/
def CarRecord.pass (r : CarRecord) (ts : U32) : CarRecord := ((r.shiftTs ts).measure ts).append

/-! ## The winner's statistics (R217 to R219) -/

/-- `hist[i]` for `i` in `1..T-1`. -/
def CarRecord.measuredLaps (r : CarRecord) (target : Nat) : List U32 :=
  (List.range (target - 1)).map fun i => r.hist.read (i + 1)

/-- `mean = r.lap_sum / (T - 1)` -/
def CarRecord.mean (r : CarRecord) (target : Nat) : Rat := (r.lapSum : Rat) / ((target - 1 : Nat) : Rat)

/-- `var = (sum for i in 1..T-1 of (uint(r.hist[i]) - mean)^2) / (T - 1)` -/
def CarRecord.variance (r : CarRecord) (target : Nat) : Rat :=
  ((r.measuredLaps target).map fun h => ((h.toNat : Rat) - r.mean target) * ((h.toNat : Rat) - r.mean target)).sum /
    ((target - 1 : Nat) : Rat)

/-- The greatest number reached from `root` by setting some of its lowest `bits` bits whose square is at most `v`. -/
def sqrtFrom : (bits root v : Nat) → Nat
  | 0, root, _ => root
  | k + 1, root, v => if (root + 2 ^ k) * (root + 2 ^ k) ≤ v then sqrtFrom k (root + 2 ^ k) v else sqrtFrom k root v

/-- The integer square root of a number below `2^54`. -/
def isqrt (v : Nat) : Nat := sqrtFrom 27 0 v

/-- The sum of the squared deviations of the measured laps from an integer mean. -/
def CarRecord.squares (r : CarRecord) (target mean : Nat) : Nat :=
  ((r.measuredLaps target).map fun h => ((h.toNat : Int) - mean).natAbs ^ 2).sum

/-- The mean where its division is exact on integers below `bound` (R219, "exact in every reasonable
representation"). -/
def CarRecord.exactMean (r : CarRecord) (bound target : Nat) : Option Nat :=
  let m := r.lapSum / (target - 1)
  if r.lapSum < bound ∧ r.lapSum = m * (target - 1) then some m else none

/-- The standard deviation where each of its steps is exact on integers below `bound`: the mean, the squared
deviations, their sum, its division and the root (R219). -/
def CarRecord.exactSd (r : CarRecord) (bound target : Nat) : Option Nat :=
  match r.exactMean bound target with
  | none => none
  | some m =>
    let q := r.squares target m
    let d := isqrt (q / (target - 1))
    if (r.measuredLaps target).all (fun h => decide (h.toNat < bound)) ∧ q < bound ∧ q = d ^ 2 * (target - 1) then
      some d
    else none

/-- `NUM(mean)` and `NUM(sd)` in a representation that rounds and is exact on integers below `bound`: each exact where
its steps are, and else a free value of what it is computed from (log 6). -/
def CarRecord.roundedStats (r : CarRecord) (num : NumRep) (bound target : Nat) : Rat × NumValue :=
  let v := Config.roundedStats num r.lapSum (r.measuredLaps target)
  ((r.exactMean bound target).elim v.1 fun m : Nat => (m : Rat),
    .rat ((r.exactSd bound target).elim v.2 fun d : Nat => (d : Rat)))

/-- `NUM(mean)` and `NUM(sd)` for `T >= 2` (R217, R219): the exact reals when `NUM` is exact real. -/
def CarRecord.numStats (r : CarRecord) (num : NumRep) (target : Nat) : Rat × NumValue :=
  match num with
  | .exactReal => (r.mean target, .root (r.variance target))
  | .binary64 => r.roundedStats num (2 ^ 53) target
  | .other _ => r.roundedStats num (2 ^ 15) target

/-- `stats(r, T)` in the representation `num` (R217, R219); both 0 for `T = 1` (R218). At `T = 0`, a target never held
(spec/10_state.md R28), both are free values (log 7). -/
def stats (num : NumRep) (r : CarRecord) (target : Byte) : Rat × NumValue :=
  if target = 0 then Config.statsAtZeroTarget num r.lapSum
  else if target = 1 then (0, .rat 0)
  else r.numStats num target.toNat

/-- `win(c)` (R216). -/
def win (c : CarIdx) (s : State) : State :=
  let st := stats s.cfg.num s.tn.cars[c] s.tn.lapTarget
  let s := s.withTn { s.tn with winnerValid := true, winnerCar := c, winMean := st.1, winSd := st.2 }
  let s := s.emit (.winner c)
  let s := s.withTn { s.tn with actOut := 0, status := .noRaceGoing }
  tx .t2c 0 s

/-! ## LE.PASS -/

/-- Item 4: the finish-line notification of the sensor car, index 0 (R220). -/
def notifyFinishLine (c : CarIdx) (s : State) : State := if c = 0 then tx .t2c 2 s else s

/-- Item 5: the win test on the count after the increment (R220). -/
def testWin (c : CarIdx) (s : State) : State :=
  if winReached s.tn.status s.tn.cars[c].lapCount s.tn.lapTarget then win c s else s

/-- A counted passing of car `c` at `ts`: items 1 to 5 (R212, R220). -/
def countPassing (c : CarIdx) (ts : U32) (s : State) : State :=
  testWin c (notifyFinishLine c (s.withCar c (s.tn.cars[c].pass ts)))

/-- `onCarPassing(c, ts)` of a node that is not halted: the guards of R211, then the passing. It is what `LE.PASS`
does and what a good CarPassing telegram does inside `TD.DEC` (spec/41_telegram_decoder.md R176). -/
def onCarPassing (c : CarIdx) (ts : U32) (s : State) : Verdict :=
  if ts = 0 then .drop (raise (.decodeNoise (.zeroTimestamp c)) s)
  else if s.tn.cars[c].lapCount = 255 then
    .drop (raise (.lapOverflow c) (s.withTn { s.tn with lapOvf := true }))
  else .step (countPassing c ts s)

/-- `LE.PASS c, ts` (R211, R212, R220, R216). -/
def lePass (c : CarIdx) (ts : U32) (s : State) : Verdict :=
  if s.tn.td.fatal then .drop s else onCarPassing c ts s

/-- The meaning of `LE.PASS`. -/
def execLePass (c : CarIdx) (ts : U32) (s : State) : Host.Outcome State Fault Refusal := (lePass c ts s).outcome s

/-! ## LE.LIGHT -/

/-- `record_reset()` (R223): the four records, the winner registers and `lap_ovf`; `lap_target` is kept. -/
def recordReset (s : State) : State :=
  s.withTn { s.tn with
    cars := Vector.replicate 4 CarRecord.reset
    winnerValid := false
    winnerCar := 0
    winMean := 0
    winSd := .rat 0
    lapOvf := false }

/-- `status <- NoRaceGoing`, with the interlock's effect `act_out <- 0` (R224). -/
def stopRace (s : State) : State := s.withTn { s.tn with status := .noRaceGoing, actOut := 0 }

/-- `status <- RaceGoing`; `act_out` is not written (R222, R224). -/
def startRace (s : State) : State := s.withTn { s.tn with status := .raceGoing }

/-- The transition of the light class reached, with its side effects (R221 to R225). -/
def lightTransition (k : LightClass) (s : State) : State :=
  match k with
  | .allClear => startRace s
  | .ready => (stopRace (recordReset s)).emit .readyAnn
  | .countdown => stopRace s
  | .earlyStart => stopRace s
  | .idle => s

/-- `tx(T2C, status)`, the broadcast of the race status (R226). -/
def broadcastStatus (s : State) : State := tx .t2c s.tn.status.code s

/-- What a Heartbeat of light state `ls` does to a node that is not halted (R221): the transition when the light
changed, the rebroadcast when its class is not Idle. It is what `LE.LIGHT` does and what a Heartbeat telegram does
inside `TD.DEC` (spec/41_telegram_decoder.md R179). -/
def onLight (ls : Byte) (changed : Bool) (s : State) : State :=
  let k := s.cfg.lightClass ls
  let s := if changed then lightTransition k s else s
  if k ≠ .idle then broadcastStatus s else s

/-- `LE.LIGHT ls, changed` (R221). -/
def leLight (ls : Byte) (changed : Bool) (s : State) : Verdict :=
  if s.tn.td.fatal then .drop s else .step (onLight ls changed s)

/-- The meaning of `LE.LIGHT`. -/
def execLeLight (ls : Byte) (changed : Bool) (s : State) : Host.Outcome State Fault Refusal :=
  (leLight ls changed s).outcome s

/-! ## LE.RANK -/

/-- `earlier(d, c)`: `d` has a passing, and its last one is before that of `c` and not the reverse (R230). -/
def CarRecord.earlier (d c : CarRecord) : Bool :=
  decide (0 < d.lapCount) && tsBefore d.lastTs c.lastTs && !tsBefore c.lastTs d.lastTs

/-- `ahead(d, c)`: more laps, then the earlier last passing, then the lower index (R230). -/
def ahead (cars : Vector CarRecord 4) (d c : CarIdx) : Bool :=
  decide (cars[c].lapCount < cars[d].lapCount) ||
  (cars[d].lapCount == cars[c].lapCount &&
    (cars[d].earlier cars[c] ||
      (!cars[d].earlier cars[c] && !cars[c].earlier cars[d] && decide (d < c))))

/-- The car indices in order. -/
def carIndices : List CarIdx := [0, 1, 2, 3]

/-- `1 + (number of d in 0..3, d != c, with ahead(d, c))` (R230) -/
def rankOf (cars : Vector CarRecord 4) (c : CarIdx) : Byte :=
  BitVec.ofNat 8 (1 + (carIndices.filter fun d => d != c && ahead cars d c).length)

/-- The record of car `c` with its rank among `cars`. -/
def ranked (cars : Vector CarRecord 4) (c : CarIdx) : CarRecord := { cars[c] with position := rankOf cars c }

/-- `LE.RANK` (R230): every `position` from the records as they stand. -/
def leRank (s : State) : Verdict :=
  if s.tn.td.fatal then .drop s
  else .step (s.withTn { s.tn with
    cars := #v[ranked s.tn.cars 0, ranked s.tn.cars 1, ranked s.tn.cars 2, ranked s.tn.cars 3] })

/-- The meaning of `LE.RANK`. -/
def execLeRank (s : State) : Host.Outcome State Fault Refusal := (leRank s).outcome s

/-! ## KA.FIRE -/

/-- `KA.FIRE` (R233): a pulse while the race-active path holds the actuator token, else contention. -/
def kaFire (s : State) : Verdict :=
  if s.tn.td.fatal then .drop s
  else if actuatorGranted s.tn.status then .step (s.emit .kaPulse)
  else .step (raise (.contention .actuator) s)

/-- The meaning of `KA.FIRE`. -/
def execKaFire (s : State) : Host.Outcome State Fault Refusal := (kaFire s).outcome s

end Sys2Proof.Machine
end

