-- ==== Sys2Proof/Machine/TelegramDecoder.lean ====
section
/-! DEFINITION. The telegram decoder: `TD.POLL`, `TD.RXB`, `TD.DEC` (spec/41_telegram_decoder.md). -/

namespace Sys2Proof.Machine

/-! ## Reception -/

/-- `TD.POLL` (R171): the buffer takes the zero-fill value and an exchange opens. -/
def tdPoll (s : State) : Verdict :=
  if s.tn.td.fatal then .drop s
  else if s.tn.td.isOpen then .refuse .exchangeOpen
  else .step (s.withTd { s.tn.td with buf := [], idx := 0, isDone := false, isOpen := true })

/-- The meaning of `TD.POLL`. -/
def execTdPoll (s : State) : Host.Outcome State Fault Refusal := (tdPoll s).outcome s

/-- The decoder with one byte received (R172): stored at the next free offset, the end marker included. -/
def Decoder.receive (td : Decoder) (b : Byte) : Decoder :=
  { td with
    buf := td.buf.write td.idx b
    idx := td.idx + 1
    isDone := td.isDone || receptionDone b (td.idx + 1) }

/-- `TD.RXB b` (R172). A buffer address outside 0..19, which no run reaches, faults (log 8). -/
def tdRxb (b : Byte) (s : State) : Verdict :=
  if s.tn.td.fatal then .drop s
  else if !s.tn.td.isOpen then .refuse .noExchangeOpen
  else if s.tn.td.isDone then .drop s
  else if bufLen ≤ s.tn.td.idx then .fault (.bufferAddress s.tn.td.idx)
  else .step (s.withTd (s.tn.td.receive b))

/-- The meaning of `TD.RXB`. -/
def execTdRxb (b : Byte) (s : State) : Host.Outcome State Fault Refusal := (tdRxb b s).outcome s

/-! ## Decoding -/

/-- `empty()` (R178): count, and more than ten in a row are link silence. -/
def onEmpty (s : State) : State :=
  let s := s.withTd { s.tn.td with emptyCnt := s.tn.td.emptyCnt + 1 }
  if emptyFatal s.tn.td.emptyCnt then raise (.linkSilence s.tn.td.emptyCnt) s else s

/-- Every telegram that is not Empty clears the counter (R177). -/
def clearEmpty (s : State) : State := s.withTd { s.tn.td with emptyCnt := 0 }

/-- The light state of a Heartbeat noted, and its change announced (R179). -/
def noteLight (ls : Byte) (changed : Bool) (s : State) : State :=
  let s := s.withTd { s.tn.td with prevLight := ls, prevLightValid := true }
  if changed then s.emit (.lightChanged ls) else s

/-- `heartbeat()` (R179): the light state is the raw byte at offset 10. -/
def onHeartbeat (s : State) : State :=
  let ls := s.tn.td.byteAt 10
  let changed := s.tn.td.lightChanged ls
  onLight ls changed (noteLight ls changed (clearEmpty s))

/-- `carpassing()` from the timestamp on, for the car of a good digit (R176): bad nibble, then zero timestamp, then
the hand-over to the lap engine in the same step. -/
def onCarTelegram (c : CarIdx) (s : State) : Verdict :=
  match s.tn.td.badNibble with
  | some k => .drop (raise (.decodeNoise (.badNibble k)) s)
  | none =>
    if s.tn.td.telegramTs = 0 then .drop (raise (.decodeNoise (.zeroTimestamp c)) s)
    else onCarPassing c s.tn.td.telegramTs s

/-- `carpassing()` (R175). -/
def onCarPassingTelegram (s : State) : Verdict :=
  let s := clearEmpty s
  match carOfDigit (s.tn.td.byteAt 1) with
  | none => .drop (raise (.decodeNoise (.badCarDigit (s.tn.td.byteAt 1))) s)
  | some c => onCarTelegram c s

/-- The decode of the buffer, by the class of the byte at offset 1 (R173, R174). -/
def decodeTelegram (s : State) : Verdict :=
  match classify (s.tn.td.byteAt 1) with
  | .heartbeat => .step (onHeartbeat s)
  | .empty => .step (onEmpty s)
  | .carPassing => onCarPassingTelegram s

/-- `TD.DEC` (R173): the exchange closes and what the buffer holds is decoded. -/
def tdDec (s : State) : Verdict :=
  if s.tn.td.fatal then .drop s
  else if !s.tn.td.isOpen then .refuse .noExchangeOpen
  else decodeTelegram (s.withTd { s.tn.td with isOpen := false })

/-- The meaning of `TD.DEC`. -/
def execTdDec (s : State) : Host.Outcome State Fault Refusal := (tdDec s).outcome s

end Sys2Proof.Machine
end

