-- ==== Sys2Proof/Machine/TimestampComparator.lean ====
section
/-! DEFINITION. The comparator's stand-alone operations `TC.SUB`, `TC.CMP`
(spec/42_timestamp_comparator.md R205, R206). -/

namespace Sys2Proof.Machine

/-- `TC.SUB a, b` (R205). -/
def tcSub (a b : U32) (s : State) : Verdict :=
  if s.tn.td.fatal then .drop s
  else .step (s.withTn { s.tn with tc := { s.tn.tc with diff := wsub32 a b } })

/-- The meaning of `TC.SUB`. -/
def execTcSub (a b : U32) (s : State) : Host.Outcome State Fault Refusal := (tcSub a b s).outcome s

/-- `TC.CMP a, b` (R206). -/
def tcCmp (a b : U32) (s : State) : Verdict :=
  if s.tn.td.fatal then .drop s
  else .step (s.withTn { s.tn with tc := { diff := wsub32 a b, before := tsBefore a b } })

/-- The meaning of `TC.CMP`. -/
def execTcCmp (a b : U32) (s : State) : Host.Outcome State Fault Refusal := (tcCmp a b s).outcome s

end Sys2Proof.Machine
end

