-- ==== Sys2Proof/Machine/WirelessSync.lean ====
section
/-! DEFINITION. The cross-node wireless handler: `TN.LOOP`, `CH.DLV`, `CH.DROP`, `CN.SETSP`, `CN.FINACK`,
`CN.MAPSET`, `CN.MEASDONE` (spec/44_wireless_sync.md). -/

namespace Sys2Proof.Machine

/-! ## TN.LOOP -/

/-- `TN.LOOP` (R258): a LoopbackAck is sent. -/
def tnLoop (s : State) : Verdict :=
  if s.tn.td.fatal then .drop s else .step (tx .t2c 3 s)

/-- The meaning of `TN.LOOP`. -/
def execTnLoop (s : State) : Host.Outcome State Fault Refusal := (tnLoop s).outcome s

/-! ## Reception -/

/-- `POLICY_FIRST` as a Car Node state. -/
def firstState : FirstState → CarNodeState
  | .trackMapping => .trackMapping
  | .measurement => .measurement

/-- Whether a `RaceGoing` starts the node: it is in Idle, and where a stop must come first (R269's last words) the
status it replaces is `NoRaceGoing`. Idle with the status `RaceGoing` is what `CN.MEASDONE` leaves. DESIGN CHOICE
(log 30): which of the spec's two readings holds is a parameter. -/
def CarNode.starts (cn : CarNode) (restart : RestartRule) : Bool :=
  cn.state == .idle && (restart == .anyRaceGoing || cn.status == .noRaceGoing)

/-- The state a `RaceGoing` leads to (R261, R270, R269): when it starts the node, `Racing` with a map and
`POLICY_FIRST` without; otherwise the state is kept. -/
def CarNode.raceState (cn : CarNode) (cfg : Config) : CarNodeState :=
  if cn.starts cfg.restart then (if cn.mapComplete then .racing else firstState cfg.policyFirst) else cn.state

/-- `cn_rx(m)` (R259 to R263, R265): every message overwrites or sets, none counts. -/
def cnRx (m : CarMessage) (s : State) : State :=
  match m with
  | .status .noRaceGoing => s.withCn { s.cn with status := .noRaceGoing, state := .idle }
  | .status .raceGoing =>
    s.withCn { s.cn with status := .raceGoing, state := s.cn.raceState s.cfg }
  | .finishLine => s.withCn { s.cn with finish := true }
  | .loopbackAck => s.withCn { s.cn with loopback := true }
  | .reserved v => raise (.decodeNoise (.badWireValue v)) s

/-- `tn_rx(Setpoint(v))` (R264): kept, and driven only while the race-active path holds the actuator token; a halted
node drops it. -/
def tnRx (m : TimingMessage) (s : State) : Verdict :=
  match m with
  | .setpoint v =>
    if s.tn.td.fatal then .drop s
    else
      let s := s.withTn { s.tn with rxSp := v }
      if actuatorGranted s.tn.status then .step (s.withTn { s.tn with actOut := v })
      else .step (raise (.contention .actuator) s)

/-- `CH.DLV dir, v` (R255): only what is in flight arrives, one copy of it. -/
def chDlv (dir : Dir) (v : Byte) (s : State) : Verdict :=
  if v ∉ s.ch.inFlight dir then .refuse (.notInFlight dir v)
  else
    let s := s.withCh (s.ch.take dir v)
    match dir with
    | .t2c => .step (cnRx (decodeT2c v) s)
    | .c2t => tnRx (decodeC2t v) s

/-- The meaning of `CH.DLV`. -/
def execChDlv (dir : Dir) (v : Byte) (s : State) : Host.Outcome State Fault Refusal := (chDlv dir v s).outcome s

/-- `CH.DROP dir, v` (R256): one copy in flight is lost. -/
def chDrop (dir : Dir) (v : Byte) (s : State) : Verdict :=
  if v ∉ s.ch.inFlight dir then .refuse (.notInFlight dir v)
  else .step (s.withCh (s.ch.take dir v))

/-- The meaning of `CH.DROP`. -/
def execChDrop (dir : Dir) (v : Byte) (s : State) : Host.Outcome State Fault Refusal := (chDrop dir v s).outcome s

/-! ## The Car Node's operations -/

/-- A setpoint is sent only when it differs from the last one sent, or none was (R266). -/
def setpointSends (cn : CarNode) (v : Byte) : Bool := !cn.lastValid || cn.lastSent != v

/-- The setpoint transmitted and noted as the last one sent (R266). -/
def sendSetpoint (v : Byte) (s : State) : State :=
  let s := tx .c2t v s
  s.withCn { s.cn with lastSent := v, lastValid := true }

/-- `CN.SETSP v` (R266). -/
def cnSetsp (v : Byte) (s : State) : Verdict :=
  if setpointSends s.cn v then .step (sendSetpoint v s) else .drop s

/-- The meaning of `CN.SETSP`. -/
def execCnSetsp (v : Byte) (s : State) : Host.Outcome State Fault Refusal := (cnSetsp v s).outcome s

/-- `CN.FINACK` (R267). -/
def cnFinack (s : State) : Verdict := .step (s.withCn { s.cn with finish := false })

/-- The meaning of `CN.FINACK`. -/
def execCnFinack (s : State) : Host.Outcome State Fault Refusal := (cnFinack s).outcome s

/-- `CN.MEASDONE` (R269): the zero goes through the send-on-change rule, then the state is Idle. -/
def cnMeasdone (s : State) : Verdict :=
  if s.cn.state ≠ .measurement then .refuse .notMeasuring
  else
    let s := if setpointSends s.cn 0 then sendSetpoint 0 s else s
    .step (s.withCn { s.cn with state := .idle })

/-- The meaning of `CN.MEASDONE`. -/
def execCnMeasdone (s : State) : Host.Outcome State Fault Refusal := (cnMeasdone s).outcome s

/-- `CN.MAPSET b` (R268). -/
def cnMapset (b : Bool) (s : State) : Verdict := .step (s.withCn { s.cn with mapComplete := b })

/-- The meaning of `CN.MAPSET`. -/
def execCnMapset (b : Bool) (s : State) : Host.Outcome State Fault Refusal := (cnMapset b s).outcome s

end Sys2Proof.Machine
end

