-- ==== Sys2Proof/Machine/Dispatch.lean ====
section
/-! DEFINITION. The dispatch: one arm per operation of spec/30_encoding.md R102. -/

namespace Sys2Proof.Machine

def exec (i : Instr) (s : State) : Host.Outcome State Fault Refusal :=
  match i with
  | .rst dom => Sys2Proof.Machine.execRst dom s
  | .tnRestart => Sys2Proof.Machine.execTnRestart s
  | .etEdge u n dir ts => Sys2Proof.Machine.execEtEdge u n dir ts s
  | .etFire u ts => Sys2Proof.Machine.execEtFire u ts s
  | .etTake u => Sys2Proof.Machine.execEtTake u s
  | .ocServe => Sys2Proof.Machine.execOcServe s
  | .tdPoll => Sys2Proof.Machine.execTdPoll s
  | .tdRxb b => Sys2Proof.Machine.execTdRxb b s
  | .tdDec => Sys2Proof.Machine.execTdDec s
  | .lePass c ts => Sys2Proof.Machine.execLePass c ts s
  | .leLight ls changed => Sys2Proof.Machine.execLeLight ls changed s
  | .leRank => Sys2Proof.Machine.execLeRank s
  | .kaFire => Sys2Proof.Machine.execKaFire s
  | .tcSub a b => Sys2Proof.Machine.execTcSub a b s
  | .tcCmp a b => Sys2Proof.Machine.execTcCmp a b s
  | .chDlv dir v => Sys2Proof.Machine.execChDlv dir v s
  | .chDrop dir v => Sys2Proof.Machine.execChDrop dir v s
  | .cnSetsp v => Sys2Proof.Machine.execCnSetsp v s
  | .cnFinack => Sys2Proof.Machine.execCnFinack s
  | .cnMeasdone => Sys2Proof.Machine.execCnMeasdone s
  | .cnMapset b => Sys2Proof.Machine.execCnMapset b s
  | .tnLoop => Sys2Proof.Machine.execTnLoop s

end Sys2Proof.Machine
end

