-- ==== Sys2Proof/Machine/Step.lean ====
section
/-! DEFINITION. One step of the block: the environment presents its next event word (spec/10_state.md R24). -/

namespace Sys2Proof.Machine

/-- One step. With no event word left the block waits for its first input event (spec/10_state.md R52,
spec/70_reset_and_hazards.md R323) and nothing changes; an illegal word is refused by name (spec/30_encoding.md
R103); any other word is consumed and its operation runs. An operation that holds has not happened, and its
word is consumed (log 2). -/
def step (s : State) : Host.Outcome State Fault Refusal :=
  match s.fetch with
  | none => .next s
  | some (w, s') =>
    match decode w with
    | .error why => .refused (.illegalWord why)
    | .ok i => exec i s'

/-- The state whose next event word is the table word `w` (log 1). -/
def State.withFetchWord (s : State) (nbits w : Nat) : State := s.present (tableWord nbits w)

end Sys2Proof.Machine
end

