-- ==== Sys2Proof/Safety.lean ====
section
/-! DEFINITION. What claims speak of beyond one operation: the outcome of R9 an operation ends in, the Timing Node
operations the halt drops, and the invariants the rules keep. -/

namespace Sys2Proof.Machine

/-! ## Outcomes -/

/-- Which of the outcomes of spec/00_scope.md R9 an operation ends in; `exec` is its `Verdict.outcome`. -/
def verdict (i : Instr) (s : State) : Verdict :=
  match i with
  | .rst dom => rst dom s
  | .tnRestart => tnRestart s
  | .etEdge u n dir ts => etEdge u n dir ts s
  | .etFire u ts => etFire u ts s
  | .etTake u => etTake u s
  | .ocServe => ocServe s
  | .tdPoll => tdPoll s
  | .tdRxb b => tdRxb b s
  | .tdDec => tdDec s
  | .lePass c ts => lePass c ts s
  | .leLight ls changed => leLight ls changed s
  | .leRank => leRank s
  | .kaFire => kaFire s
  | .tcSub a b => tcSub a b s
  | .tcCmp a b => tcCmp a b s
  | .chDlv dir v => chDlv dir v s
  | .chDrop dir v => chDrop dir v s
  | .cnSetsp v => cnSetsp v s
  | .cnFinack => cnFinack s
  | .cnMeasdone => cnMeasdone s
  | .cnMapset b => cnMapset b s
  | .tnLoop => tnLoop s

/-- The Timing Node operations a halted node drops: the list of spec/60_exceptions.md R300. -/
def haltDrops : Instr → Bool
  | .etEdge .unit0 _ _ _ | .etFire .unit0 _ | .etTake .unit0 => true
  | .ocServe | .tdPoll | .tdRxb _ | .tdDec | .lePass _ _ | .leLight _ _ | .leRank | .kaFire => true
  | .tcSub _ _ | .tcCmp _ _ | .tnLoop => true
  | .etEdge .unit1 _ _ _ | .etFire .unit1 _ | .etTake .unit1 => false
  | .rst _ | .tnRestart | .chDlv _ _ | .chDrop _ _ | .cnSetsp _ | .cnFinack | .cnMeasdone | .cnMapset _ => false

/-! ## Invariants -/

/-- The sum of `hist[0..lap_count-1]` (spec/10_state.md R23). -/
def CarRecord.histSum (r : CarRecord) : Nat :=
  ((List.range r.lapCount.toNat).map fun i => (r.hist.read i).toNat).sum

/-- A record that has counted no passing holds no time (R52, R223). -/
def CarRecord.blank (r : CarRecord) : Bool :=
  r.lastTs == 0 && r.prevTs == 0 && r.lapTime == 0 && r.prevLapTime == 0 && r.improvement == 0

/-- The invariants of a CarRecord: the history's canonical form with nothing at or above `lap_count` (R53), and
R23: `lap_sum` is the sum of the history, its first entry is 0, a counted passing has a non-zero timestamp, and a
lap time comes from the two most recent timestamps. -/
def CarRecord.wf (r : CarRecord) : Bool :=
  r.hist.wf && (r.hist.all fun c => decide (c.1 < r.lapCount.toNat)) && r.lapSum == r.histSum &&
  r.hist.read 0 == 0 && (r.lapCount == 0 || r.lastTs != 0) && (r.lapCount != 0 || r.blank) &&
  (r.prevTs == 0 || r.lapTime == wsub32 r.lastTs r.prevTs)

/-- The invariants of the decoder: the buffer's canonical form with nothing at or above `idx` (R38), `idx` at most
20 and below 20 while reception goes on, and the empty counter at most 11, at 11 exactly in the halt (R30). -/
def Decoder.wf (td : Decoder) : Bool :=
  td.buf.wf && (td.buf.all fun c => decide (c.1 < td.idx)) && decide (td.idx ≤ bufLen) &&
  (td.isDone || decide (td.idx < bufLen)) && decide (td.emptyCnt ≤ 11) && (td.fatal == (td.emptyCnt == 11))

/-- A running timer expires `D[u]` ticks after the most recent edge (spec/40_event_timer.md R132, R134). -/
def EventTimer.wf {n : Nat} (t : EventTimer n) (delay : U32) : Bool :=
  !t.armed || t.deadline == wadd32 t.lastEdgeTs delay

/-- A side's register whose input is active has seen an activation edge (R142), and a history duration needs one
(R141). -/
def OpticalSide.wf (r : OpticalSide) (active : Bool) : Bool :=
  (!active || r.riseSeen) && (!r.hcurValid || r.riseSeen)

/-- An exact root is the root of a number that is not negative. -/
def exactRootWf : NumValue → Bool
  | .rat _ => true
  | .root radicand => decide (0 ≤ radicand)

/-- The winner registers are zero while no winner is valid (R32), and a variance is never negative (R217). -/
def TimingNode.winnerWf (tn : TimingNode) : Bool :=
  (tn.winnerValid || (tn.winnerCar == 0 && tn.winMean == 0 && tn.winSd == .rat 0)) && exactRootWf tn.winSd

/-- The interlock: while no race is going the actuator is at zero (R34). Nothing is said of a halted node (R340). -/
def TimingNode.interlocked (tn : TimingNode) : Bool :=
  tn.td.fatal || tn.status == .raceGoing || tn.actOut == 0

/-- The invariants of the Timing Node. -/
def TimingNode.wf (tn : TimingNode) (cfg : Config) : Bool :=
  tn.et.wf cfg.debounce0 && tn.td.wf && (carIndices.all fun c => tn.cars[c].wf) && tn.lapTarget != 0 && tn.winnerWf &&
  tn.interlocked

/-- The invariants of the Car Node: the timer, the sides, and a pending sample only with both sides valid
(R145, R147). -/
def CarNode.wf (cn : CarNode) (cfg : Config) : Bool :=
  cn.et.wf cfg.debounce1 && cn.opt.left.wf (cn.et.pin.getLsbD 0 == cfg.active1) &&
  cn.opt.right.wf (cn.et.pin.getLsbD 1 == cfg.active1) &&
  (!cn.et.ready || (cn.opt.left.val && cn.opt.right.val))

/-- The channel's canonical form, and only the values 0 to 3 toward the Car Node
(spec/30_encoding.md R99, spec/44_wireless_sync.md R253). -/
def Channel.wf (ch : Channel) : Bool :=
  ch.t2c.sorted && ch.c2t.sorted && ch.t2c.all fun v => decide (v ≤ 3)

/-- The invariants of the whole block, legal parameters among them. -/
def State.wf (s : State) : Bool :=
  s.cfg.legal && s.tn.wf s.cfg && s.cn.wf s.cfg && s.ch.wf

end Sys2Proof.Machine
end

