-- ==== Sys2Proof/Certificates/Slice0/Obligations.lean ====
section
/-! DEFINITION. The statements for the provers, from the numbered rules of spec/. A timestamp difference is written
out as `(a.toNat + 2 ^ 32 - b.toNat) % 2 ^ 32`, the formula of spec/42_timestamp_comparator.md R201. Where a
statement ends in `t = { s with ... }`, that equation is its frame: every register, flag, storage address, datagram,
log entry, parameter and waiting event word not named in it is as before. -/

open Sys2Proof Sys2Proof.Machine

/-! ## Event words -/

/-- Words of spec/95_test_vectors.md section 2.1, one or more of each family, decode to the operations they stand
for. -/
def Obligations.SpecWordsDecode : Prop :=
  decode 0x010200000000000000000000 = .ok (.rst .all) ∧
  decode 0x101101000000000000001F40 = .ok (.etEdge .unit1 1 true 8000) ∧
  decode 0x110000000000000000002AF8 = .ok (.etFire .unit0 11000) ∧
  decode 0x21003A000000000000000000 = .ok (.tdRxb 0x3A) ∧
  decode 0x300300000000000012345678 = .ok (.lePass 3 0x12345678) ∧
  decode 0x310107000000000000000000 = .ok (.leLight 0x07 true) ∧
  decode 0x41000000FFFFFFF000000005 = .ok (.tcCmp 0xFFFFFFF0 0x00000005) ∧
  decode 0x51012C000000000000000000 = .ok (.chDrop .c2t 44)

/-- Every well-formed operation is what its event word decodes to, at every value of every operand (R100 to
R104). -/
def Obligations.DecodeOfEncode : Prop :=
  ∀ i : Instr, i.wellFormed = true → decode (encode i) = .ok i

/-- A word has one meaning: what it decodes to is well formed, and its encoding is the word, bit for bit. -/
def Obligations.EncodeOfDecode : Prop :=
  ∀ (w : EventWord) (i : Instr), decode w = .ok i → i.wellFormed = true ∧ encode i = w

/-- R103: a word with an unlisted `OP`, a non-zero `Z` or unused field, a selector out of range, or a `B` that must
be 0 or 1 and is larger, is refused by name, by the decoder and by a step that meets it. -/
def Obligations.IllegalWordsRefused : Prop :=
  ∀ w : EventWord,
    let op := (opField w).toNat
    let sel := (selField w).toNat
    let b := (bField w).toNat
    let z := (zField w).toNat
    let a := (aField w).toNat
    let t := (tField w).toNat
    (op ∉ [0x01, 0x02, 0x10, 0x11, 0x12, 0x13, 0x20, 0x21, 0x22, 0x30, 0x31, 0x32, 0x33, 0x40, 0x41, 0x50, 0x51,
        0x52, 0x53, 0x54, 0x55, 0x56] ∨
      z ≠ 0 ∨
      (op ∈ [0x02, 0x13, 0x20, 0x22, 0x32, 0x33, 0x53, 0x54, 0x56] ∧ (sel ≠ 0 ∨ b ≠ 0 ∨ a ≠ 0 ∨ t ≠ 0)) ∨
      (op ∈ [0x01, 0x12] ∧ (b ≠ 0 ∨ a ≠ 0 ∨ t ≠ 0)) ∨
      (op ∈ [0x21, 0x52, 0x55] ∧ (sel ≠ 0 ∨ a ≠ 0 ∨ t ≠ 0)) ∨
      (op ∈ [0x31, 0x50, 0x51] ∧ (a ≠ 0 ∨ t ≠ 0)) ∨
      (op ∈ [0x11, 0x30] ∧ (b ≠ 0 ∨ a ≠ 0)) ∨
      (op = 0x10 ∧ a ≠ 0) ∨
      (op ∈ [0x40, 0x41] ∧ (sel ≠ 0 ∨ b ≠ 0)) ∨
      (op = 0x01 ∧ 2 < sel) ∨
      (op ∈ [0x10, 0x11, 0x12] ∧ 1 < sel / 16) ∨
      (op = 0x10 ∧ sel / 16 = 0 ∧ 3 ≤ sel % 16) ∨
      (op = 0x10 ∧ sel / 16 = 1 ∧ 2 ≤ sel % 16) ∨
      (op ∈ [0x11, 0x12] ∧ sel % 16 ≠ 0) ∨
      (op = 0x30 ∧ 3 < sel) ∨
      (op ∈ [0x31, 0x50, 0x51] ∧ 1 < sel) ∨
      (op ∈ [0x10, 0x55] ∧ 1 < b)) →
    ∃ why, decode w = .error why ∧
      ∀ (s : State) (ws : List EventWord), s.stimulus = w :: ws → step s = .refused (.illegalWord why)

/-- The decoder keeps to spec/opcode_table.json: a word it accepts has the fixed bits of the row of its mnemonic,
and no word has the fixed bits of two rows. -/
def Obligations.DecodeKeepsOpcodeTable : Prop :=
  (∀ (w : EventWord) (i : Instr), decode w = .ok i → ∃ r ∈ opcodeRows, r.mnemonic = i.mnemonic ∧ r.covers w = true) ∧
  opcodeRows.Pairwise fun r q => ∀ w : EventWord, ¬(r.covers w = true ∧ q.covers w = true)

/-- R100: a word is stored as 12 bytes, most significant first: byte `k` holds the bits from `88 - 8k` to `95 - 8k`;
decoding the stored bytes decodes the word and leaves the bytes after it. -/
def Obligations.StoredBytesDecode : Prop :=
  ∀ (w : EventWord) (rest : List Byte),
    (wordBytes w).length = 12 ∧
    (∀ k, k < 12 → (wordBytes w)[k]? = some (w.extractLsb' (88 - 8 * k) 8)) ∧
    decodeBytes (wordBytes w ++ rest) = (decode w).map fun i => (i, rest)

/-! ## A step -/

/-- A step consumes the next event word and runs exactly the operation it decodes to. -/
def Obligations.StepRunsDecodedWord : Prop :=
  ∀ (s : State) (w : EventWord) (ws : List EventWord) (i : Instr),
    s.stimulus = w :: ws → decode w = .ok i → i.wellFormed = true → step s = exec i { s with stimulus := ws }

/-- The model's choice (log 1): with no event word left the block waits and nothing changes. -/
def Obligations.StepWaitsWithoutWord : Prop :=
  ∀ s : State, s.stimulus = [] → step s = .next s

/-- No step takes anything out of the output log (spec/10_state.md R51) or changes a parameter
(spec/70_reset_and_hazards.md R324). That a step takes exactly one event word from the list, none when it is empty and
one also when its operation holds, is the model's choice (log 1, log 2) over the environment's list of spec/10_state.md
R24 and spec/20_memory.md R78. -/
def Obligations.StepOnlyAppendsToLog : Prop :=
  ∀ s t : State, step s = .next t →
    (∃ es, t.out = s.out ++ es) ∧ t.cfg = s.cfg ∧ t.stimulus = s.stimulus.tail

/-! ## EventTimer and operator controls -/

/-- R132 on unit 0, for a node that is not halted and an edge inside the running window: the level is held, the
timer starts or restarts and expires `D[0]` ticks after this edge. -/
def Obligations.EdgeRestartsTimerUnit0 : Prop :=
  ∀ (s : State) (i : Nat) (dir : Bool) (ts : U32), i < 3 → s.tn.td.fatal = false →
    (s.tn.et.armed = true →
      (ts.toNat + 2 ^ 32 - s.tn.et.lastEdgeTs.toNat) % 2 ^ 32 < s.cfg.debounce0.toNat) →
    ∃ t, exec (.etEdge .unit0 i dir ts) s = .next t ∧
      t.tn.et.pin.getLsbD i = dir ∧ (∀ j, j ≠ i → t.tn.et.pin.getLsbD j = s.tn.et.pin.getLsbD j) ∧
      t.tn.et.deadline.toNat = (ts.toNat + s.cfg.debounce0.toNat) % 2 ^ 32 ∧
      t = { s with tn := { s.tn with et := { s.tn.et with
        pin := t.tn.et.pin, lastEdgeTs := ts, armed := true, deadline := t.tn.et.deadline } } }

/-- R132 and R141 on unit 1, for an edge inside the running window that keeps the level or activates side `sd`: the
timer restarts; a changed level notes the pulse's start, and the history duration when a start was known. -/
def Obligations.EdgeActivatesUnit1 : Prop :=
  ∀ (s : State) (i : Nat) (dir : Bool) (ts : U32), i < 2 →
    (s.cn.et.armed = true →
      (ts.toNat + 2 ^ 32 - s.cn.et.lastEdgeTs.toNat) % 2 ^ 32 < s.cfg.debounce1.toNat) →
    (dir = s.cn.et.pin.getLsbD i ∨ dir = s.cfg.active1) →
    let sd : Side := if i = 0 then .left else .right
    let r := s.cn.opt.side sd
    ∃ t, exec (.etEdge .unit1 i dir ts) s = .next t ∧
      t.cn.et.pin.getLsbD i = dir ∧ (∀ j, j ≠ i → t.cn.et.pin.getLsbD j = s.cn.et.pin.getLsbD j) ∧
      t.cn.et.deadline.toNat = (ts.toNat + s.cfg.debounce1.toNat) % 2 ^ 32 ∧
      (dir = s.cn.et.pin.getLsbD i → t.cn.opt.side sd = r) ∧
      (dir ≠ s.cn.et.pin.getLsbD i →
        (t.cn.opt.side sd).hcur.toNat =
          (if r.riseSeen then (ts.toNat + 2 ^ 32 - r.riseTs.toNat) % 2 ^ 32 else r.hcur.toNat) ∧
        t.cn.opt.side sd = { r with
          riseSeen := true, riseTs := ts, hcur := (t.cn.opt.side sd).hcur, hcurValid := r.riseSeen || r.hcurValid }) ∧
      t = { s with cn := { s.cn with
        et := { s.cn.et with
          pin := t.cn.et.pin, lastEdgeTs := ts, armed := true, deadline := t.cn.et.deadline }
        opt := s.cn.opt.setSide sd (t.cn.opt.side sd) } }

/-- R132, R142 and R144 on unit 1, for an edge inside the running window that ends a pulse of side `sd`: the timer
restarts; a passing duration below `MIN_PASS` is only logged; otherwise a pending sample drops the pulse, and
without one it is captured. -/
def Obligations.EdgeEndsPulseUnit1 : Prop :=
  ∀ (s : State) (i : Nat) (dir : Bool) (ts : U32), i < 2 →
    (s.cn.et.armed = true →
      (ts.toNat + 2 ^ 32 - s.cn.et.lastEdgeTs.toNat) % 2 ^ 32 < s.cfg.debounce1.toNat) →
    dir ≠ s.cn.et.pin.getLsbD i → dir ≠ s.cfg.active1 →
    let sd : Side := if i = 0 then .left else .right
    let r := s.cn.opt.side sd
    let d := (ts.toNat + 2 ^ 32 - r.riseTs.toNat) % 2 ^ 32
    ∃ (t : State) (p : U32), p.toNat = d ∧ exec (.etEdge .unit1 i dir ts) s = .next t ∧
      t.cn.et.pin.getLsbD i = dir ∧ (∀ j, j ≠ i → t.cn.et.pin.getLsbD j = s.cn.et.pin.getLsbD j) ∧
      t.cn.et.deadline.toNat = (ts.toNat + s.cfg.debounce1.toNat) % 2 ^ 32 ∧
      t.cn.opt.side sd =
        (if d < s.cfg.minPass.toNat ∨ s.cn.et.ready = true then r
         else { r with val := true, arr := r.riseTs, pas := p, his := r.hcur, hisValid := r.hcurValid }) ∧
      t = { s with
        out := s.out ++ (if d < s.cfg.minPass.toNat then [.err (.sensorNoise sd p)] else [])
        cn := { s.cn with
          et := { s.cn.et with
            pin := t.cn.et.pin, lastEdgeTs := ts, armed := true, deadline := t.cn.et.deadline }
          opt := s.cn.opt.setSide sd (t.cn.opt.side sd) } }

/-- R133: an edge at or past the deadline of a running timer, an expiry with no timer running, and an expiry at
another tick than the deadline are refused; on unit 0 while the node is not halted. -/
def Obligations.IllTimedEventsRefused : Prop :=
  ∀ (s : State) (i : Nat) (dir : Bool) (ts : U32),
    (s.tn.td.fatal = false → i < 3 → s.tn.et.armed = true →
      s.cfg.debounce0.toNat ≤ (ts.toNat + 2 ^ 32 - s.tn.et.lastEdgeTs.toNat) % 2 ^ 32 →
      exec (.etEdge .unit0 i dir ts) s = .refused (.edgePastWindow .unit0)) ∧
    (i < 2 → s.cn.et.armed = true →
      s.cfg.debounce1.toNat ≤ (ts.toNat + 2 ^ 32 - s.cn.et.lastEdgeTs.toNat) % 2 ^ 32 →
      exec (.etEdge .unit1 i dir ts) s = .refused (.edgePastWindow .unit1)) ∧
    (s.tn.td.fatal = false → s.tn.et.armed = false →
      exec (.etFire .unit0 ts) s = .refused (.timerNotArmed .unit0)) ∧
    (s.cn.et.armed = false → exec (.etFire .unit1 ts) s = .refused (.timerNotArmed .unit1)) ∧
    (s.tn.td.fatal = false → s.tn.et.armed = true → ts ≠ s.tn.et.deadline →
      exec (.etFire .unit0 ts) s = .refused (.fireOffDeadline .unit0)) ∧
    (s.cn.et.armed = true → ts ≠ s.cn.et.deadline →
      exec (.etFire .unit1 ts) s = .refused (.fireOffDeadline .unit1))

/-- R135 to R137 on unit 0: the expiry stops the timer; with no sample pending it stores all levels and the
timestamp of the most recent edge and raises `ready`; a pending sample is kept. -/
def Obligations.FireStoresSampleUnit0 : Prop :=
  ∀ s : State, s.tn.td.fatal = false → s.tn.et.armed = true →
    ∃ t, exec (.etFire .unit0 s.tn.et.deadline) s = .next t ∧
      t = { s with tn := { s.tn with et :=
        (if s.tn.et.ready = true then { s.tn.et with armed := false }
         else { s.tn.et with
          armed := false, ready := true, smpLevels := s.tn.et.pin, smpTs := s.tn.et.lastEdgeTs }) } }

/-- R135 and R145 on unit 1: the expiry stops the timer; only with no sample pending and both sides valid does it
store the paired sample, with the skew left arrival minus right arrival, and raise `ready`. -/
def Obligations.FirePairsSensorsUnit1 : Prop :=
  ∀ s : State, s.cn.et.armed = true →
    ∃ t, exec (.etFire .unit1 s.cn.et.deadline) s = .next t ∧
      (¬(s.cn.et.ready = false ∧ s.cn.opt.left.val = true ∧ s.cn.opt.right.val = true) →
        t = { s with cn := { s.cn with et := { s.cn.et with armed := false } } }) ∧
      (s.cn.et.ready = false → s.cn.opt.left.val = true → s.cn.opt.right.val = true →
        t.cn.opt.smpSkew.toNat = (s.cn.opt.left.arr.toNat + 2 ^ 32 - s.cn.opt.right.arr.toNat) % 2 ^ 32 ∧
        t = { s with cn := { s.cn with
          et := { s.cn.et with
            armed := false, ready := true, smpLevels := s.cn.et.pin, smpTs := s.cn.et.lastEdgeTs }
          opt := {
            smpSkew := t.cn.opt.smpSkew
            left := { s.cn.opt.left with
              smpPas := s.cn.opt.left.pas, smpHis := s.cn.opt.left.his, smpHisValid := s.cn.opt.left.hisValid }
            right := { s.cn.opt.right with
              smpPas := s.cn.opt.right.pas, smpHis := s.cn.opt.right.his
              smpHisValid := s.cn.opt.right.hisValid } } } })

/-- R147: a take hands out the stored sample and lowers `ready` in one step; on unit 1 it also clears both valid
flags; a halted Timing Node drops it, and on a lowered signal it holds. -/
def Obligations.TakeHandsOutSample : Prop :=
  ∀ s : State,
    (s.tn.td.fatal = true → exec (.etTake .unit0) s = .next s) ∧
    (s.tn.td.fatal = false → s.tn.et.ready = false → verdict (.etTake .unit0) s = .hold) ∧
    (s.cn.et.ready = false → verdict (.etTake .unit1) s = .hold) ∧
    (s.tn.td.fatal = false → s.tn.et.ready = true →
      exec (.etTake .unit0) s = .next { s with
        out := s.out ++ [.taken0 s.tn.et.smpLevels s.tn.et.smpTs]
        tn := { s.tn with et := { s.tn.et with ready := false } } }) ∧
    (s.cn.et.ready = true →
      exec (.etTake .unit1) s = .next { s with
        out := s.out ++ [.taken1 s.cn.et.smpLevels s.cn.et.smpTs s.cn.opt.smpSkew
          s.cn.opt.left.smpPas s.cn.opt.right.smpPas s.cn.opt.left.smpHis s.cn.opt.left.smpHisValid
          s.cn.opt.right.smpHis s.cn.opt.right.smpHisValid]
        cn := { s.cn with
          et := { s.cn.et with ready := false }
          opt := { s.cn.opt with
            left := { s.cn.opt.left with val := false }, right := { s.cn.opt.right with val := false } } } })

/-- R148: a take, and the operator-control task, on a lowered signal hold: the operation has not happened and
nothing changes. That a hold goes on to an unchanged state is the model's choice (log 2). -/
def Obligations.TakeHoldsOnLoweredSignal : Prop :=
  ∀ s : State,
    (s.tn.td.fatal = false → s.tn.et.ready = false →
      verdict (.etTake .unit0) s = .hold ∧ exec (.etTake .unit0) s = .next s ∧
      verdict .ocServe s = .hold ∧ exec .ocServe s = .next s) ∧
    (s.cn.et.ready = false → verdict (.etTake .unit1) s = .hold ∧ exec (.etTake .unit1) s = .next s)

/-- R150: the operator-control task takes the sample and acts on the one pressed input of highest priority: start is
requested, or the lap target moves by one inside 1..255; a halted node drops it, and on a lowered signal it holds. -/
def Obligations.ServeActsOnHighestPriority : Prop :=
  ∀ s : State,
    (s.tn.td.fatal = true → exec .ocServe s = .next s) ∧
    (s.tn.td.fatal = false → s.tn.et.ready = false → verdict .ocServe s = .hold) ∧
    (s.tn.td.fatal = false → s.tn.et.ready = true →
      let levels := s.tn.et.smpLevels
      let pressedIn := fun i => levels.getLsbD i = s.cfg.active0
      ∃ t, exec .ocServe s = .next t ∧
        t.tn.lapTarget.toNat =
          (if pressedIn 0 then s.tn.lapTarget.toNat
           else if pressedIn 1 then min 255 (s.tn.lapTarget.toNat + 1)
           else if pressedIn 2 then max 1 (s.tn.lapTarget.toNat - 1)
           else s.tn.lapTarget.toNat) ∧
        t = { s with
          out := s.out ++ [.taken0 levels s.tn.et.smpTs] ++ (if pressedIn 0 then [.startReq] else [])
          tn := { s.tn with et := { s.tn.et with ready := false }, lapTarget := t.tn.lapTarget } })

/-- What R138 derives for unit 0 from R132, R135 and R136: however many edges it accepts with no sample pending, the one expiry admitted after them is `D[0]`
ticks after the last edge; it stores the levels as they stand at the expiry with the last edge's timestamp, and no
second expiry is admitted. -/
def Obligations.EdgesCoalesceIntoOneSample : Prop :=
  ∀ (edges : List (Nat × Bool × U32)) (last : Nat × Bool × U32) (s t : State),
    s.tn.td.fatal = false → s.tn.et.ready = false →
    (edges ++ [last]).foldlM (fun (s : State) e =>
      match exec (.etEdge .unit0 e.1 e.2.1 e.2.2) s with
      | .next t => some t
      | .fault _ => none
      | .refused _ => none) s = some t →
    t.tn.et.ready = false ∧
    (∀ ts, ts ≠ last.2.2 + s.cfg.debounce0 →
      exec (.etFire .unit0 ts) t = .refused (.fireOffDeadline .unit0)) ∧
    ∃ u, exec (.etFire .unit0 (last.2.2 + s.cfg.debounce0)) t = .next u ∧
      u.tn.et.ready = true ∧ u.tn.et.smpLevels = t.tn.et.pin ∧ u.tn.et.smpLevels.getLsbD last.1 = last.2.1 ∧
      u.tn.et.smpTs = last.2.2 ∧
      ∀ ts, exec (.etFire .unit0 ts) u = .refused (.timerNotArmed .unit0)

/-! ## Telegram decoder -/

/-- R171: a poll clears the whole buffer and the reception counters and opens the exchange; a halted node drops it,
and with an exchange open it is refused. -/
def Obligations.PollOpensExchange : Prop :=
  ∀ s : State,
    (s.tn.td.fatal = true → exec .tdPoll s = .next s) ∧
    (s.tn.td.fatal = false → s.tn.td.isOpen = true → exec .tdPoll s = .refused .exchangeOpen) ∧
    (s.tn.td.fatal = false → s.tn.td.isOpen = false →
      ∃ t, exec .tdPoll s = .next t ∧ (∀ a, t.tn.td.buf.read a = 0) ∧
        t = { s with tn := { s.tn with td := { s.tn.td with
          buf := t.tn.td.buf, idx := 0, isDone := false, isOpen := true } } })

/-- R172: while reception goes on, a byte is stored at the next free address and nowhere else, and reception is
complete with the end marker or the twentieth byte; after completion, and on a halted node, bytes are discarded; with
no exchange open they are refused. -/
def Obligations.ReceivedByteIsStored : Prop :=
  ∀ (s : State) (b : Byte),
    (s.tn.td.fatal = true → exec (.tdRxb b) s = .next s) ∧
    (s.tn.td.fatal = false → s.tn.td.isOpen = false → exec (.tdRxb b) s = .refused .noExchangeOpen) ∧
    (s.tn.td.fatal = false → s.tn.td.isOpen = true → s.tn.td.isDone = true → exec (.tdRxb b) s = .next s) ∧
    (s.tn.td.fatal = false → s.tn.td.isOpen = true → s.tn.td.isDone = false → s.tn.td.idx < 20 →
      ∃ t, exec (.tdRxb b) s = .next t ∧ t.tn.td.buf.read s.tn.td.idx = b ∧
        (∀ a, a ≠ s.tn.td.idx → t.tn.td.buf.read a = s.tn.td.buf.read a) ∧
        (t.tn.td.isDone = true ↔ b = 0x24 ∨ s.tn.td.idx + 1 = 20) ∧
        t = { s with tn := { s.tn with td := { s.tn.td with
          buf := t.tn.td.buf, idx := s.tn.td.idx + 1, isDone := t.tn.td.isDone } } })

/-- R171 to R173: on a node that is not halted, a poll with an exchange open, and a byte or a decode with none open,
are refused. -/
def Obligations.ExchangeOrderRefused : Prop :=
  ∀ (s : State) (b : Byte), s.tn.td.fatal = false →
    (s.tn.td.isOpen = true → exec .tdPoll s = .refused .exchangeOpen) ∧
    (s.tn.td.isOpen = false → exec (.tdRxb b) s = .refused .noExchangeOpen) ∧
    (s.tn.td.isOpen = false → exec .tdDec s = .refused .noExchangeOpen)

/-- R178 and R300, under the bound of R30: an Empty telegram counts one more; above ten it is logged and announced
and halts the node, and nothing else changes. -/
def Obligations.EmptyTelegramCounts : Prop :=
  ∀ s : State, s.tn.td.fatal = false → s.tn.td.isOpen = true → s.tn.td.emptyCnt.toNat ≤ 11 →
    s.tn.td.buf.read 1 = 0 →
    ∃ t, exec .tdDec s = .next t ∧ t.tn.td.emptyCnt.toNat = s.tn.td.emptyCnt.toNat + 1 ∧
      t = { s with
        out := s.out ++ (if 10 < s.tn.td.emptyCnt.toNat + 1
          then [.err (.linkSilence t.tn.td.emptyCnt), .fatalNotice] else [])
        tn := { s.tn with td := { s.tn.td with
          isOpen := false, emptyCnt := t.tn.td.emptyCnt, fatal := decide (10 < s.tn.td.emptyCnt.toNat + 1) } } }

/-- R179: a Heartbeat closes the exchange, clears the empty counter, notes its light state, the raw byte at offset
10, announces a change, and does what `LE.LIGHT` does, in the same step. -/
def Obligations.HeartbeatRunsLight : Prop :=
  ∀ s : State, s.tn.td.fatal = false → s.tn.td.isOpen = true → s.tn.td.buf.read 1 = 0x3A →
    let ls := s.tn.td.buf.read 10
    let changed := !s.tn.td.prevLightValid || s.tn.td.prevLight != ls
    ∃ t, exec .tdDec s = .next t ∧
      exec (.leLight ls changed) { s with
        out := s.out ++ (if changed then [.lightChanged ls] else [])
        tn := { s.tn with td := { s.tn.td with
          isOpen := false, emptyCnt := 0, prevLight := ls, prevLightValid := true } } } = .next t

/-- R63 and R95: eight nibble bytes in 0x30..0x3F assemble to the timestamp with the bytes most significant first and
in each byte the low nibble first. -/
def Obligations.TimestampNibbleLayout : Prop :=
  ∀ td : Decoder,
    let n := fun k => (td.buf.read k).toNat - 0x30
    (∀ k, 2 ≤ k → k ≤ 9 → 0x30 ≤ (td.buf.read k).toNat ∧ (td.buf.read k).toNat ≤ 0x3F) →
    td.telegramTs.toNat = n 3 * 2 ^ 28 + n 2 * 2 ^ 24 + n 5 * 2 ^ 20 + n 4 * 2 ^ 16 + n 7 * 2 ^ 12 + n 6 * 2 ^ 8 +
      n 9 * 2 ^ 4 + n 8

/-- R94, R175 and R176: a telegram of car `c` with eight nibble bytes and a timestamp that is not zero clears the
empty counter and does what `LE.PASS` does with that car and timestamp, in the same step. -/
def Obligations.CarTelegramRunsPass : Prop :=
  ∀ (s : State) (c : CarIdx) (ts : U32), s.tn.td.fatal = false → s.tn.td.isOpen = true →
    (s.tn.td.buf.read 1).toNat = 0x31 + c.val →
    (∀ k, 2 ≤ k → k ≤ 9 → 0x30 ≤ (s.tn.td.buf.read k).toNat ∧ (s.tn.td.buf.read k).toNat ≤ 0x3F) →
    (let n := fun k => (s.tn.td.buf.read k).toNat - 0x30
     ts.toNat = n 3 * 2 ^ 28 + n 2 * 2 ^ 24 + n 5 * 2 ^ 20 + n 4 * 2 ^ 16 + n 7 * 2 ^ 12 + n 6 * 2 ^ 8 + n 9 * 2 ^ 4 +
      n 8) →
    ts ≠ 0 →
    ∃ t, exec .tdDec s = .next t ∧
      exec (.lePass c ts) { s with tn := { s.tn with td := { s.tn.td with
        isOpen := false, emptyCnt := 0 } } } = .next t

/-- R175, R176 and R297: a bad car digit, then the first bad nibble byte, then a zero timestamp is logged; the
exchange closes, the empty counter is cleared, and nothing else changes. -/
def Obligations.BadCarTelegramDropped : Prop :=
  ∀ s : State, s.tn.td.fatal = false → s.tn.td.isOpen = true →
    let failed := fun e => exec .tdDec s = .next { s with
      out := s.out ++ [.err (.decodeNoise e)]
      tn := { s.tn with td := { s.tn.td with isOpen := false, emptyCnt := 0 } } }
    let nibbleByte := fun k => 0x30 ≤ (s.tn.td.buf.read k).toNat ∧ (s.tn.td.buf.read k).toNat ≤ 0x3F
    (s.tn.td.buf.read 1 ≠ 0x3A → s.tn.td.buf.read 1 ≠ 0 →
      ¬(0x31 ≤ (s.tn.td.buf.read 1).toNat ∧ (s.tn.td.buf.read 1).toNat ≤ 0x34) →
      failed (.badCarDigit (s.tn.td.buf.read 1))) ∧
    (∀ c : CarIdx, (s.tn.td.buf.read 1).toNat = 0x31 + c.val →
      (∀ k, 2 ≤ k → k ≤ 9 → ¬nibbleByte k → (∀ j, 2 ≤ j → j < k → nibbleByte j) → failed (.badNibble k)) ∧
      ((∀ k, 2 ≤ k → k ≤ 9 → s.tn.td.buf.read k = 0x30) → failed (.zeroTimestamp c)))

/-! ## Timestamp comparator -/

/-- The wrapping subtraction of R201, and the laws that R201 marks as its own derivation ("Laws, all immediate from the
definition"). -/
def Obligations.WrappingSubtractionLaws : Prop :=
  ∀ a b d : U32,
    (wsub32 a b).toNat = (a.toNat + 2 ^ 32 - b.toNat) % 2 ^ 32 ∧
    wsub32 a a = 0 ∧ wsub32 a 0 = a ∧ wsub32 (wadd32 b d) b = d ∧
    (wsub32 a b = 0 ↔ a = b) ∧ wsub32 b a = wsub32 0 (wsub32 a b)

/-- `ts_before` of R203 is the sign of the wrapped difference; by the laws R203 marks as its own derivation it orders
timestamps less than `2^31` apart whatever wrap lies between, and at `2^31` holds both ways. -/
def Obligations.TsBeforeHalfRange : Prop :=
  ∀ a d : U32,
    (∀ b : U32, tsBefore a b = true ↔ 2 ^ 31 ≤ (a.toNat + 2 ^ 32 - b.toNat) % 2 ^ 32) ∧
    tsBefore a a = false ∧
    (0 < d.toNat → d.toNat < 2 ^ 31 → tsBefore a (wadd32 a d) = true ∧ tsBefore (wadd32 a d) a = false) ∧
    (d.toNat = 2 ^ 31 → tsBefore a (wadd32 a d) = true ∧ tsBefore (wadd32 a d) a = true)

/-- R205: `TC.SUB` latches the wrapped difference and changes nothing else; a halted node drops it. -/
def Obligations.SubLatchesDifference : Prop :=
  ∀ (s : State) (a b : U32),
    (s.tn.td.fatal = true → exec (.tcSub a b) s = .next s) ∧
    (s.tn.td.fatal = false →
      ∃ t, exec (.tcSub a b) s = .next t ∧
        t.tn.tc.diff.toNat = (a.toNat + 2 ^ 32 - b.toNat) % 2 ^ 32 ∧
        t = { s with tn := { s.tn with tc := { s.tn.tc with diff := t.tn.tc.diff } } })

/-- R206: `TC.CMP` latches the wrapped difference and its sign and changes nothing else; a halted node drops it. -/
def Obligations.CmpLatchesDifferenceAndSign : Prop :=
  ∀ (s : State) (a b : U32),
    (s.tn.td.fatal = true → exec (.tcCmp a b) s = .next s) ∧
    (s.tn.td.fatal = false →
      ∃ t, exec (.tcCmp a b) s = .next t ∧
        t.tn.tc.diff.toNat = (a.toNat + 2 ^ 32 - b.toNat) % 2 ^ 32 ∧
        (t.tn.tc.before = true ↔ 2 ^ 31 ≤ (a.toNat + 2 ^ 32 - b.toNat) % 2 ^ 32) ∧
        t = { s with tn := { s.tn with tc := { diff := t.tn.tc.diff, before := t.tn.tc.before } } })

/-! ## Lap engine -/

/-- R212: a counted passing updates the record of its car, items 1 to 3, and no other record; beyond the records only
the winner registers, the actuator, the status, the channel and the log may change (R216, R220). -/
def Obligations.PassUpdatesRecord : Prop :=
  ∀ (s : State) (c : CarIdx) (ts : U32), s.tn.td.fatal = false → ts ≠ 0 → s.tn.cars[c].lapCount ≠ 255 →
    let r := s.tn.cars[c]
    ∃ t, exec (.lePass c ts) s = .next t ∧
      (let r' := t.tn.cars[c]
       r'.lastTs = ts ∧ r'.prevTs = r.lastTs ∧
       (r.lastTs = 0 → r'.lapTime = r.lapTime ∧ r'.prevLapTime = r.prevLapTime ∧ r'.improvement = r.improvement) ∧
       (r.lastTs ≠ 0 →
        r'.lapTime.toNat = (ts.toNat + 2 ^ 32 - r.lastTs.toNat) % 2 ^ 32 ∧ r'.prevLapTime = r.lapTime ∧
        (r.lapTime = 0 → r'.improvement = r.improvement) ∧
        (r.lapTime ≠ 0 → r'.improvement.toInt = (r'.lapTime.toNat : Int) - (r.lapTime.toNat : Int))) ∧
       r'.hist.read r.lapCount.toNat = r'.lapTime ∧
       (∀ a, a ≠ r.lapCount.toNat → r'.hist.read a = r.hist.read a) ∧
       r'.lapSum = r.lapSum + r'.lapTime.toNat ∧ r'.lapCount.toNat = r.lapCount.toNat + 1 ∧
       r'.position = r.position) ∧
      (∀ d : CarIdx, d ≠ c → t.tn.cars[d] = s.tn.cars[d]) ∧
      t = { s with
        out := t.out, ch := t.ch
        tn := { s.tn with
          cars := t.tn.cars, winnerValid := t.tn.winnerValid, winnerCar := t.tn.winnerCar
          winMean := t.tn.winMean, winSd := t.tn.winSd, actOut := t.tn.actOut, status := t.tn.status } }

/-- R220 and R216: a counted passing of car 0 sends the finish-line notification in every status; while a race is
going a count that reaches the lap target wins: winner declared, actuator zero, race over, status broadcast, in this
order; otherwise those registers keep their values. -/
def Obligations.PassNotifiesAndWins : Prop :=
  ∀ (s : State) (c : CarIdx) (ts : U32), s.tn.td.fatal = false → ts ≠ 0 → s.tn.cars[c].lapCount ≠ 255 →
    let won := s.tn.status = .raceGoing ∧ s.tn.lapTarget.toNat ≤ s.tn.cars[c].lapCount.toNat + 1
    ∃ t, exec (.lePass c ts) s = .next t ∧
      t.out = s.out ++ (if c = 0 then List.replicate s.cfg.resend (.tx .t2c 2) else []) ++
        (if won then .winner c :: List.replicate s.cfg.resend (.tx .t2c 0) else []) ∧
      (∀ (d : Dir) (x : Byte), List.count x (t.ch.inFlight d) = List.count x (s.ch.inFlight d) +
        (if d = .t2c ∧ x = 2 ∧ c = 0 then s.cfg.resend else 0) +
        (if d = .t2c ∧ x = 0 ∧ won then s.cfg.resend else 0)) ∧
      (won → t.tn.winnerValid = true ∧ t.tn.winnerCar = c ∧ t.tn.actOut = 0 ∧ t.tn.status = .noRaceGoing) ∧
      (¬won → t.tn.winnerValid = s.tn.winnerValid ∧ t.tn.winnerCar = s.tn.winnerCar ∧
        t.tn.winMean = s.tn.winMean ∧ t.tn.winSd = s.tn.winSd ∧ t.tn.actOut = s.tn.actOut ∧
        t.tn.status = s.tn.status)

/-- R217 and R218, for the lap target `T` at the winning passing and the winner's record after it: the mean is
`lap_sum / (T - 1)` and the standard deviation the root of the mean squared deviation of `hist[1..T-1]`, as exact
reals; for `T = 1` both are 0. That is in `NUM` = exact real. In any other representation (R219) each of the two is
exact where its steps have integer results below a bound, `2^53` for binary64, and elsewhere a free value of `lap_sum`
and `hist[1..T-1]` (the bounds and the free values: the model's choice, log 6). The worked example of R219 gives 4100 and
100 in every representation. -/
def Obligations.WinnerStatistics : Prop :=
  ∀ (s : State) (c : CarIdx) (ts : U32), s.tn.td.fatal = false → ts ≠ 0 → s.tn.cars[c].lapCount ≠ 255 →
    s.tn.status = .raceGoing → s.tn.lapTarget.toNat ≤ s.tn.cars[c].lapCount.toNat + 1 →
    let T := s.tn.lapTarget.toNat
    ∃ t, exec (.lePass c ts) s = .next t ∧
      (T = 1 → t.tn.winMean = 0 ∧ t.tn.winSd = .rat 0) ∧
      (2 ≤ T → s.cfg.num = .exactReal → ∃ v : Rat, t.tn.winSd = .root v ∧
        (t.tn.winMean : ℝ) = (t.tn.cars[c].lapSum : ℝ) / ((T : ℝ) - 1) ∧
        Real.sqrt (v : ℝ) =
          Real.sqrt ((∑ i ∈ Finset.Icc 1 (T - 1),
            (((t.tn.cars[c].hist.read i).toNat : ℝ) - (t.tn.winMean : ℝ)) ^ 2) / ((T : ℝ) - 1))) ∧
      (2 ≤ T → s.cfg.num ≠ .exactReal →
        let sum := t.tn.cars[c].lapSum
        let laps := (List.range (T - 1)).map fun i => t.tn.cars[c].hist.read (i + 1)
        let free := Config.roundedStats s.cfg.num sum laps
        let bound := if s.cfg.num = .binary64 then 2 ^ 53 else 2 ^ 15
        let squares := fun m : Nat => (laps.map fun h => ((h.toNat : Int) - m).natAbs ^ 2).sum
        let meanIs := fun m : Nat => sum < bound ∧ sum = m * (T - 1)
        let sdIs := fun d : Nat => ∃ m, meanIs m ∧ (∀ h ∈ laps, h.toNat < bound) ∧ squares m < bound ∧
          squares m = d ^ 2 * (T - 1)
        (∀ m : Nat, meanIs m → t.tn.winMean = m) ∧ ((∀ m, ¬meanIs m) → t.tn.winMean = free.1) ∧
        (∀ d : Nat, sdIs d → t.tn.winSd = .rat d) ∧ ((∀ d, ¬sdIs d) → t.tn.winSd = .rat free.2)) ∧
      (T = 3 → t.tn.cars[c].lapSum = 8200 → t.tn.cars[c].hist.read 1 = 4000 → t.tn.cars[c].hist.read 2 = 4200 →
        t.tn.winMean = 4100 ∧ t.tn.winSd = if s.cfg.num = .exactReal then .root 10000 else .rat 100)

/-- R211 and R215: a halted node drops a passing; a zero timestamp is only logged; a passing of a car with 255 counted
sets `lap_ovf`, is logged, and leaves every record as it was. -/
def Obligations.PassGuardsDrop : Prop :=
  ∀ (s : State) (c : CarIdx) (ts : U32),
    (s.tn.td.fatal = true → exec (.lePass c ts) s = .next s) ∧
    (s.tn.td.fatal = false →
      exec (.lePass c 0) s = .next { s with out := s.out ++ [.err (.decodeNoise (.zeroTimestamp c))] }) ∧
    (s.tn.td.fatal = false → ts ≠ 0 → s.tn.cars[c].lapCount = 255 →
      exec (.lePass c ts) s = .next { s with
        out := s.out ++ [.err (.lapOverflow c)], tn := { s.tn with lapOvf := true } })

/-- R221 to R226: the light class drives the race status only when the light changed; every stop zeroes the actuator;
Ready clears the records, the winner registers and `lap_ovf` and announces it; every class but Idle broadcasts the
status as it then is; a halted node drops it. -/
def Obligations.LightDrivesRaceStatus : Prop :=
  ∀ (s : State) (ls : Byte) (changed : Bool),
    (s.tn.td.fatal = true → exec (.leLight ls changed) s = .next s) ∧
    (s.tn.td.fatal = false →
      let k := s.cfg.lightClass ls
      let stops := changed = true ∧ (k = .ready ∨ k = .countdown ∨ k = .earlyStart)
      let clears := changed = true ∧ k = .ready
      ∃ t, exec (.leLight ls changed) s = .next t ∧
        t.tn.status = (if changed = true ∧ k = .allClear then .raceGoing else if stops then .noRaceGoing
          else s.tn.status) ∧
        t.tn.actOut = (if stops then 0 else s.tn.actOut) ∧
        (clears → (∀ c : CarIdx, t.tn.cars[c] = CarRecord.reset) ∧ t.tn.winnerValid = false ∧ t.tn.winnerCar = 0 ∧
          t.tn.winMean = 0 ∧ t.tn.winSd = .rat 0 ∧ t.tn.lapOvf = false) ∧
        (¬clears → t.tn.cars = s.tn.cars ∧ t.tn.winnerValid = s.tn.winnerValid ∧ t.tn.winnerCar = s.tn.winnerCar ∧
          t.tn.winMean = s.tn.winMean ∧ t.tn.winSd = s.tn.winSd ∧ t.tn.lapOvf = s.tn.lapOvf) ∧
        t.out = s.out ++ (if clears then [.readyAnn] else []) ++
          (if k = .idle then []
           else List.replicate s.cfg.resend (.tx .t2c (if t.tn.status = .raceGoing then 1 else 0))) ∧
        (∀ (d : Dir) (x : Byte), List.count x (t.ch.inFlight d) = List.count x (s.ch.inFlight d) +
          (if d = .t2c ∧ k ≠ .idle ∧ x = (if t.tn.status = .raceGoing then 1 else 0) then s.cfg.resend else 0)) ∧
        t = { s with
          out := t.out, ch := t.ch
          tn := { s.tn with
            cars := t.tn.cars, winnerValid := t.tn.winnerValid, winnerCar := t.tn.winnerCar
            winMean := t.tn.winMean, winSd := t.tn.winSd, lapOvf := t.tn.lapOvf
            actOut := t.tn.actOut, status := t.tn.status } })

/-- R230: every car's position is one more than the number of cars ahead of it: more laps, then the earlier last
passing, then the lower index; nothing else changes; a halted node drops it. -/
def Obligations.RankCountsCarsAhead : Prop :=
  ∀ s : State,
    (s.tn.td.fatal = true → exec .leRank s = .next s) ∧
    (s.tn.td.fatal = false →
      let lc := fun x : CarIdx => s.tn.cars[x].lapCount.toNat
      let before := fun a b : U32 => 2 ^ 31 ≤ (a.toNat + 2 ^ 32 - b.toNat) % 2 ^ 32
      let earlier := fun d c : CarIdx => 0 < lc d ∧ before s.tn.cars[d].lastTs s.tn.cars[c].lastTs ∧
        ¬before s.tn.cars[c].lastTs s.tn.cars[d].lastTs
      let ahead := fun d c : CarIdx => lc c < lc d ∨ (lc d = lc c ∧ earlier d c) ∨
        (lc d = lc c ∧ ¬earlier d c ∧ ¬earlier c d ∧ d < c)
      ∃ t, exec .leRank s = .next t ∧
        (∀ c : CarIdx, t.tn.cars[c] = { s.tn.cars[c] with position := t.tn.cars[c].position } ∧
          t.tn.cars[c].position.toNat = 1 + Set.ncard { d : CarIdx | d ≠ c ∧ ahead d c }) ∧
        t = { s with tn := { s.tn with cars := t.tn.cars } })

/-- R230, its corner case: when the last timestamps of the cars with a counted passing lie within `2^31` of one
another, no two cars get the same position. -/
def Obligations.RankPositionsDistinct : Prop :=
  ∀ (s t : State) (base : U32), s.tn.td.fatal = false →
    (∀ c : CarIdx, s.tn.cars[c].lapCount ≠ 0 →
      (s.tn.cars[c].lastTs.toNat + 2 ^ 32 - base.toNat) % 2 ^ 32 < 2 ^ 31) →
    exec .leRank s = .next t →
    ∀ c d : CarIdx, c ≠ d → t.tn.cars[c].position ≠ t.tn.cars[d].position

/-- R233: the keepalive pulses while a race is going and is contention otherwise; only the log changes; a halted node
drops it. -/
def Obligations.KeepaliveNeedsToken : Prop :=
  ∀ s : State,
    (s.tn.td.fatal = true → exec .kaFire s = .next s) ∧
    (s.tn.td.fatal = false → exec .kaFire s = .next { s with
      out := s.out ++ [if s.tn.status = .raceGoing then .kaPulse else .err (.contention .actuator)] })

/-! ## Wireless handler -/

/-- R258, with R252: `TN.LOOP` puts `RESEND` copies of the byte 3 in flight toward the Car Node, each logged, and
changes nothing else; a halted node drops it. -/
def Obligations.LoopSendsAck : Prop :=
  ∀ s : State,
    (s.tn.td.fatal = true → exec .tnLoop s = .next s) ∧
    (s.tn.td.fatal = false →
      ∃ t, exec .tnLoop s = .next t ∧
        (∀ (d : Dir) (x : Byte), List.count x (t.ch.inFlight d) = List.count x (s.ch.inFlight d) +
          (if d = .t2c ∧ x = 3 then s.cfg.resend else 0)) ∧
        t = { s with ch := t.ch, out := s.out ++ List.replicate s.cfg.resend (.tx .t2c 3) })

/-- R255 and R260 to R265 toward the Car Node: one copy of the byte in flight is consumed and the Car Node acts on
its value: 0 stops, 1 starts from Idle, 2 and 3 set their flags, every other value is only logged. In Idle with the
status `RaceGoing`, as `CN.MEASDONE` leaves the node, R261 and R270 start it and R269's last words do not: that clause
holds of either reading by the parameter `cfg.restart`, the model's choice (log 30). -/
def Obligations.DeliveryDrivesCarNode : Prop :=
  ∀ (s : State) (v : Byte), v ∈ s.ch.t2c →
    ∃ t, exec (.chDlv .t2c v) s = .next t ∧
      (∀ (d : Dir) (x : Byte), List.count x (t.ch.inFlight d) =
        List.count x (s.ch.inFlight d) - (if d = .t2c ∧ x = v then 1 else 0)) ∧
      (v.toNat = 0 → t = { s with ch := t.ch, cn := { s.cn with status := .noRaceGoing, state := .idle } }) ∧
      (v.toNat = 1 → t = { s with ch := t.ch, cn := { s.cn with
        status := .raceGoing
        state := (if s.cn.state = .idle ∧ (s.cfg.restart = .anyRaceGoing ∨ s.cn.status = .noRaceGoing) then
            (if s.cn.mapComplete then .racing
             else if s.cfg.policyFirst = .trackMapping then .trackMapping else .measurement)
          else s.cn.state) } }) ∧
      (v.toNat = 2 → t = { s with ch := t.ch, cn := { s.cn with finish := true } }) ∧
      (v.toNat = 3 → t = { s with ch := t.ch, cn := { s.cn with loopback := true } }) ∧
      (4 ≤ v.toNat → t = { s with ch := t.ch, out := s.out ++ [.err (.decodeNoise (.badWireValue v))] })

/-- R255 and R264 toward the Timing Node: one copy in flight is consumed; a halted node drops it; otherwise the byte
is kept, and drives the actuator while a race is going and is contention when none is. -/
def Obligations.DeliveryDrivesActuator : Prop :=
  ∀ (s : State) (v : Byte), v ∈ s.ch.c2t →
    ∃ t, exec (.chDlv .c2t v) s = .next t ∧
      (∀ (d : Dir) (x : Byte), List.count x (t.ch.inFlight d) =
        List.count x (s.ch.inFlight d) - (if d = .c2t ∧ x = v then 1 else 0)) ∧
      (s.tn.td.fatal = true → t = { s with ch := t.ch }) ∧
      (s.tn.td.fatal = false → s.tn.status = .raceGoing →
        t = { s with ch := t.ch, tn := { s.tn with rxSp := v, actOut := v } }) ∧
      (s.tn.td.fatal = false → s.tn.status = .noRaceGoing →
        t = { s with
          ch := t.ch, tn := { s.tn with rxSp := v }, out := s.out ++ [.err (.contention .actuator)] })

/-- R256: a lost datagram is one copy in flight less, and nothing else changes; only what is in flight can be lost. -/
def Obligations.DropLosesOneCopy : Prop :=
  ∀ (s : State) (dir : Dir) (v : Byte),
    (v ∉ s.ch.inFlight dir → exec (.chDrop dir v) s = .refused (.notInFlight dir v)) ∧
    (v ∈ s.ch.inFlight dir →
      ∃ t, exec (.chDrop dir v) s = .next t ∧
        (∀ (d : Dir) (x : Byte), List.count x (t.ch.inFlight d) =
          List.count x (s.ch.inFlight d) - (if d = dir ∧ x = v then 1 else 0)) ∧
        t = { s with ch := t.ch })

/-- R255 and R256: only what is in flight can arrive or be lost. -/
def Obligations.OnlyInFlightArrives : Prop :=
  ∀ (s : State) (dir : Dir) (v : Byte), v ∉ s.ch.inFlight dir →
    exec (.chDlv dir v) s = .refused (.notInFlight dir v) ∧ exec (.chDrop dir v) s = .refused (.notInFlight dir v)

/-- R266: a setpoint is transmitted and noted when none was sent before or it differs from the last one sent;
otherwise nothing changes. -/
def Obligations.SetpointSentOnChange : Prop :=
  ∀ (s : State) (v : Byte),
    (s.cn.lastValid = false ∨ s.cn.lastSent ≠ v →
      ∃ t, exec (.cnSetsp v) s = .next t ∧
        (∀ (d : Dir) (x : Byte), List.count x (t.ch.inFlight d) = List.count x (s.ch.inFlight d) +
          (if d = .c2t ∧ x = v then s.cfg.resend else 0)) ∧
        t = { s with
          ch := t.ch, out := s.out ++ List.replicate s.cfg.resend (.tx .c2t v)
          cn := { s.cn with lastSent := v, lastValid := true } }) ∧
    (s.cn.lastValid = true → s.cn.lastSent = v → exec (.cnSetsp v) s = .next s)

/-- R267 and R268: the finish-line flag is cleared, and the map flag written, with nothing else changed. -/
def Obligations.CarNodeFlagWrites : Prop :=
  ∀ (s : State) (b : Bool),
    exec .cnFinack s = .next { s with cn := { s.cn with finish := false } } ∧
    exec (.cnMapset b) s = .next { s with cn := { s.cn with mapComplete := b } }

/-- R269: the end of a measurement sends the zero setpoint through send-on-change and returns to Idle, the race
status kept; outside Measurement it is refused. Where a stop must come first (R269's last words, one of the two
readings of the model's choice, log 30), a node left with the status `RaceGoing` stays in Idle on a `RaceGoing` alone,
and a `NoRaceGoing` followed by a `RaceGoing` starts it; in the other reading a `RaceGoing` alone does. -/
def Obligations.MeasurementEndsInIdle : Prop :=
  ∀ s : State,
    (s.cn.state = .measurement →
      let sends := s.cn.lastValid = false ∨ s.cn.lastSent ≠ 0
      ∃ t, exec .cnMeasdone s = .next t ∧
        (∀ (d : Dir) (x : Byte), List.count x (t.ch.inFlight d) = List.count x (s.ch.inFlight d) +
          (if d = .c2t ∧ x = 0 ∧ sends then s.cfg.resend else 0)) ∧
        t = { s with
          ch := t.ch
          out := s.out ++ (if sends then List.replicate s.cfg.resend (.tx .c2t 0) else [])
          cn := { s.cn with lastSent := 0, lastValid := true, state := .idle } } ∧
        (s.cn.status = .raceGoing → 1 ∈ t.ch.t2c →
          ∃ u, exec (.chDlv .t2c 1) t = .next u ∧ (u.cn.state = .idle ↔ s.cfg.restart = .stopFirst)) ∧
        (0 ∈ t.ch.t2c → 1 ∈ t.ch.t2c →
          ∃ u v, exec (.chDlv .t2c 0) t = .next u ∧ exec (.chDlv .t2c 1) u = .next v ∧ v.cn.state ≠ .idle)) ∧
    (s.cn.state ≠ .measurement → exec .cnMeasdone s = .refused .notMeasuring)

/-- The receive rules are idempotent, as R74 derives ("Every receive rule of this spec is idempotent"): a second
delivery of the same byte leaves both nodes as the first left them (the log, which no rule reads, may gain an
entry). -/
def Obligations.SecondDeliveryChangesNothing : Prop :=
  ∀ (s t u : State) (dir : Dir) (v : Byte), exec (.chDlv dir v) s = .next t → exec (.chDlv dir v) t = .next u →
    u.tn = t.tn ∧ u.cn = t.cn

/-! ## The halt, reset, and rules about the whole block -/

/-- R300: on a halted Timing Node every one of its operations is dropped with no state change and no output. -/
def Obligations.HaltedNodeDropsOperations : Prop :=
  ∀ (s : State) (i : Instr), s.tn.td.fatal = true → i.wellFormed = true → haltDrops i = true → exec i s = .next s

/-- R300 and R301: only an Empty telegram decoded on a node that has counted ten or more halts it, and only a restart
or a reset of its domain ends the halt. -/
def Obligations.OnlyLinkSilenceHalts : Prop :=
  ∀ (s t : State) (i : Instr), exec i s = .next t →
    (s.tn.td.fatal = false → t.tn.td.fatal = true →
      i = .tdDec ∧ s.tn.td.buf.read 1 = 0 ∧ 10 ≤ s.tn.td.emptyCnt.toNat) ∧
    (s.tn.td.fatal = true → t.tn.td.fatal = false → i = .tnRestart ∨ i = .rst .tn ∨ i = .rst .all)

/-- R301: a restart resets the Timing Node and logs it, on a halted node only. -/
def Obligations.RestartResetsHaltedNode : Prop :=
  ∀ s : State,
    (s.tn.td.fatal = true → exec .tnRestart s = .next { s with
      tn := (State.resetWith s.cfg).tn, out := s.out ++ [.reset .tn] }) ∧
    (s.tn.td.fatal = false → exec .tnRestart s = .refused .notHalted)

/-- R320 to R322: a reset sets every piece of state of its domain to the reset value, logs it, and touches nothing
else; only the whole-block reset empties the channel. -/
def Obligations.ResetCoversItsDomain : Prop :=
  ∀ s : State,
    let r := State.resetWith s.cfg
    exec (.rst .tn) s = .next { s with tn := r.tn, out := s.out ++ [.reset .tn] } ∧
    exec (.rst .cn) s = .next { s with cn := r.cn, out := s.out ++ [.reset .cn] } ∧
    exec (.rst .all) s = .next { s with tn := r.tn, cn := r.cn, ch := r.ch, out := s.out ++ [.reset .all] }

/-- R52: the value of every register after reset, for any parameters. -/
def Obligations.ResetValues : Prop :=
  ∀ cfg : Config,
    let s := State.resetWith cfg
    (∀ i, i < 3 → s.tn.et.pin.getLsbD i = !cfg.active0) ∧ (∀ i, i < 2 → s.cn.et.pin.getLsbD i = !cfg.active1) ∧
    (∀ c : CarIdx, let r := s.tn.cars[c]
      r.lastTs = 0 ∧ r.prevTs = 0 ∧ r.lapTime = 0 ∧ r.prevLapTime = 0 ∧ r.improvement = 0 ∧ r.lapCount = 0 ∧
      (∀ a, r.hist.read a = 0) ∧ r.lapSum = 0 ∧ r.position = 0) ∧
    (∀ a, s.tn.td.buf.read a = 0) ∧
    s.tn = { s.tn with
      et := { s.tn.et with
        armed := false, deadline := 0, lastEdgeTs := 0, ready := false, smpLevels := 0, smpTs := 0 }
      td := { s.tn.td with
        idx := 0, isDone := false, isOpen := false, emptyCnt := 0, fatal := false, prevLight := 0
        prevLightValid := false }
      tc := { diff := 0, before := false }
      status := .noRaceGoing, lapTarget := cfg.lapTargetReset, winnerValid := false, winnerCar := 0, winMean := 0
      winSd := .rat 0, actOut := 0, lapOvf := false, rxSp := 0 } ∧
    s.cn = {
      et := { s.cn.et with
        armed := false, deadline := 0, lastEdgeTs := 0, ready := false, smpLevels := 0, smpTs := 0 }
      opt := {
        left := {
          riseSeen := false, riseTs := 0, hcur := 0, hcurValid := false, val := false, arr := 0, pas := 0, his := 0
          hisValid := false, smpPas := 0, smpHis := 0, smpHisValid := false }
        right := {
          riseSeen := false, riseTs := 0, hcur := 0, hcurValid := false, val := false, arr := 0, pas := 0, his := 0
          hisValid := false, smpPas := 0, smpHis := 0, smpHisValid := false }
        smpSkew := 0 }
      status := .noRaceGoing, state := .idle, finish := false, loopback := false, lastSent := 0
      lastValid := false, mapComplete := false } ∧
    (∀ d : Dir, s.ch.inFlight d = []) ∧ s.out = []

/-- The invariants of Safety.lean hold after reset with any legal parameters. -/
def Obligations.InvariantHoldsAtReset : Prop :=
  ∀ cfg : Config, cfg.legal = true → (State.resetWith cfg).wf = true

/-- Every step keeps the invariants of Safety.lean. These follow from the rules: the record invariants (R23), the
decoder's bounds (R30, R38), the lap target's range (R28), the winner registers at zero while no winner is valid (R32),
the interlock outside the halt (R34), the timers (R134), the optical sides (R142) and the pairing of the sensors (R145,
R147). These are the model's choices: the canonical forms of the buffer and the histories (log 9) and of the bytes in
flight (log 10), an exact deviation as the root of a number that is not negative (log 6), and the parameters in the
state (log 4, log 20). That only 0 to 3 are in flight toward the Car Node (R99, R253) rests on the channel of R257,
PRESUMED (log 11). -/
def Obligations.StepKeepsInvariant : Prop :=
  ∀ s t : State, s.wf = true → step s = .next t → t.wf = true

/-- R61: no operation reaches an address outside the spaces of R60: under the invariants no step faults. -/
def Obligations.NoStepFaults : Prop :=
  ∀ (s : State) (f : Fault), s.wf = true → step s ≠ .fault f

/-- R20 and R304: an operation of one node neither reads nor writes the other: with any other state of the other
node it ends the same way, and leaves that node as it is. -/
def Obligations.NodesAreIsolated : Prop :=
  ∀ (s : State) (i : Instr),
    (i.node = .timing → ∀ cn : CarNode,
      match exec i s with
      | .next t => t.cn = s.cn ∧ exec i { s with cn := cn } = .next { t with cn := cn }
      | .fault f => exec i { s with cn := cn } = .fault f
      | .refused r => exec i { s with cn := cn } = .refused r) ∧
    (i.node = .car → ∀ tn : TimingNode,
      match exec i s with
      | .next t => t.tn = s.tn ∧ exec i { s with tn := tn } = .next { t with tn := tn }
      | .fault f => exec i { s with tn := tn } = .fault f
      | .refused r => exec i { s with tn := tn } = .refused r)

/-- R294: only `ET.TAKE` and `OC.SERVE` hold, and no operation in interrupt context does. -/
def Obligations.OnlyTakesHold : Prop :=
  ∀ (s : State) (i : Instr), exec i s = (verdict i s).outcome s ∧
    (verdict i s = .hold → i.context = .task ∧ ((∃ u, i = .etTake u) ∨ i = .ocServe))

/-- R22: a CarRecord changes only by a passing of its car (`LE.PASS`, or a telegram with its digit), which keeps the
position; by the ranking, which writes the position alone; by a changed light of class Ready (`LE.LIGHT`, or a
Heartbeat); or by a reset of the node. -/
def Obligations.RecordWriters : Prop :=
  ∀ (s t : State) (i : Instr) (c : CarIdx), exec i s = .next t → t.tn.cars[c] ≠ s.tn.cars[c] →
    (((∃ ts, i = .lePass c ts) ∨ (i = .tdDec ∧ (s.tn.td.buf.read 1).toNat = 0x31 + c.val)) ∧
      t.tn.cars[c].position = s.tn.cars[c].position) ∨
    (∃ ls, i = .leLight ls true ∧ s.cfg.lightClass ls = .ready) ∨
    (i = .tdDec ∧ s.tn.td.buf.read 1 = 0x3A ∧ s.cfg.lightClass (s.tn.td.buf.read 10) = .ready ∧
      (s.tn.td.prevLightValid = false ∨ s.tn.td.prevLight ≠ s.tn.td.buf.read 10)) ∨
    (i = .leRank ∧ t.tn.cars[c] = { s.tn.cars[c] with position := t.tn.cars[c].position }) ∨
    i = .tnRestart ∨ i = .rst .tn ∨ i = .rst .all

/-- R222 and R27: a race starts only on a changed light of class AllClear, told by `LE.LIGHT` or by a Heartbeat. -/
def Obligations.RaceStartsOnlyOnAllClear : Prop :=
  ∀ (s t : State) (i : Instr), exec i s = .next t → s.tn.status = .noRaceGoing → t.tn.status = .raceGoing →
    (∃ ls, i = .leLight ls true ∧ s.cfg.lightClass ls = .allClear) ∨
    (i = .tdDec ∧ s.tn.td.buf.read 1 = 0x3A ∧ s.cfg.lightClass (s.tn.td.buf.read 10) = .allClear ∧
      (s.tn.td.prevLightValid = false ∨ s.tn.td.prevLight ≠ s.tn.td.buf.read 10))
end

