-- ==== Sys2Proof/Laws/Bag.lean ====
section
/-! SUPPORT. The multisets of bytes in flight: how many copies there are after an insertion or a removal, and that
both keep the list sorted. -/

namespace Sys2Proof.Machine

theorem Bag.mem_insert {v x : Byte} {l : Bag} : x ∈ Bag.insert v l ↔ x = v ∨ x ∈ l := by
  induction l with
  | nil => simp [Bag.insert]
  | cons y l ih =>
    simp only [Bag.insert]
    split
    · simp
    · simp only [List.mem_cons, ih]; tauto

theorem Bag.mem_of_mem_remove {v x : Byte} {l : Bag} (h : x ∈ Bag.remove v l) : x ∈ l := by
  induction l with
  | nil => simp [Bag.remove] at h
  | cons y l ih =>
    simp only [Bag.remove] at h
    split at h
    · simp [h]
    · rcases List.mem_cons.1 h with h | h
      · simp [h]
      · simp [ih h]

/-- An insertion adds one copy of the byte and touches no other. -/
theorem Bag.count_insert (v x : Byte) (l : Bag) :
    List.count x (Bag.insert v l) = List.count x l + if x = v then 1 else 0 := by
  induction l with
  | nil => by_cases h : x = v <;> simp [Bag.insert, h, Ne.symm]
  | cons y l ih =>
    simp only [Bag.insert]
    split
    · simp only [List.count_cons, beq_iff_eq, @eq_comm _ v x]
    · simp only [List.count_cons, ih, beq_iff_eq]; omega

/-- A removal takes one copy of the byte, if there is one, and touches no other. -/
theorem Bag.count_remove (v x : Byte) (l : Bag) :
    List.count x (Bag.remove v l) = List.count x l - if x = v then 1 else 0 := by
  induction l with
  | nil => simp [Bag.remove]
  | cons y l ih =>
    simp only [Bag.remove]
    split
    · rename_i h; subst h; simp only [List.count_cons, beq_iff_eq, @eq_comm _ y x]; split <;> omega
    · rename_i h
      simp only [List.count_cons, ih, beq_iff_eq]
      by_cases hx : x = v
      · subst hx; simp [h]
      · simp [hx]

theorem Bag.sorted_cons {x : Byte} {l : Bag} :
    Bag.sorted (x :: l) = true ↔ (∀ y ∈ l, x ≤ y) ∧ Bag.sorted l = true := by
  induction l generalizing x with
  | nil => simp [Bag.sorted]
  | cons y l ih =>
    simp only [Bag.sorted, Bool.and_eq_true, decide_eq_true_eq, List.mem_cons, forall_eq_or_imp]
    constructor
    · rintro ⟨h, hs⟩
      exact ⟨⟨h, fun z hz => BitVec.le_trans h ((ih.1 hs).1 z hz)⟩, hs⟩
    · rintro ⟨⟨h, _⟩, hs⟩
      exact ⟨h, hs⟩

theorem Bag.sorted_insert {v : Byte} {l : Bag} (h : Bag.sorted l = true) : Bag.sorted (Bag.insert v l) = true := by
  induction l with
  | nil => rfl
  | cons y l ih =>
    have hy := Bag.sorted_cons.1 h
    simp only [Bag.insert]
    split
    · rename_i hv
      refine Bag.sorted_cons.2 ⟨fun z hz => ?_, h⟩
      rcases List.mem_cons.1 hz with hz | hz
      · exact hz ▸ hv
      · exact BitVec.le_trans hv (hy.1 z hz)
    · rename_i hv
      refine Bag.sorted_cons.2 ⟨fun z hz => ?_, ih hy.2⟩
      rcases Bag.mem_insert.1 hz with hz | hz
      · subst hz; exact (BitVec.le_total y z).resolve_right hv
      · exact hy.1 z hz

theorem Bag.sorted_remove {v : Byte} {l : Bag} (h : Bag.sorted l = true) : Bag.sorted (Bag.remove v l) = true := by
  induction l with
  | nil => rfl
  | cons y l ih =>
    have hy := Bag.sorted_cons.1 h
    simp only [Bag.remove]
    split
    · exact hy.2
    · exact Bag.sorted_cons.2 ⟨fun z hz => hy.1 z (Bag.mem_of_mem_remove hz), ih hy.2⟩

/-- Sorted lists with the same number of copies of every byte are the same data. -/
theorem Bag.ext_of_sorted {l k : Bag} (hl : Bag.sorted l = true) (hk : Bag.sorted k = true)
    (h : ∀ x, List.count x l = List.count x k) : l = k := by
  have pw : ∀ {m : Bag}, Bag.sorted m = true → m.Pairwise (· ≤ ·) := by
    intro m
    induction m with
    | nil => simp
    | cons x m ih =>
      intro hm
      have := Bag.sorted_cons.1 hm
      exact List.pairwise_cons.2 ⟨this.1, ih this.2⟩
  exact (List.perm_iff_count.2 h).eq_of_pairwise (fun a b _ _ h1 h2 => BitVec.le_antisymm h1 h2) (pw hl) (pw hk)

end Sys2Proof.Machine
end

