-- ==== Sys2Proof/Laws/Encoding.lean ====
section
/-! SUPPORT. The fields of a packed word, and that a word with `Z` zero is the pack of its fields. -/

namespace Sys2Proof

section
variable (op sel b : Byte) (a t : U32)

theorem getLsbD_packWord (i : Nat) : (packWord op sel b a t).getLsbD i =
    if i < 32 then t.getLsbD i
    else if i < 64 then a.getLsbD (i - 32)
    else if i < 72 then false
    else if i < 80 then b.getLsbD (i - 72)
    else if i < 88 then sel.getLsbD (i - 80)
    else op.getLsbD (i - 88) := by
  simp only [packWord, BitVec.getLsbD_append, Nat.sub_sub]
  repeat' split
  all_goals first | rfl | omega | simp

@[simp] theorem opField_packWord : opField (packWord op sel b a t) = op := by
  apply BitVec.eq_of_getLsbD_eq
  intro i hi
  simp only [opField, BitVec.getLsbD_extractLsb', getLsbD_packWord, hi, decide_true, Bool.true_and]
  rw [if_neg, if_neg, if_neg, if_neg, if_neg, Nat.add_sub_cancel_left] <;> omega

@[simp] theorem selField_packWord : selField (packWord op sel b a t) = sel := by
  apply BitVec.eq_of_getLsbD_eq
  intro i hi
  simp only [selField, BitVec.getLsbD_extractLsb', getLsbD_packWord, hi, decide_true, Bool.true_and]
  rw [if_neg, if_neg, if_neg, if_neg, if_pos, Nat.add_sub_cancel_left] <;> omega

@[simp] theorem bField_packWord : bField (packWord op sel b a t) = b := by
  apply BitVec.eq_of_getLsbD_eq
  intro i hi
  simp only [bField, BitVec.getLsbD_extractLsb', getLsbD_packWord, hi, decide_true, Bool.true_and]
  rw [if_neg, if_neg, if_neg, if_pos, Nat.add_sub_cancel_left] <;> omega

@[simp] theorem zField_packWord : zField (packWord op sel b a t) = 0 := by
  apply BitVec.eq_of_getLsbD_eq
  intro i hi
  simp only [zField, BitVec.getLsbD_extractLsb', getLsbD_packWord, hi, decide_true, Bool.true_and]
  rw [if_neg, if_neg, if_pos] <;> first | omega | simp

@[simp] theorem aField_packWord : aField (packWord op sel b a t) = a := by
  apply BitVec.eq_of_getLsbD_eq
  intro i hi
  simp only [aField, BitVec.getLsbD_extractLsb', getLsbD_packWord, hi, decide_true, Bool.true_and]
  rw [if_neg, if_pos, Nat.add_sub_cancel_left] <;> omega

@[simp] theorem tField_packWord : tField (packWord op sel b a t) = t := by
  apply BitVec.eq_of_getLsbD_eq
  intro i hi
  simp only [tField, BitVec.getLsbD_extractLsb', getLsbD_packWord, hi, decide_true, Bool.true_and, Nat.zero_add,
    if_true]

end

/-- A word whose `Z` is zero is the pack of its fields. -/
theorem packWord_fields (w : EventWord) (h : zField w = 0) :
    packWord (opField w) (selField w) (bField w) (aField w) (tField w) = w := by
  apply BitVec.eq_of_getLsbD_eq
  intro i hi
  have hz : ∀ j, j < 8 → w.getLsbD (64 + j) = false := by
    intro j hj
    have e := congrArg (fun z : Byte => z.getLsbD j) h
    simpa [zField, hj] using e
  simp only [getLsbD_packWord, opField, selField, bField, aField, tField, BitVec.getLsbD_extractLsb']
  repeat' split
  · simp_all
  · have : i - 32 < 32 := by omega
    simp [this, show 32 + (i - 32) = i by omega]
  · have e := hz (i - 64) (by omega)
    rw [show 64 + (i - 64) = i by omega] at e
    exact e.symm
  · have : i - 72 < 8 := by omega
    simp [this, show 72 + (i - 72) = i by omega]
  · have : i - 80 < 8 := by omega
    simp [this, show 80 + (i - 80) = i by omega]
  · have : i - 88 < 8 := by omega
    simp [this, show 88 + (i - 88) = i by omega]

theorem getLsbD_unitSel (u : TimerUnit) (i j : Nat) :
    (unitSel u i).getLsbD j = if j < 4 then (BitVec.ofNat 4 i).getLsbD j else u.code.getLsbD (j - 4) := by
  have e := BitVec.getLsbD_append (x := u.code) (y := BitVec.ofNat 4 i) (i := j)
  unfold unitSel
  exact e.trans (by split <;> rfl)

/-- The unit of an EventTimer selector. -/
theorem unitSel_unit (u : TimerUnit) (i : Nat) : (unitSel u i).extractLsb' 4 4 = u.code := by
  apply BitVec.eq_of_getLsbD_eq
  intro j hj
  rw [BitVec.getLsbD_extractLsb', getLsbD_unitSel, if_neg (by omega), Nat.add_sub_cancel_left]
  simp [hj]

/-- The input of an EventTimer selector. -/
theorem unitSel_input (u : TimerUnit) (i : Nat) (h : i < 16) : ((unitSel u i).extractLsb' 0 4).toNat = i := by
  have e : (unitSel u i).extractLsb' 0 4 = BitVec.ofNat 4 i := by
    apply BitVec.eq_of_getLsbD_eq
    intro j hj
    rw [BitVec.getLsbD_extractLsb', getLsbD_unitSel, Nat.zero_add, if_pos hj]
    simp [hj]
  rw [e]; simp; omega

/-- The car selector reads back. -/
theorem readCar_code (op : Byte) (c : CarIdx) : readCar op (BitVec.ofNat 8 c.val) = .ok c := by
  have h : (BitVec.ofNat 8 c.val).toNat = c.val := by simp; omega
  have hc : (BitVec.ofNat 8 c.val).toNat < 4 := by omega
  rw [readCar, dif_pos hc]
  exact congrArg Except.ok (Fin.ext h)

end Sys2Proof
end

