-- ==== Sys2Proof/Laws/Memory.lean ====
section
/-! SUPPORT. What a read of the sparse storage gives after a write, and that every write keeps the canonical
form. -/

namespace Sys2Proof.Machine

variable {w : Nat}

@[simp] theorem Mem.read_nil (a : Nat) : Mem.read ([] : Mem w) a = 0 := rfl

theorem Mem.read_cons (c : Nat × BitVec w) (m : Mem w) (a : Nat) :
    Mem.read (c :: m) a = if c.1 = a then c.2 else Mem.read m a := rfl

/-- Dropping the cells of one address leaves the other addresses alone. -/
theorem Mem.read_filter_ne (m : Mem w) (a b : Nat) (h : b ≠ a) :
    Mem.read (m.filter fun c => c.1 != a) b = Mem.read m b := by
  induction m with
  | nil => rfl
  | cons c m ih =>
    by_cases hc : c.1 = a
    · simp [hc, ih, Mem.read_cons]
      intro e; exact absurd e.symm h
    · simp [hc, ih, Mem.read_cons]

/-- After dropping the cells of an address it reads zero. -/
theorem Mem.read_filter_self (m : Mem w) (a : Nat) : Mem.read (m.filter fun c => c.1 != a) a = 0 := by
  induction m with
  | nil => rfl
  | cons c m ih => by_cases hc : c.1 = a <;> simp [hc, ih, Mem.read_cons]

theorem Mem.read_insertCell_ne (m : Mem w) (a b : Nat) (v : BitVec w) (h : b ≠ a) :
    Mem.read (Mem.insertCell a v m) b = Mem.read m b := by
  induction m with
  | nil => simp [Mem.insertCell, Mem.read_cons, Ne.symm h]
  | cons c m ih =>
    simp only [Mem.insertCell]
    split <;> simp [Mem.read_cons, ih, Ne.symm h]

theorem Mem.read_insertCell_self (m : Mem w) (a : Nat) (v : BitVec w) (h : ∀ c ∈ m, c.1 ≠ a) :
    Mem.read (Mem.insertCell a v m) a = v := by
  induction m with
  | nil => simp [Mem.insertCell, Mem.read_cons]
  | cons c m ih =>
    simp only [Mem.insertCell]
    split
    · simp [Mem.read_cons]
    · simp [Mem.read_cons, h c (by simp), ih fun d hd => h d (by simp [hd])]

/-- A read after a write to the same address gives the element written. -/
@[simp] theorem Mem.read_write_self (m : Mem w) (a : Nat) (v : BitVec w) : (m.write a v).read a = v := by
  unfold Mem.write
  split
  · rename_i h; rw [Mem.read_filter_self, h]
  · apply Mem.read_insertCell_self
    intro c hc; simpa using (List.mem_filter.1 hc).2

/-- A write leaves every other address alone. -/
theorem Mem.read_write_ne (m : Mem w) (a b : Nat) (v : BitVec w) (h : b ≠ a) : (m.write a v).read b = m.read b := by
  unfold Mem.write
  split
  · exact Mem.read_filter_ne m a b h
  · rw [Mem.read_insertCell_ne _ _ _ _ h, Mem.read_filter_ne m a b h]

/-- What any address reads after a write. -/
theorem Mem.read_write (m : Mem w) (a b : Nat) (v : BitVec w) :
    (m.write a v).read b = if b = a then v else m.read b := by
  by_cases h : b = a
  · simp [h]
  · simp [h, Mem.read_write_ne m a b v h]

/-! ## The canonical form -/

theorem Mem.wfFrom_mono {m : Mem w} {lo hi : Nat} (h : Mem.wfFrom hi m = true) (hl : lo ≤ hi) :
    Mem.wfFrom lo m = true := by
  cases m with
  | nil => rfl
  | cons c m =>
    simp only [Mem.wfFrom, Bool.and_eq_true, decide_eq_true_eq] at h ⊢
    exact ⟨⟨by omega, h.1.2⟩, h.2⟩

theorem Mem.wfFrom_filter (p : Nat × BitVec w → Bool) {m : Mem w} :
    ∀ {lo : Nat}, Mem.wfFrom lo m = true → Mem.wfFrom lo (m.filter p) = true := by
  induction m with
  | nil => intro lo h; exact h
  | cons c m ih =>
    intro lo h
    simp only [Mem.wfFrom, Bool.and_eq_true, decide_eq_true_eq] at h
    by_cases hp : p c = true
    · simp only [List.filter_cons, hp, if_true, Mem.wfFrom, Bool.and_eq_true, decide_eq_true_eq]
      exact ⟨h.1, ih h.2⟩
    · simp only [List.filter_cons, hp]
      exact Mem.wfFrom_mono (ih h.2) (by omega)

theorem Mem.wfFrom_insertCell {a : Nat} {v : BitVec w} (hv : v ≠ 0) {m : Mem w} :
    ∀ {lo : Nat}, lo ≤ a → Mem.wfFrom lo m = true → (∀ c ∈ m, c.1 ≠ a) →
      Mem.wfFrom lo (Mem.insertCell a v m) = true := by
  induction m with
  | nil => intro lo hl _ _; simpa [Mem.insertCell, Mem.wfFrom, hl] using hv
  | cons c m ih =>
    intro lo hl h hn
    have hc := hn c (by simp)
    simp only [Mem.wfFrom, Bool.and_eq_true, decide_eq_true_eq] at h
    simp only [Mem.insertCell]
    split
    · rename_i hlt
      simp only [Mem.wfFrom, Bool.and_eq_true, decide_eq_true_eq]
      exact ⟨⟨hl, by simpa using hv⟩, ⟨by omega, h.1.2⟩, h.2⟩
    · rename_i hlt
      simp only [Mem.wfFrom, Bool.and_eq_true, decide_eq_true_eq]
      exact ⟨h.1, ih (by omega) h.2 fun d hd => hn d (by simp [hd])⟩

/-- The empty memory, every memory's reset contents, has the canonical form. -/
theorem Mem.nil_wf : Mem.wf ([] : Mem w) = true := rfl

/-- Every write keeps the canonical form. -/
theorem Mem.write_wf {m : Mem w} (a : Nat) (v : BitVec w) (h : m.wf = true) : (m.write a v).wf = true := by
  unfold Mem.write
  split
  · exact Mem.wfFrom_filter _ h
  · rename_i hv
    refine Mem.wfFrom_insertCell hv (Nat.zero_le a) (Mem.wfFrom_filter _ h) ?_
    intro c hc; simpa using (List.mem_filter.1 hc).2

theorem Mem.mem_insertCell {m : Mem w} {a : Nat} {v : BitVec w} {c : Nat × BitVec w}
    (h : c ∈ Mem.insertCell a v m) : c = (a, v) ∨ c ∈ m := by
  induction m with
  | nil => simpa [Mem.insertCell] using h
  | cons d m ih =>
    simp only [Mem.insertCell] at h
    split at h
    · simpa using h
    · rcases List.mem_cons.1 h with h | h
      · simp [h]
      · rcases ih h with h | h <;> simp [h]

/-- A cell after a write is the one written or one from before. -/
theorem Mem.mem_write {m : Mem w} {a : Nat} {v : BitVec w} {c : Nat × BitVec w} (h : c ∈ m.write a v) :
    c = (a, v) ∨ c ∈ m := by
  unfold Mem.write at h
  split at h
  · exact .inr (List.mem_filter.1 h).1
  · rcases Mem.mem_insertCell h with h | h
    · exact .inl h
    · exact .inr (List.mem_filter.1 h).1

/-- An address no cell has reads zero. -/
theorem Mem.read_eq_zero {m : Mem w} {a : Nat} (h : ∀ c ∈ m, c.1 ≠ a) : Mem.read m a = 0 := by
  induction m with
  | nil => rfl
  | cons c m ih => simp [Mem.read_cons, h c (by simp), ih fun d hd => h d (by simp [hd])]

/-- A canonical memory lists nothing below its bound. -/
theorem Mem.le_of_wfFrom {m : Mem w} : ∀ {lo : Nat}, Mem.wfFrom lo m = true → ∀ c ∈ m, lo ≤ c.1 := by
  induction m with
  | nil => simp
  | cons d m ih =>
    intro lo h c hc
    simp only [Mem.wfFrom, Bool.and_eq_true, decide_eq_true_eq] at h
    rcases List.mem_cons.1 hc with hc | hc
    · exact hc ▸ h.1.1
    · have := ih h.2 c hc; omega

/-- An address below a canonical memory's bound reads zero. -/
theorem Mem.read_below {m : Mem w} {lo a : Nat} (h : Mem.wfFrom lo m = true) (ha : a < lo) : Mem.read m a = 0 :=
  Mem.read_eq_zero fun c hc => by have := Mem.le_of_wfFrom h c hc; omega

/-- Two canonical memories that read the same everywhere are the same data. -/
theorem Mem.ext_of_wf {m : Mem w} : ∀ {n : Mem w} {lo : Nat}, Mem.wfFrom lo m = true → Mem.wfFrom lo n = true →
    (∀ a, Mem.read m a = Mem.read n a) → m = n := by
  induction m with
  | nil =>
    intro n lo _ hn h
    cases n with
    | nil => rfl
    | cons d n =>
      simp only [Mem.wfFrom, Bool.and_eq_true, decide_eq_true_eq, bne_iff_ne] at hn
      exact absurd (by simpa [Mem.read_cons] using (h d.1).symm) hn.1.2
  | cons c m ih =>
    intro n lo hm hn h
    cases n with
    | nil =>
      simp only [Mem.wfFrom, Bool.and_eq_true, decide_eq_true_eq, bne_iff_ne] at hm
      exact absurd (by simpa [Mem.read_cons] using h c.1) hm.1.2
    | cons d n =>
      simp only [Mem.wfFrom, Bool.and_eq_true, decide_eq_true_eq, bne_iff_ne] at hm hn
      have hadr : c.1 = d.1 := by
        rcases Nat.lt_trichotomy c.1 d.1 with hlt | heq | hgt
        · have e := h c.1
          rw [Mem.read_cons, Mem.read_cons, if_pos rfl, if_neg (Nat.ne_of_gt hlt),
            Mem.read_below hn.2 (by omega)] at e
          exact absurd e hm.1.2
        · exact heq
        · have e := h d.1
          rw [Mem.read_cons, Mem.read_cons, if_pos rfl, if_neg (Nat.ne_of_gt hgt),
            Mem.read_below hm.2 (by omega)] at e
          exact absurd e.symm hn.1.2
      have hcd : c = d := Prod.ext hadr (by simpa [Mem.read_cons, hadr] using h c.1)
      subst hcd
      congr 1
      refine ih hm.2 hn.2 fun a => ?_
      by_cases ha : c.1 = a
      · subst ha; rw [Mem.read_below hm.2 (by omega), Mem.read_below hn.2 (by omega)]
      · simpa [Mem.read_cons, ha] using h a

end Sys2Proof.Machine
end

