-- ==== Sys2Proof/Laws/State.lean ====
section
/-! SUPPORT. One lemma per field per named update of the state, each true by rfl, so that no later proof unfolds a
record update. -/

namespace Sys2Proof.Machine

variable (s : State)

@[simp] theorem State.withTn_tn (tn : TimingNode) : (s.withTn tn).tn = tn := rfl
@[simp] theorem State.withTn_cn (tn : TimingNode) : (s.withTn tn).cn = s.cn := rfl
@[simp] theorem State.withTn_ch (tn : TimingNode) : (s.withTn tn).ch = s.ch := rfl
@[simp] theorem State.withTn_out (tn : TimingNode) : (s.withTn tn).out = s.out := rfl
@[simp] theorem State.withTn_cfg (tn : TimingNode) : (s.withTn tn).cfg = s.cfg := rfl
@[simp] theorem State.withTn_stimulus (tn : TimingNode) : (s.withTn tn).stimulus = s.stimulus := rfl

@[simp] theorem State.withCn_tn (cn : CarNode) : (s.withCn cn).tn = s.tn := rfl
@[simp] theorem State.withCn_cn (cn : CarNode) : (s.withCn cn).cn = cn := rfl
@[simp] theorem State.withCn_ch (cn : CarNode) : (s.withCn cn).ch = s.ch := rfl
@[simp] theorem State.withCn_out (cn : CarNode) : (s.withCn cn).out = s.out := rfl
@[simp] theorem State.withCn_cfg (cn : CarNode) : (s.withCn cn).cfg = s.cfg := rfl
@[simp] theorem State.withCn_stimulus (cn : CarNode) : (s.withCn cn).stimulus = s.stimulus := rfl

@[simp] theorem State.withCh_tn (ch : Channel) : (s.withCh ch).tn = s.tn := rfl
@[simp] theorem State.withCh_cn (ch : Channel) : (s.withCh ch).cn = s.cn := rfl
@[simp] theorem State.withCh_ch (ch : Channel) : (s.withCh ch).ch = ch := rfl
@[simp] theorem State.withCh_out (ch : Channel) : (s.withCh ch).out = s.out := rfl
@[simp] theorem State.withCh_cfg (ch : Channel) : (s.withCh ch).cfg = s.cfg := rfl
@[simp] theorem State.withCh_stimulus (ch : Channel) : (s.withCh ch).stimulus = s.stimulus := rfl

@[simp] theorem State.withStimulus_tn (ws : List EventWord) : (s.withStimulus ws).tn = s.tn := rfl
@[simp] theorem State.withStimulus_cn (ws : List EventWord) : (s.withStimulus ws).cn = s.cn := rfl
@[simp] theorem State.withStimulus_ch (ws : List EventWord) : (s.withStimulus ws).ch = s.ch := rfl
@[simp] theorem State.withStimulus_out (ws : List EventWord) : (s.withStimulus ws).out = s.out := rfl
@[simp] theorem State.withStimulus_cfg (ws : List EventWord) : (s.withStimulus ws).cfg = s.cfg := rfl
@[simp] theorem State.withStimulus_stimulus (ws : List EventWord) : (s.withStimulus ws).stimulus = ws := rfl

@[simp] theorem State.emit_tn (o : OutEvent) : (s.emit o).tn = s.tn := rfl
@[simp] theorem State.emit_cn (o : OutEvent) : (s.emit o).cn = s.cn := rfl
@[simp] theorem State.emit_ch (o : OutEvent) : (s.emit o).ch = s.ch := rfl
@[simp] theorem State.emit_out (o : OutEvent) : (s.emit o).out = s.out ++ [o] := rfl
@[simp] theorem State.emit_cfg (o : OutEvent) : (s.emit o).cfg = s.cfg := rfl
@[simp] theorem State.emit_stimulus (o : OutEvent) : (s.emit o).stimulus = s.stimulus := rfl

@[simp] theorem State.withTd_tn (td : Decoder) : (s.withTd td).tn = { s.tn with td := td } := rfl
@[simp] theorem State.withTd_cn (td : Decoder) : (s.withTd td).cn = s.cn := rfl
@[simp] theorem State.withTd_ch (td : Decoder) : (s.withTd td).ch = s.ch := rfl
@[simp] theorem State.withTd_out (td : Decoder) : (s.withTd td).out = s.out := rfl
@[simp] theorem State.withTd_cfg (td : Decoder) : (s.withTd td).cfg = s.cfg := rfl
@[simp] theorem State.withTd_stimulus (td : Decoder) : (s.withTd td).stimulus = s.stimulus := rfl

@[simp] theorem State.withCar_tn (c : CarIdx) (r : CarRecord) : (s.withCar c r).tn = { s.tn with cars := s.tn.cars.set c r } := rfl
@[simp] theorem State.withCar_cn (c : CarIdx) (r : CarRecord) : (s.withCar c r).cn = s.cn := rfl
@[simp] theorem State.withCar_ch (c : CarIdx) (r : CarRecord) : (s.withCar c r).ch = s.ch := rfl
@[simp] theorem State.withCar_out (c : CarIdx) (r : CarRecord) : (s.withCar c r).out = s.out := rfl
@[simp] theorem State.withCar_cfg (c : CarIdx) (r : CarRecord) : (s.withCar c r).cfg = s.cfg := rfl
@[simp] theorem State.withCar_stimulus (c : CarIdx) (r : CarRecord) : (s.withCar c r).stimulus = s.stimulus := rfl

@[simp] theorem State.withTn_self : s.withTn s.tn = s := rfl
@[simp] theorem State.withCn_self : s.withCn s.cn = s := rfl
@[simp] theorem State.withTn_withTn (a b : TimingNode) : (s.withTn a).withTn b = s.withTn b := rfl
@[simp] theorem State.withCn_withCn (a b : CarNode) : (s.withCn a).withCn b = s.withCn b := rfl

/-- Two states with equal parts are equal. -/
theorem State.ext_parts {s t : State} (h1 : s.tn = t.tn) (h2 : s.cn = t.cn) (h3 : s.ch = t.ch) (h4 : s.out = t.out)
    (h5 : s.cfg = t.cfg) (h6 : s.stimulus = t.stimulus) : s = t := by
  cases s; cases t; simp_all

/-! ## Outcomes -/

@[simp] theorem Verdict.outcome_step (t : State) : (Verdict.step t).outcome s = .next t := rfl
@[simp] theorem Verdict.outcome_drop (t : State) : (Verdict.drop t).outcome s = .next t := rfl
@[simp] theorem Verdict.outcome_hold : Verdict.hold.outcome s = .next s := rfl
@[simp] theorem Verdict.outcome_refuse (r : Refusal) : (Verdict.refuse r).outcome s = .refused r := rfl
@[simp] theorem Verdict.outcome_fault (f : Fault) : (Verdict.fault f).outcome s = .fault f := rfl

/-- An outcome goes on exactly when the operation stepped, dropped or held. -/
theorem Verdict.outcome_eq_next {s t : State} {v : Verdict} (h : v.outcome s = .next t) :
    v = .step t ∨ v = .drop t ∨ (v = .hold ∧ t = s) := by
  cases v <;> simp_all

end Sys2Proof.Machine
end

