-- ==== Sys2Proof/Laws/Ops.lean ====
section
/-! SUPPORT. What each shared operation of Machine/Ops.lean can do, said once. -/

namespace Sys2Proof.Machine

/-! ## Bits -/

/-- Setting a bit changes that bit and no other. -/
theorem getLsbD_setBit {n : Nat} (v : BitVec n) (i j : Nat) (b : Bool) :
    (setBit v i b).getLsbD j = if i = j ∧ i < n then b else v.getLsbD j := by
  unfold setBit
  split
  · rename_i hb
    simp only [BitVec.getLsbD_or, BitVec.getLsbD_twoPow]
    by_cases hij : i = j
    · subst hij; by_cases hn : i < n <;> simp [hb, hn]
    · simp [hij]
  · rename_i hb
    simp only [BitVec.getLsbD_and, BitVec.getLsbD_not, BitVec.getLsbD_twoPow]
    by_cases hij : i = j
    · subst hij; by_cases hn : i < n
      · simp [hb, hn]
      · simp [hn, BitVec.getLsbD_of_ge v i (by omega)]
    · by_cases hj : j < n
      · simp [hij, hj]
      · simp [hij, BitVec.getLsbD_of_ge v j (by omega)]

/-! ## The channel -/

/-- One more copy of `v` in `dir`, no other change. -/
theorem Channel.count_add (ch : Channel) (dir d : Dir) (v x : Byte) :
    List.count x ((ch.add dir v).inFlight d) = List.count x (ch.inFlight d) + if d = dir ∧ x = v then 1 else 0 := by
  cases dir <;> cases d <;> simp [Channel.add, Channel.inFlight, Bag.count_insert]

/-- One copy of `v` in `dir` less, no other change. -/
theorem Channel.count_take (ch : Channel) (dir d : Dir) (v x : Byte) :
    List.count x ((ch.take dir v).inFlight d) = List.count x (ch.inFlight d) - if d = dir ∧ x = v then 1 else 0 := by
  cases dir <;> cases d <;> simp [Channel.take, Channel.inFlight, Bag.count_remove]

/-- Both multisets are in their canonical form. -/
def Channel.sorted (ch : Channel) : Bool := ch.t2c.sorted && ch.c2t.sorted

theorem Channel.sorted_add {ch : Channel} (dir : Dir) (v : Byte) (h : ch.sorted = true) :
    (ch.add dir v).sorted = true := by
  simp only [Channel.sorted, Bool.and_eq_true] at h ⊢
  cases dir
  · exact ⟨Bag.sorted_insert h.1, h.2⟩
  · exact ⟨h.1, Bag.sorted_insert h.2⟩

theorem Channel.sorted_take {ch : Channel} (dir : Dir) (v : Byte) (h : ch.sorted = true) :
    (ch.take dir v).sorted = true := by
  simp only [Channel.sorted, Bool.and_eq_true] at h ⊢
  cases dir
  · exact ⟨Bag.sorted_remove h.1, h.2⟩
  · exact ⟨h.1, Bag.sorted_remove h.2⟩

/-! ## Transmission -/

section
variable (dir : Dir) (v : Byte) (n : Nat) (s : State)

@[simp] theorem txOnce_tn : (txOnce dir v s).tn = s.tn := rfl
@[simp] theorem txOnce_cn : (txOnce dir v s).cn = s.cn := rfl
@[simp] theorem txOnce_ch : (txOnce dir v s).ch = s.ch.add dir v := rfl
@[simp] theorem txOnce_out : (txOnce dir v s).out = s.out ++ [.tx dir v] := rfl
@[simp] theorem txOnce_cfg : (txOnce dir v s).cfg = s.cfg := rfl
@[simp] theorem txOnce_stimulus : (txOnce dir v s).stimulus = s.stimulus := rfl

@[simp] theorem txTimes_zero : txTimes dir v 0 s = s := rfl
@[simp] theorem txTimes_succ : txTimes dir v (n + 1) s = txTimes dir v n (txOnce dir v s) := rfl

theorem txTimes_tn : (txTimes dir v n s).tn = s.tn := by induction n generalizing s <;> simp_all
theorem txTimes_cn : (txTimes dir v n s).cn = s.cn := by induction n generalizing s <;> simp_all
theorem txTimes_cfg : (txTimes dir v n s).cfg = s.cfg := by induction n generalizing s <;> simp_all
theorem txTimes_stimulus : (txTimes dir v n s).stimulus = s.stimulus := by induction n generalizing s <;> simp_all

theorem txTimes_out : (txTimes dir v n s).out = s.out ++ List.replicate n (.tx dir v) := by
  induction n generalizing s with
  | zero => simp
  | succ n ih => simp [ih, List.replicate_succ]

theorem txTimes_count (d : Dir) (x : Byte) :
    List.count x ((txTimes dir v n s).ch.inFlight d) =
      List.count x (s.ch.inFlight d) + if d = dir ∧ x = v then n else 0 := by
  induction n generalizing s with
  | zero => simp
  | succ n ih =>
    rw [txTimes_succ, ih, txOnce_ch, Channel.count_add]
    split <;> omega

theorem txTimes_sorted (h : s.ch.sorted = true) : (txTimes dir v n s).ch.sorted = true := by
  induction n generalizing s with
  | zero => exact h
  | succ n ih => exact ih _ (Channel.sorted_add dir v h)

/-- A byte in flight after transmissions was in flight before, or is the byte sent in its direction. -/
theorem txTimes_mem {d : Dir} {x : Byte} (h : x ∈ (txTimes dir v n s).ch.inFlight d) :
    x ∈ s.ch.inFlight d ∨ (d = dir ∧ x = v) := by
  rw [← List.count_pos_iff, txTimes_count] at h
  by_cases hx : d = dir ∧ x = v
  · exact .inr hx
  · simp only [hx, if_false, Nat.add_zero] at h
    exact .inl (List.count_pos_iff.1 h)

/-- A transmission touches the channel and the log alone. -/
@[simp] theorem tx_tn : (tx dir v s).tn = s.tn := txTimes_tn ..
@[simp] theorem tx_cn : (tx dir v s).cn = s.cn := txTimes_cn ..
@[simp] theorem tx_cfg : (tx dir v s).cfg = s.cfg := txTimes_cfg ..
@[simp] theorem tx_stimulus : (tx dir v s).stimulus = s.stimulus := txTimes_stimulus ..

/-- It is logged `RESEND` times. -/
@[simp] theorem tx_out : (tx dir v s).out = s.out ++ List.replicate s.cfg.resend (.tx dir v) := txTimes_out ..

/-- It puts `RESEND` copies in flight and touches no other byte. -/
theorem tx_count (d : Dir) (x : Byte) :
    List.count x ((tx dir v s).ch.inFlight d) =
      List.count x (s.ch.inFlight d) + if d = dir ∧ x = v then s.cfg.resend else 0 := txTimes_count ..

theorem tx_sorted (h : s.ch.sorted = true) : (tx dir v s).ch.sorted = true := txTimes_sorted _ _ _ _ h

theorem tx_mem {d : Dir} {x : Byte} (h : x ∈ (tx dir v s).ch.inFlight d) :
    x ∈ s.ch.inFlight d ∨ (d = dir ∧ x = v) := txTimes_mem _ _ _ _ h

end

/-! ## Errors and the halt -/

/-- Every class but `LinkSilence` is only logged. -/
theorem raise_recovered (e : ErrorClass) (s : State) (h : e.code ≠ 8) : raise e s = s.emit (.err e) := by
  cases e <;> first | rfl | exact absurd rfl h

/-- `LinkSilence` is logged, announced, and halts the Timing Node; nothing else changes. -/
theorem raise_linkSilence (n : Byte) (s : State) :
    raise (.linkSilence n) s =
      { s with out := s.out ++ [.err (.linkSilence n), .fatalNotice],
               tn := { s.tn with td := { s.tn.td with fatal := true } } } := by
  simp [raise, State.withTd, State.withTn, State.emit]

@[simp] theorem raise_cn (e : ErrorClass) (s : State) : (raise e s).cn = s.cn := by cases e <;> rfl
@[simp] theorem raise_ch (e : ErrorClass) (s : State) : (raise e s).ch = s.ch := by cases e <;> rfl
@[simp] theorem raise_cfg (e : ErrorClass) (s : State) : (raise e s).cfg = s.cfg := by cases e <;> rfl
@[simp] theorem raise_stimulus (e : ErrorClass) (s : State) : (raise e s).stimulus = s.stimulus := by cases e <;> rfl
@[simp] theorem raise_decodeNoise_tn (i : NoiseInfo) (s : State) : (raise (.decodeNoise i) s).tn = s.tn := rfl
@[simp] theorem raise_sensorNoise_tn (sd : Side) (p : U32) (s : State) : (raise (.sensorNoise sd p) s).tn = s.tn := rfl
@[simp] theorem raise_contention_tn (r : Resource) (s : State) : (raise (.contention r) s).tn = s.tn := rfl
@[simp] theorem raise_lapOverflow_tn (c : CarIdx) (s : State) : (raise (.lapOverflow c) s).tn = s.tn := rfl

/-- A raise only appends to the log. -/
theorem raise_out (e : ErrorClass) (s : State) : ∃ es, (raise e s).out = s.out ++ es := by
  cases e
  case linkSilence n => exact ⟨_, by rw [raise_linkSilence]⟩
  all_goals exact ⟨_, rfl⟩

/-! ## Reset of a domain -/

@[simp] theorem resetDomain_out (d : Domain) (s : State) : (resetDomain d s).out = s.out := by cases d <;> rfl
@[simp] theorem resetDomain_cfg (d : Domain) (s : State) : (resetDomain d s).cfg = s.cfg := by cases d <;> rfl
@[simp] theorem resetDomain_stimulus (d : Domain) (s : State) : (resetDomain d s).stimulus = s.stimulus := by
  cases d <;> rfl

theorem resetDomain_tn (d : Domain) (s : State) :
    (resetDomain d s).tn = if d = .cn then s.tn else TimingNode.reset s.cfg := by cases d <;> rfl
theorem resetDomain_cn (d : Domain) (s : State) :
    (resetDomain d s).cn = if d = .tn then s.cn else CarNode.reset s.cfg := by cases d <;> rfl
theorem resetDomain_ch (d : Domain) (s : State) :
    (resetDomain d s).ch = if d = .all then Channel.reset else s.ch := by cases d <;> rfl

/-! ## Event words -/

@[simp] theorem State.fetch_present (s : State) (w : EventWord) : (s.present w).fetch = some (w, s) := rfl

theorem State.fetch_eq_some {s t : State} {w : EventWord} (h : s.fetch = some (w, t)) :
    s.stimulus = w :: t.stimulus ∧ t = { s with stimulus := t.stimulus } := by
  unfold State.fetch at h
  split at h
  · cases h
  · rename_i x ws hs
    obtain ⟨rfl, rfl⟩ := by simpa using h
    exact ⟨hs, rfl⟩

end Sys2Proof.Machine
end

