-- ==== Sys2Proof/Laws/Engine.lean ====
section
/-! SUPPORT. What the shared operations of the lap engine can do, said once: the record update, the notification, the
win and the light transition. -/

namespace Sys2Proof.Machine

/-! ## The record update -/

section
variable (r : CarRecord) (ts : U32)

/-- Every field of a record after a counted passing. -/
theorem CarRecord.pass_eq :
    r.pass ts =
      let lap := if r.lastTs = 0 then r.lapTime else wsub32 ts r.lastTs
      { lastTs := ts, prevTs := r.lastTs, lapTime := lap
        prevLapTime := if r.lastTs = 0 then r.prevLapTime else r.lapTime
        improvement := if r.lastTs = 0 ∨ r.lapTime = 0 then r.improvement else ssub64 lap r.lapTime
        lapCount := r.lapCount + 1, hist := r.hist.write r.lapCount.toNat lap, lapSum := r.lapSum + lap.toNat
        position := r.position } := by
  by_cases h : r.lastTs = 0
  · simp only [pass, append, measure, shiftTs, h, ne_eq, not_true_eq_false, if_false, if_true, true_or]
  · by_cases h' : r.lapTime = 0
    · simp only [pass, append, measure, shiftTs, h, h', ne_eq, not_true_eq_false, not_false_eq_true, if_false,
        if_true, or_true]
    · simp only [pass, append, measure, shiftTs, h, h', ne_eq, not_false_eq_true, if_false, if_true, or_self]

theorem CarRecord.pass_lastTs : (r.pass ts).lastTs = ts := by rw [pass_eq]

theorem CarRecord.pass_prevTs : (r.pass ts).prevTs = r.lastTs := by rw [pass_eq]

theorem CarRecord.pass_lapTime :
    (r.pass ts).lapTime = if r.lastTs = 0 then r.lapTime else wsub32 ts r.lastTs := by rw [pass_eq]

theorem CarRecord.pass_prevLapTime :
    (r.pass ts).prevLapTime = if r.lastTs = 0 then r.prevLapTime else r.lapTime := by rw [pass_eq]

theorem CarRecord.pass_hist : (r.pass ts).hist = r.hist.write r.lapCount.toNat (r.pass ts).lapTime := by
  rw [pass_eq]

theorem CarRecord.pass_lapSum : (r.pass ts).lapSum = r.lapSum + (r.pass ts).lapTime.toNat := by rw [pass_eq]

theorem CarRecord.pass_lapCount : (r.pass ts).lapCount = r.lapCount + 1 := by rw [pass_eq]

theorem CarRecord.pass_position : (r.pass ts).position = r.position := by rw [pass_eq]

end

/-- A record after another has been replaced. -/
theorem getElem_set_car (v : Vector CarRecord 4) (c d : CarIdx) (r : CarRecord) :
    (v.set c r)[d] = if d = c then r else v[d] := by
  rw [Fin.getElem_fin, Vector.getElem_set]; simp [Fin.ext_iff, eq_comm]

/-! ## The winner's statistics -/

/-- At a lap target of 1 both statistics are zero, whatever the representation. -/
theorem stats_one (num : NumRep) (r : CarRecord) : stats num r 1 = (0, .rat 0) := rfl

/-- At a lap target of 2 or more the statistics are those of the representation. -/
theorem stats_of_two_le (num : NumRep) (r : CarRecord) {target : Byte} (h : 2 ≤ target.toNat) :
    stats num r target = r.numStats num target.toNat := by
  have h0 : target ≠ 0 := by rintro rfl; simp at h
  have h1 : target ≠ 1 := by rintro rfl; simp at h
  simp only [stats, h0, h1, if_false]

/-- In exact reals the mean is a quotient and the standard deviation the root of the variance. -/
theorem CarRecord.numStats_exactReal (r : CarRecord) (target : Nat) :
    r.numStats .exactReal target = (r.mean target, .root (r.variance target)) := rfl

/-- In any other representation they are those of a representation exact on integers up to its bound. -/
theorem CarRecord.numStats_rounded (r : CarRecord) (target : Nat) {num : NumRep} (h : num ≠ .exactReal) :
    r.numStats num target = r.roundedStats num (if num = .binary64 then 2 ^ 53 else 2 ^ 15) target := by
  cases num <;> first | exact absurd rfl h | rfl

/-- The root found lies between its square and the next one. -/
theorem sqrtFrom_spec (k root v : Nat) (h : root * root ≤ v) (h' : v < (root + 2 ^ k) * (root + 2 ^ k)) :
    sqrtFrom k root v * sqrtFrom k root v ≤ v ∧ v < (sqrtFrom k root v + 1) * (sqrtFrom k root v + 1) := by
  induction k generalizing root with
  | zero => exact ⟨h, h'⟩
  | succ k ih =>
    rw [sqrtFrom]
    split
    · exact ih _ ‹_› (by rwa [Nat.add_assoc, ← Nat.two_mul, ← Nat.pow_succ'])
    · exact ih _ h (Nat.lt_of_not_le ‹_›)

/-- The integer root of a square is exact. -/
theorem isqrt_sq (d : Nat) (h : d < 2 ^ 27) : isqrt (d ^ 2) = d := by
  have hs := sqrtFrom_spec 27 0 (d ^ 2) (Nat.zero_le _) (by rw [Nat.pow_two, Nat.zero_add]; exact Nat.mul_lt_mul'' h h)
  rw [Nat.pow_two] at hs
  have h1 := Nat.mul_self_le_mul_self_iff.mp hs.1
  have h2 := Nat.mul_self_lt_mul_self_iff.mp hs.2
  rw [isqrt, Nat.pow_two]
  omega

/-- When the mean is exact. -/
theorem CarRecord.exactMean_eq_some (r : CarRecord) {bound target m : Nat} (ht : 2 ≤ target) :
    r.exactMean bound target = some m ↔ r.lapSum < bound ∧ r.lapSum = m * (target - 1) := by
  have hm : ∀ k, r.lapSum = k * (target - 1) → r.lapSum / (target - 1) = k := fun k hk => by
    rw [hk, Nat.mul_div_cancel _ (by omega)]
  simp only [exactMean]
  constructor
  · intro h
    split at h
    · rename_i hc; cases h; exact hc
    · cases h
  · rintro ⟨hb, hk⟩
    rw [hm m hk, if_pos ⟨hb, hk⟩]

/-- When the standard deviation is exact. -/
theorem CarRecord.exactSd_eq_some (r : CarRecord) {bound target d : Nat} (ht : 2 ≤ target) (hb : bound ≤ 2 ^ 53) :
    r.exactSd bound target = some d ↔ ∃ m, r.exactMean bound target = some m ∧
      (∀ h ∈ r.measuredLaps target, h.toNat < bound) ∧ r.squares target m < bound ∧
      r.squares target m = d ^ 2 * (target - 1) := by
  have hall : (∀ h ∈ r.measuredLaps target, h.toNat < bound) ↔
      (r.measuredLaps target).all (fun h => decide (h.toNat < bound)) = true := by simp
  simp only [hall]
  unfold exactSd
  cases hm : r.exactMean bound target with
  | none => simp
  | some m =>
    simp only [Option.some.injEq, exists_eq_left']
    constructor
    · intro h
      split at h
      · rename_i hc; cases h; exact hc
      · cases h
    · rintro ⟨hl, hq, he⟩
      have hd : d < 2 ^ 27 := by
        by_contra hn
        have : (2 ^ 27) ^ 2 * 1 ≤ d ^ 2 * (target - 1) := Nat.mul_le_mul (Nat.pow_le_pow_left (by omega) 2) (by omega)
        omega
      have hr : isqrt (r.squares target m / (target - 1)) = d := by
        rw [he, Nat.mul_div_cancel _ (by omega), isqrt_sq d hd]
      rw [hr, if_pos ⟨hl, hq, he⟩]

/-- A variance is not negative. -/
theorem CarRecord.variance_nonneg (r : CarRecord) (target : Nat) : 0 ≤ r.variance target := by
  refine div_nonneg (List.sum_nonneg fun x hx => ?_) (Nat.cast_nonneg _)
  obtain ⟨h, -, rfl⟩ := List.mem_map.mp hx
  exact mul_self_nonneg _

/-! ## A counted passing -/

section
variable (c : CarIdx) (ts : U32) (s : State)

theorem notifyFinishLine_tn : (notifyFinishLine c s).tn = s.tn := by unfold notifyFinishLine; split <;> simp
theorem notifyFinishLine_cn : (notifyFinishLine c s).cn = s.cn := by unfold notifyFinishLine; split <;> simp
theorem notifyFinishLine_cfg : (notifyFinishLine c s).cfg = s.cfg := by unfold notifyFinishLine; split <;> simp
theorem notifyFinishLine_stimulus : (notifyFinishLine c s).stimulus = s.stimulus := by
  unfold notifyFinishLine; split <;> simp

theorem notifyFinishLine_out :
    (notifyFinishLine c s).out = s.out ++ if c = 0 then List.replicate s.cfg.resend (.tx .t2c 2) else [] := by
  unfold notifyFinishLine; split <;> simp

theorem notifyFinishLine_count (d : Dir) (x : Byte) :
    List.count x ((notifyFinishLine c s).ch.inFlight d) =
      List.count x (s.ch.inFlight d) + if d = .t2c ∧ x = 2 ∧ c = 0 then s.cfg.resend else 0 := by
  unfold notifyFinishLine; split <;> simp_all [tx_count]

/-- A win writes the winner registers, zeroes the actuator and ends the race; no record changes. -/
theorem win_tn : (win c s).tn = { s.tn with
    winnerValid := true, winnerCar := c, winMean := (stats s.cfg.num s.tn.cars[c] s.tn.lapTarget).1
    winSd := (stats s.cfg.num s.tn.cars[c] s.tn.lapTarget).2, actOut := 0, status := .noRaceGoing } := by
  unfold win; simp

theorem win_cn : (win c s).cn = s.cn := by unfold win; simp
theorem win_cfg : (win c s).cfg = s.cfg := by unfold win; simp
theorem win_stimulus : (win c s).stimulus = s.stimulus := by unfold win; simp

theorem win_out : (win c s).out = s.out ++ .winner c :: List.replicate s.cfg.resend (.tx .t2c 0) := by
  unfold win; simp

theorem win_count (d : Dir) (x : Byte) :
    List.count x ((win c s).ch.inFlight d) =
      List.count x (s.ch.inFlight d) + if d = .t2c ∧ x = 0 then s.cfg.resend else 0 := by
  unfold win; simp [tx_count]

/-- After a counted passing only the record of its car has changed. -/
theorem countPassing_cars : (countPassing c ts s).tn.cars = s.tn.cars.set c (s.tn.cars[c].pass ts) := by
  unfold countPassing testWin; split <;> simp [win_tn, notifyFinishLine_tn]

theorem countPassing_cn : (countPassing c ts s).cn = s.cn := by
  unfold countPassing testWin; split <;> simp [win_cn, notifyFinishLine_cn]

theorem countPassing_cfg : (countPassing c ts s).cfg = s.cfg := by
  unfold countPassing testWin; split <;> simp [win_cfg, notifyFinishLine_cfg]

theorem countPassing_stimulus : (countPassing c ts s).stimulus = s.stimulus := by
  unfold countPassing testWin; split <;> simp [win_stimulus, notifyFinishLine_stimulus]

/-- The win test of a counted passing reads the status before it, the count after it and the lap target. -/
theorem countPassing_eq : countPassing c ts s =
    let u := notifyFinishLine c (s.withCar c (s.tn.cars[c].pass ts))
    if winReached s.tn.status (s.tn.cars[c].lapCount + 1) s.tn.lapTarget then win c u else u := by
  unfold countPassing testWin
  simp only [notifyFinishLine_tn, State.withCar_tn, getElem_set_car, if_true, CarRecord.pass_lapCount]

end

/-- The three ends of a passing on a node that is not halted: a zero timestamp, a full history, a counted passing. -/
theorem onCarPassing_cases (c : CarIdx) (ts : U32) (s : State) :
    (ts = 0 ∧ onCarPassing c ts s = .drop (s.emit (.err (.decodeNoise (.zeroTimestamp c))))) ∨
    (ts ≠ 0 ∧ s.tn.cars[c].lapCount = 255 ∧
      onCarPassing c ts s =
        .drop { s with out := s.out ++ [.err (.lapOverflow c)], tn := { s.tn with lapOvf := true } }) ∨
    (ts ≠ 0 ∧ s.tn.cars[c].lapCount ≠ 255 ∧ onCarPassing c ts s = .step (countPassing c ts s)) := by
  by_cases h : ts = 0
  · exact .inl ⟨h, by simp only [onCarPassing, if_pos h]; rfl⟩
  · by_cases h' : s.tn.cars[c].lapCount = 255
    · exact .inr (.inl ⟨h, h', by simp only [onCarPassing, if_neg h, if_pos h']; rfl⟩)
    · exact .inr (.inr ⟨h, h', by simp only [onCarPassing, if_neg h, if_neg h']⟩)

/-! ## The light -/

section
variable (k : LightClass) (ls : Byte) (changed : Bool) (s : State)

theorem lightTransition_cn : (lightTransition k s).cn = s.cn := by cases k <;> rfl
theorem lightTransition_ch : (lightTransition k s).ch = s.ch := by cases k <;> rfl
theorem lightTransition_cfg : (lightTransition k s).cfg = s.cfg := by cases k <;> rfl
theorem lightTransition_stimulus : (lightTransition k s).stimulus = s.stimulus := by cases k <;> rfl

theorem lightTransition_status : (lightTransition k s).tn.status =
    match k with
    | .allClear => .raceGoing
    | .ready | .countdown | .earlyStart => .noRaceGoing
    | .idle => s.tn.status := by cases k <;> rfl

/-- A light touches the timer, the decoder, the comparator, the lap target and the received setpoint in no way. -/
theorem onLight_kept : (onLight ls changed s).tn.et = s.tn.et ∧ (onLight ls changed s).tn.td = s.tn.td ∧
    (onLight ls changed s).tn.tc = s.tn.tc ∧ (onLight ls changed s).tn.lapTarget = s.tn.lapTarget ∧
    (onLight ls changed s).tn.rxSp = s.tn.rxSp := by
  unfold onLight broadcastStatus
  cases changed <;> generalize s.cfg.lightClass ls = k <;> cases k <;>
    simp [lightTransition, startRace, stopRace, recordReset]

/-- A light changes the records only when it changed to one of class Ready, which clears them all. -/
theorem onLight_cars : (onLight ls changed s).tn.cars =
    if changed = true ∧ s.cfg.lightClass ls = .ready then Vector.replicate 4 CarRecord.reset else s.tn.cars := by
  unfold onLight broadcastStatus
  cases changed <;> generalize s.cfg.lightClass ls = k <;> cases k <;>
    simp [lightTransition, startRace, stopRace, recordReset]

theorem onLight_cn : (onLight ls changed s).cn = s.cn := by
  unfold onLight broadcastStatus
  cases changed <;> generalize s.cfg.lightClass ls = k <;> cases k <;>
    simp [lightTransition, startRace, stopRace, recordReset]

theorem onLight_cfg : (onLight ls changed s).cfg = s.cfg := by
  unfold onLight broadcastStatus
  cases changed <;> generalize s.cfg.lightClass ls = k <;> cases k <;>
    simp [lightTransition, startRace, stopRace, recordReset]

theorem onLight_stimulus : (onLight ls changed s).stimulus = s.stimulus := by
  unfold onLight broadcastStatus
  cases changed <;> generalize s.cfg.lightClass ls = k <;> cases k <;>
    simp [lightTransition, startRace, stopRace, recordReset]

end

end Sys2Proof.Machine
end

