-- ==== Sys2Proof/Laws/Operands.lean ====
section
/-! SUPPORT. The operand forms and conditions in numbers: wrapping arithmetic, the window of a timer, the classes and
the nibble bytes of a telegram. -/

namespace Sys2Proof.Machine

/-! ## Timestamps -/

/-- The formula of spec/42_timestamp_comparator.md R201. -/
theorem wsub32_toNat (a b : U32) : (wsub32 a b).toNat = (a.toNat + 2 ^ 32 - b.toNat) % 2 ^ 32 := by
  rw [wsub32, BitVec.toNat_sub]; omega

theorem wadd32_toNat (a b : U32) : (wadd32 a b).toNat = (a.toNat + b.toNat) % 2 ^ 32 := BitVec.toNat_add a b

/-- The signed 64-bit difference is exact (R204). -/
theorem ssub64_toInt (a b : U32) : (ssub64 a b).toInt = (a.toNat : Int) - b.toNat := by
  unfold ssub64
  rw [BitVec.toInt_sub, BitVec.toInt_setWidth, BitVec.toInt_setWidth]
  have := a.isLt
  have := b.isLt
  simp [Int.bmod]
  omega

theorem tsBefore_iff (a b : U32) : tsBefore a b = true ↔ 2 ^ 31 ≤ (a.toNat + 2 ^ 32 - b.toNat) % 2 ^ 32 := by
  rw [tsBefore, BitVec.msb_eq_decide, wsub32_toNat]; simp

/-- An edge lies past the window of a unit exactly when its timer runs and the delay has passed since the last
edge. -/
theorem edgePast_iff {n : Nat} (t : EventTimer n) (delay ts : U32) :
    t.edgePast delay ts = true ↔
      t.armed = true ∧ delay.toNat ≤ (ts.toNat + 2 ^ 32 - t.lastEdgeTs.toNat) % 2 ^ 32 := by
  rw [EventTimer.edgePast, Bool.and_eq_true, decide_eq_true_eq, BitVec.le_def, wsub32_toNat]

/-! ## Telegrams -/

theorem nibbleValid_iff (b : Byte) : nibbleValid b = true ↔ 0x30 ≤ b.toNat ∧ b.toNat ≤ 0x3F := by
  simp [nibbleValid, BitVec.le_def]

theorem nibble_toNat {b : Byte} (h : nibbleValid b = true) : (nibble b).toNat = b.toNat - 0x30 := by
  have := (nibbleValid_iff b).1 h
  rw [nibble, BitVec.toNat_setWidth, BitVec.toNat_sub]
  simp
  omega

theorem badNibble_eq_none (td : Decoder) :
    td.badNibble = none ↔ ∀ k, 2 ≤ k → k ≤ 9 → nibbleValid (td.buf.read k) = true := by
  simp only [Decoder.badNibble, List.find?_eq_none, Bool.not_eq_true', Decoder.byteAt,
    Bool.not_eq_false]
  constructor
  · intro h k h2 h9; apply h; simp; omega
  · intro h k hk; simp at hk; apply h <;> omega

/-- The first bad offset is the one reported. -/
theorem badNibble_eq_some (td : Decoder) (k : Nat) (h2 : 2 ≤ k) (h9 : k ≤ 9)
    (hk : nibbleValid (td.buf.read k) = false)
    (hb : ∀ j, 2 ≤ j → j < k → nibbleValid (td.buf.read j) = true) : td.badNibble = some k := by
  have e : [2, 3, 4, 5, 6, 7, 8, 9] = List.range' 2 (k - 2) ++ k :: List.range' (k + 1) (9 - k) := by
    interval_cases k <;> rfl
  rw [Decoder.badNibble, e, List.find?_append, List.find?_eq_none.2, List.find?_cons_of_pos]
  · rfl
  · simp [Decoder.byteAt, hk]
  · intro j hj
    simp only [List.mem_range'_1] at hj
    simp [Decoder.byteAt, hb j hj.1 (by omega)]

/-- The digits '1' to '4' are the cars 0 to 3. -/
theorem carOfDigit_digit (c : CarIdx) : carOfDigit (BitVec.ofNat 8 (0x31 + c.val)) = some c ∧
    classify (BitVec.ofNat 8 (0x31 + c.val)) = .carPassing := by
  revert c; decide

/-- No other byte is a car. -/
theorem carOfDigit_eq_none (b : Byte) : carOfDigit b = none ↔ ¬(0x31 ≤ b.toNat ∧ b.toNat ≤ 0x34) := by
  revert b; decide

end Sys2Proof.Machine
end

