-- ==== Sys2Proof/Laws/Nodes.lean ====
section
/-! SUPPORT. What the shared operations of the EventTimer, the telegram decoder, the wireless handler and the restart
can do, said once. -/

namespace Sys2Proof.Machine

/-! ## EventTimer -/

/-- A changed level of a side activates it, or ends its pulse as noise, as a dropped pulse or as a captured one. -/
theorem opticalEdge_cases (sd : Side) (dir : Bool) (ts : U32) (s : State) :
    (dir = s.cfg.active1 ∧ opticalEdge sd dir ts s =
      .step (s.withCn { s.cn with opt := s.cn.opt.setSide sd ((s.cn.opt.side sd).activate ts) })) ∨
    (dir ≠ s.cfg.active1 ∧ wsub32 ts (s.cn.opt.side sd).riseTs < s.cfg.minPass ∧
      opticalEdge sd dir ts s =
        .step (s.emit (.err (.sensorNoise sd (wsub32 ts (s.cn.opt.side sd).riseTs))))) ∨
    (dir ≠ s.cfg.active1 ∧ ¬wsub32 ts (s.cn.opt.side sd).riseTs < s.cfg.minPass ∧ s.cn.et.ready = true ∧
      opticalEdge sd dir ts s = .drop s) ∨
    (dir ≠ s.cfg.active1 ∧ ¬wsub32 ts (s.cn.opt.side sd).riseTs < s.cfg.minPass ∧ s.cn.et.ready = false ∧
      opticalEdge sd dir ts s = .step (s.withCn { s.cn with
        opt := s.cn.opt.setSide sd ((s.cn.opt.side sd).capture (wsub32 ts (s.cn.opt.side sd).riseTs)) })) := by
  by_cases h1 : dir = s.cfg.active1
  · exact .inl ⟨h1, by simp only [opticalEdge, if_pos h1]⟩
  · by_cases h2 : wsub32 ts (s.cn.opt.side sd).riseTs < s.cfg.minPass
    · exact .inr (.inl ⟨h1, h2, by simp only [opticalEdge, if_neg h1, pulseTooShort, decide_eq_true h2, if_true]; rfl⟩)
    · cases h3 : s.cn.et.ready
      · exact .inr (.inr (.inr ⟨h1, h2, rfl, by simp [opticalEdge, h1, pulseTooShort, h2, h3]⟩))
      · exact .inr (.inr (.inl ⟨h1, h2, rfl, by simp [opticalEdge, h1, pulseTooShort, h2, h3]⟩))

/-- An expiry of unit 0 keeps a pending sample or stores a new one. -/
theorem basicFire_cases (s : State) :
    (s.tn.et.ready = true ∧ basicFire s = .drop s) ∨
    (s.tn.et.ready = false ∧ basicFire s = .step (s.withTn { s.tn with et := s.tn.et.sample })) := by
  cases h : s.tn.et.ready <;> simp [basicFire, h]

/-- An expiry of unit 1 stores a sample only with none pending and both sides valid. -/
theorem opticalFire_cases (s : State) :
    (s.cn.et.ready = false ∧ s.cn.opt.left.val = true ∧ s.cn.opt.right.val = true ∧
      opticalFire s = .step (s.withCn { s.cn with et := s.cn.et.sample, opt := s.cn.opt.sample })) ∨
    (¬(s.cn.et.ready = false ∧ s.cn.opt.left.val = true ∧ s.cn.opt.right.val = true) ∧ opticalFire s = .drop s) := by
  cases h : s.cn.et.ready <;> cases hl : s.cn.opt.left.val <;> cases hr : s.cn.opt.right.val <;>
    simp [opticalFire, h, hl, hr]

@[simp] theorem Optical.side_setSide (o : Optical) (sd : Side) (r : OpticalSide) : (o.setSide sd r).side sd = r := by
  cases sd <;> rfl

theorem Optical.side_setSide_ne (o : Optical) {sd sd' : Side} (r : OpticalSide) (h : sd' ≠ sd) :
    (o.setSide sd r).side sd' = o.side sd' := by cases sd <;> cases sd' <;> first | rfl | exact absurd rfl h

@[simp] theorem Optical.setSide_side (o : Optical) (sd : Side) : o.setSide sd (o.side sd) = o := by cases sd <;> rfl

/-- The lap target stays in 1..255 whichever way it moves. -/
theorem raiseTarget_toNat (t : Byte) : (raiseTarget t).toNat = min 255 (t.toNat + 1) := by
  rw [raiseTarget, BitVec.toNat_ofNat]; omega

theorem lowerTarget_toNat (t : Byte) : (lowerTarget t).toNat = max 1 (t.toNat - 1) := by
  rw [lowerTarget, BitVec.toNat_ofNat]; omega

/-- Serving the controls logs a start request or moves the lap target, and touches nothing else. -/
theorem serveControls_eq (levels : BitVec 3) (s : State) : ∃ es target,
    serveControls levels s = { s with out := s.out ++ es, tn := { s.tn with lapTarget := target } } := by
  unfold serveControls
  split
  · exact ⟨[.startReq], s.tn.lapTarget, rfl⟩
  · split
    · exact ⟨[], raiseTarget s.tn.lapTarget, by rw [List.append_nil]; rfl⟩
    · split
      · exact ⟨[], lowerTarget s.tn.lapTarget, by rw [List.append_nil]; rfl⟩
      · exact ⟨[], s.tn.lapTarget, by rw [List.append_nil]⟩

/-! ## Telegram decoder -/

/-- The three classes of a telegram, by the byte at offset 1. -/
theorem decodeTelegram_cases (s : State) :
    (s.tn.td.buf.read 1 = 0x3A ∧ decodeTelegram s = .step (onHeartbeat s)) ∨
    (s.tn.td.buf.read 1 = 0 ∧ decodeTelegram s = .step (onEmpty s)) ∨
    (s.tn.td.buf.read 1 ≠ 0x3A ∧ s.tn.td.buf.read 1 ≠ 0 ∧ decodeTelegram s = onCarPassingTelegram s) := by
  by_cases h1 : s.tn.td.buf.read 1 = 0x3A
  · have h : classify (s.tn.td.byteAt 1) = .heartbeat := if_pos h1
    exact .inl ⟨h1, by rw [decodeTelegram, h]⟩
  · by_cases h2 : s.tn.td.buf.read 1 = 0
    · have h : classify (s.tn.td.byteAt 1) = .empty := (if_neg h1).trans (if_pos h2)
      exact .inr (.inl ⟨h2, by rw [decodeTelegram, h]⟩)
    · have h : classify (s.tn.td.byteAt 1) = .carPassing := (if_neg h1).trans (if_neg h2)
      exact .inr (.inr ⟨h1, h2, by rw [decodeTelegram, h]⟩)

/-- What a decode of a CarPassing telegram ends in, after the empty counter is cleared. -/
theorem onCarTelegram_cases (c : CarIdx) (s : State) :
    (∃ k, s.tn.td.badNibble = some k ∧ onCarTelegram c s = .drop (s.emit (.err (.decodeNoise (.badNibble k))))) ∨
    (s.tn.td.badNibble = none ∧ s.tn.td.telegramTs = 0 ∧
      onCarTelegram c s = .drop (s.emit (.err (.decodeNoise (.zeroTimestamp c))))) ∨
    (s.tn.td.badNibble = none ∧ s.tn.td.telegramTs ≠ 0 ∧
      onCarTelegram c s = onCarPassing c s.tn.td.telegramTs s) := by
  cases hb : s.tn.td.badNibble with
  | some k => exact .inl ⟨k, rfl, by simp only [onCarTelegram, hb]; rfl⟩
  | none =>
    by_cases hz : s.tn.td.telegramTs = 0
    · exact .inr (.inl ⟨rfl, hz, by simp only [onCarTelegram, hb, if_pos hz]; rfl⟩)
    · exact .inr (.inr ⟨rfl, hz, by simp only [onCarTelegram, hb, if_neg hz]⟩)

/-- A decode never waits. -/
theorem decodeTelegram_ne_hold (s : State) : decodeTelegram s ≠ .hold := by
  rcases decodeTelegram_cases s with ⟨_, h⟩ | ⟨_, h⟩ | ⟨_, _, h⟩
  · simp [h]
  · simp [h]
  · rw [h, onCarPassingTelegram]
    cases carOfDigit ((clearEmpty s).tn.td.byteAt 1) with
    | none => simp
    | some c =>
      rcases onCarTelegram_cases c (clearEmpty s) with ⟨k, _, h⟩ | ⟨_, _, h⟩ | ⟨_, _, h⟩
      · simp [h]
      · simp [h]
      · rcases onCarPassing_cases c (clearEmpty s).tn.td.telegramTs (clearEmpty s) with ⟨_, h'⟩ | ⟨_, _, h'⟩ | ⟨_, _, h'⟩ <;>
          simp [h, h']

/-! ## Wireless handler -/

/-- When a `RaceGoing` starts the node. -/
theorem CarNode.starts_iff (cn : CarNode) (restart : RestartRule) :
    cn.starts restart = true ↔ cn.state = .idle ∧ (restart = .anyRaceGoing ∨ cn.status = .noRaceGoing) := by
  simp [starts]

/-- A node that starts leaves Idle, and one that does not keeps its state. -/
theorem CarNode.raceState_cases (cn : CarNode) (cfg : Config) :
    (cn.starts cfg.restart = true ∧ cn.raceState cfg ≠ .idle) ∨
    (cn.starts cfg.restart = false ∧ cn.raceState cfg = cn.state) := by
  cases h : cn.starts cfg.restart with
  | false => exact .inr ⟨rfl, by simp [raceState, h]⟩
  | true => exact .inl ⟨rfl, by cases hp : cfg.policyFirst <;> simp [raceState, h, hp, firstState] <;> split <;> simp⟩

section
variable (m : CarMessage) (s : State)

theorem cnRx_tn : (cnRx m s).tn = s.tn := by unfold cnRx; split <;> rfl
theorem cnRx_ch : (cnRx m s).ch = s.ch := by unfold cnRx; split <;> rfl
theorem cnRx_cfg : (cnRx m s).cfg = s.cfg := by unfold cnRx; split <;> rfl
theorem cnRx_stimulus : (cnRx m s).stimulus = s.stimulus := by unfold cnRx; split <;> rfl

/-- The Car Node logs nothing but a reserved value. -/
theorem cnRx_out : (cnRx m s).out =
    s.out ++ match m with
      | .reserved v => [.err (.decodeNoise (.badWireValue v))]
      | .status _ | .finishLine | .loopbackAck => [] := by
  unfold cnRx; split <;> first | rfl | exact (List.append_nil _).symm

end

/-- A setpoint is dropped in the halt, driven while a race is going, and contention otherwise. -/
theorem tnRx_cases (v : Byte) (s : State) :
    (s.tn.td.fatal = true ∧ tnRx (.setpoint v) s = .drop s) ∨
    (s.tn.td.fatal = false ∧ s.tn.status = .raceGoing ∧
      tnRx (.setpoint v) s = .step (s.withTn { s.tn with rxSp := v, actOut := v })) ∨
    (s.tn.td.fatal = false ∧ s.tn.status = .noRaceGoing ∧
      tnRx (.setpoint v) s = .step ((s.withTn { s.tn with rxSp := v }).emit (.err (.contention .actuator)))) := by
  cases hf : s.tn.td.fatal <;> cases hs : s.tn.status <;> simp [tnRx, hf, hs, actuatorGranted, raise]

/-- A setpoint sent is noted, put in flight and logged; the Timing Node does not change. -/
theorem sendSetpoint_parts (v : Byte) (s : State) :
    (sendSetpoint v s).tn = s.tn ∧ (sendSetpoint v s).cn = { s.cn with lastSent := v, lastValid := true } ∧
    (sendSetpoint v s).ch = (tx .c2t v s).ch ∧
    (sendSetpoint v s).out = s.out ++ List.replicate s.cfg.resend (.tx .c2t v) ∧
    (sendSetpoint v s).cfg = s.cfg ∧ (sendSetpoint v s).stimulus = s.stimulus := by
  simp [sendSetpoint]

/-! ## Reset and restart -/

/-- After reset every memory has the canonical form. -/
theorem resetWith_memory_wf (cfg : Config) :
    (State.resetWith cfg).tn.td.buf.wf = true ∧ ∀ c : CarIdx, (State.resetWith cfg).tn.cars[c].hist.wf = true :=
  ⟨rfl, fun c => by simp [State.resetWith, TimingNode.reset, CarRecord.reset, Mem.nil_wf]⟩

/-- Every memory operation keeps it: receiving a byte, and counting a passing. -/
theorem Decoder.receive_buf_wf (td : Decoder) (b : Byte) (h : td.buf.wf = true) : (td.receive b).buf.wf = true :=
  Mem.write_wf _ _ h

theorem CarRecord.pass_hist_wf (r : CarRecord) (ts : U32) (h : r.hist.wf = true) : (r.pass ts).hist.wf = true := by
  rw [CarRecord.pass_hist]; exact Mem.write_wf _ _ h


/-- A restart is the Timing Node's reset and its log entry. -/
theorem restartTimingNode_eq (s : State) : restartTimingNode s =
    { s with tn := TimingNode.reset s.cfg, out := s.out ++ [.reset .tn] } := rfl

end Sys2Proof.Machine
end

