-- ==== Sys2Proof/Laws/PerInstr.lean ====
section
/-! SUPPORT. The statements about every operation as syntax, one lemma per constructor: decoding the word of a
well-formed operation gives the operation back. -/

namespace Sys2Proof.Laws

/-- Decoding the event word of a well-formed operation gives it back (spec/30_encoding.md R100 to R104). -/
def RoundTrip.Statement (i : Instr) : Prop := i.wellFormed = true → decode (encode i) = .ok i

namespace RoundTrip

theorem rst (dom : Domain) : Statement (.rst dom) := by
  intro _; cases dom <;> decide
theorem tnRestart : Statement .tnRestart := by intro _; decide
theorem etEdge (u : TimerUnit) (i : Nat) (dir : Bool) (ts : U32) : Statement (.etEdge u i dir ts) := by
  intro h
  have hi : i < nIn u := by simpa [Instr.wellFormed] using h
  have h16 : i < 16 := by cases u <;> simp [nIn] at hi <;> omega
  have hd : readFlag 16#8 (bitCode dir) = .ok dir := by cases dir <;> rfl
  have hu : readUnit 16#8 (unitSel u i) = .ok u := by rw [readUnit, unitSel_unit]; cases u <;> rfl
  have hn : readInput 16#8 (unitSel u i) u = .ok i := by rw [readInput, unitSel_input u i h16, if_pos hi]
  simp [encode, decode, checked, Format.unusedZero, decodeEdge, hd, hu, hn, bind, Except.bind]
theorem etFire (u : TimerUnit) (ts : U32) : Statement (.etFire u ts) := by
  intro _; cases u <;> simp [encode, decode, checked, Format.unusedZero, readUnitOnly, readUnit, unitSel,
    TimerUnit.code, Except.map]
theorem etTake (u : TimerUnit) : Statement (.etTake u) := by intro _; cases u <;> decide
theorem ocServe : Statement .ocServe := by intro _; decide
theorem tdPoll : Statement .tdPoll := by intro _; decide
theorem tdRxb (b : Byte) : Statement (.tdRxb b) := by
  intro _; simp [encode, decode, checked, Format.unusedZero]
theorem tdDec : Statement .tdDec := by intro _; decide
theorem lePass (c : CarIdx) (ts : U32) : Statement (.lePass c ts) := by
  intro _
  simp [encode, decode, checked, Format.unusedZero, readCar_code, Except.map]
theorem leLight (ls : Byte) (changed : Bool) : Statement (.leLight ls changed) := by
  intro _; cases changed <;> simp [encode, decode, checked, Format.unusedZero, readChanged, bitCode, Except.map]
theorem leRank : Statement .leRank := by intro _; decide
theorem kaFire : Statement .kaFire := by intro _; decide
theorem tcSub (a b : U32) : Statement (.tcSub a b) := by
  intro _; simp [encode, decode, checked, Format.unusedZero]
theorem tcCmp (a b : U32) : Statement (.tcCmp a b) := by
  intro _; simp [encode, decode, checked, Format.unusedZero]
theorem chDlv (dir : Dir) (v : Byte) : Statement (.chDlv dir v) := by
  intro _; cases dir <;> simp [encode, decode, checked, Format.unusedZero, readDir, Dir.code, Except.map]
theorem chDrop (dir : Dir) (v : Byte) : Statement (.chDrop dir v) := by
  intro _; cases dir <;> simp [encode, decode, checked, Format.unusedZero, readDir, Dir.code, Except.map]
theorem cnSetsp (v : Byte) : Statement (.cnSetsp v) := by
  intro _; simp [encode, decode, checked, Format.unusedZero]
theorem cnFinack : Statement .cnFinack := by intro _; decide
theorem cnMeasdone : Statement .cnMeasdone := by intro _; decide
theorem cnMapset (b : Bool) : Statement (.cnMapset b) := by intro _; cases b <;> decide
theorem tnLoop : Statement .tnLoop := by intro _; decide

end RoundTrip

end Sys2Proof.Laws
end

