-- ==== Sys2Proof/Machine/Text.lean ====
section
/-! DEFINITION. The textual form of operations (spec/30_encoding.md R105, R106): writing one operation, reading a
script of them, and the event words a script stands for. Nothing the block does depends on it. -/

namespace Sys2Proof

/-! ## Writing -/

/-- The pseudo-operation `TD.TG b0, ..., bk` (R106): one whole poll cycle. -/
def telegramCycle (bytes : List Byte) : List Instr :=
  .tdPoll :: bytes.map .tdRxb ++ [.tdDec]

/-- The operand of `RST` as written. -/
def Domain.text : Domain → String
  | .tn => "TN"
  | .cn => "CN"
  | .all => "ALL"

/-- A direction operand as written. -/
def Dir.text : Dir → String
  | .t2c => "T2C"
  | .c2t => "C2T"

/-- A unit operand as written: 0 or 1. -/
def TimerUnit.text : TimerUnit → String
  | .unit0 => "0"
  | .unit1 => "1"

/-- A one-bit operand as written. -/
def bitText (b : Bool) : String := if b then "1" else "0"

/-- The operands of an operation in the order of R105, numbers in decimal. -/
def Instr.operandTexts : Instr → List String
  | .rst dom => [dom.text]
  | .etEdge u i dir ts => [u.text, toString i, bitText dir, toString ts.toNat]
  | .etFire u ts => [u.text, toString ts.toNat]
  | .etTake u => [u.text]
  | .tdRxb b => [toString b.toNat]
  | .lePass c ts => [toString c.val, toString ts.toNat]
  | .leLight ls changed => [toString ls.toNat, bitText changed]
  | .tcSub a b => [toString a.toNat, toString b.toNat]
  | .tcCmp a b => [toString a.toNat, toString b.toNat]
  | .chDlv dir v => [dir.text, toString v.toNat]
  | .chDrop dir v => [dir.text, toString v.toNat]
  | .cnSetsp v => [toString v.toNat]
  | .cnMapset b => [bitText b]
  | .tnRestart | .ocServe | .tdPoll | .tdDec | .leRank | .kaFire | .cnFinack | .cnMeasdone | .tnLoop => []

/-- The textual form of an operation: its mnemonic, then its operands separated by commas. -/
def Instr.text (i : Instr) : String :=
  match i.operandTexts with
  | [] => i.mnemonic
  | ops => i.mnemonic ++ " " ++ ", ".intercalate ops

/-! ## Reading: the tokens of a line -/

/-- A token of a line: a bare word, a character in single quotes, a string in double quotes, or a comma. -/
inductive Token where
  | word (chars : List Char)
  | char (byte : Byte)
  | string (bytes : List Byte)
  | comma
  deriving DecidableEq, Repr

/-- Where the scan of a line stands: in a bare word, after an opening single quote, after the character behind it,
or in a string. The characters and bytes read so far stand in reverse. -/
inductive Scan where
  | bare (word : List Char)
  | charOpen
  | charBody (c : Char)
  | string (bytes : List Byte)
  deriving DecidableEq, Repr

/-- A bare word read to its end, in front of later tokens. -/
def endWord (word : List Char) (rest : List Token) : List Token :=
  if word.isEmpty then rest else .word word.reverse :: rest

/-- The ASCII code of a character as a byte (R93). -/
def byteOfChar (c : Char) : Byte := BitVec.ofNat 8 c.toNat

/-- The tokens of a line, `none` where a quote does not close or quotes no ASCII character. The number sign, code
0x23, starts a comment; 0x22, 0x27 and 0x2C are the double quote, the single quote and the comma. -/
def scan : Scan → List Char → Option (List Token)
  | .bare w, [] => some (endWord w [])
  | .bare w, c :: cs =>
    if c.toNat = 0x23 then some (endWord w [])
    else if c.toNat = 0x2C then (scan (.bare []) cs).map fun ts => endWord w (.comma :: ts)
    else if c.toNat = 0x22 then (scan (.string []) cs).map (endWord w)
    else if c.toNat = 0x27 then (scan .charOpen cs).map (endWord w)
    else if c.isWhitespace then (scan (.bare []) cs).map (endWord w)
    else scan (.bare (c :: w)) cs
  | .charOpen, c :: cs => if c.toNat < 0x80 then scan (.charBody c) cs else none
  | .charOpen, [] => none
  | .charBody c, d :: cs =>
    if d.toNat = 0x27 then (scan (.bare []) cs).map (.char (byteOfChar c) :: ·) else none
  | .charBody _, [] => none
  | .string bs, c :: cs =>
    if c.toNat = 0x22 then (scan (.bare []) cs).map (.string bs.reverse :: ·)
    else if c.toNat < 0x80 then scan (.string (byteOfChar c :: bs)) cs
    else none
  | .string _, [] => none

/-- The tokens of the operands, which commas separate; no operand is a comma. -/
def operandTokens : List Token → Option (List Token)
  | [] => some []
  | [.comma] => none
  | [t] => some [t]
  | .comma :: _ => none
  | t :: .comma :: u :: ts => (operandTokens (u :: ts)).map (t :: ·)
  | _ => none

/-! ## Reading: the values of operands -/

/-- The value of a digit in a base of at most 16. -/
def digitValue (base : Nat) (c : Char) : Option Nat :=
  let n := c.toNat
  let v := if 0x30 ≤ n ∧ n ≤ 0x39 then n - 0x30
    else if 0x41 ≤ n ∧ n ≤ 0x46 then n - 0x41 + 10
    else if 0x61 ≤ n ∧ n ≤ 0x66 then n - 0x61 + 10
    else base
  if v < base then some v else none

/-- The number that digits write after the digits of `acc`. -/
def digitsValue (base acc : Nat) : List Char → Option Nat
  | [] => some acc
  | c :: cs =>
    match digitValue base c with
    | none => none
    | some v => digitsValue base (acc * base + v) cs

/-- A decimal number, or a hexadecimal one after `0x`. -/
def numberOf : List Char → Option Nat
  | [] => none
  | '0' :: 'x' :: c :: cs => digitsValue 16 0 (c :: cs)
  | cs => digitsValue 10 0 cs

/-- The number an operand writes, below a bound. -/
def boundedOperand (bound : Nat) : Token → Option Nat
  | .word cs =>
    match numberOf cs with
    | some n => if n < bound then some n else none
    | none => none
  | .char _ | .string _ | .comma => none

/-- A byte operand: a number, or a character, which stands for its code. -/
def byteOperand : Token → Option Byte
  | .char b => some b
  | t => (boundedOperand 256 t).map (BitVec.ofNat 8)

/-- A u32 operand. -/
def u32Operand (t : Token) : Option U32 := (boundedOperand (2 ^ 32) t).map (BitVec.ofNat 32)

/-- A one-bit operand. -/
def bitOperand (t : Token) : Option Bool := (boundedOperand 2 t).map (· == 1)

/-- A unit operand. -/
def unitOperand (t : Token) : Option TimerUnit :=
  (boundedOperand 2 t).map fun n => if n = 0 then .unit0 else .unit1

/-- A car operand. -/
def carOperand (t : Token) : Option CarIdx := (boundedOperand 4 t).map (Fin.ofNat 4)

/-- A reset domain by its name or number. -/
def domainOperand (t : Token) : Option Domain :=
  if t = .word "TN".toList then some .tn
  else if t = .word "CN".toList then some .cn
  else if t = .word "ALL".toList then some .all
  else (boundedOperand 3 t).map fun n => if n = 0 then .tn else if n = 1 then .cn else .all

/-- A direction by its name or number. -/
def dirOperand (t : Token) : Option Dir :=
  if t = .word "T2C".toList then some .t2c
  else if t = .word "C2T".toList then some .c2t
  else (boundedOperand 2 t).map fun n => if n = 0 then .t2c else .c2t

/-- The bytes of one operand of `TD.TG`: a string, a character, or a number. -/
def bytesOperand : Token → Option (List Byte)
  | .string bs => some bs
  | t => (byteOperand t).map ([·])

/-- The bytes of all operands of `TD.TG`, in order. -/
def bytesOperands : List Token → Option (List Byte)
  | [] => some []
  | t :: ts =>
    match bytesOperand t, bytesOperands ts with
    | some bs, some rest => some (bs ++ rest)
    | _, _ => none

/-! ## Reading: lines and scripts -/

/-- Why a line is no operation. -/
inductive TextError where
  /-- a quote does not close, or quotes no ASCII character -/
  | badQuote
  /-- the operands are not separated by commas -/
  | badSeparators
  /-- the line does not start with a mnemonic -/
  | noMnemonic
  /-- no operation of R102 or R106 has this name -/
  | unknownMnemonic (name : String)
  /-- the operands are not those of R105, or one is out of its range -/
  | badOperands (name : String)
  deriving DecidableEq, Repr

/-- One operation from its operands. -/
def oneOperation (i : Option Instr) : Option (List Instr) :=
  match i with
  | some i => if i.wellFormed then some [i] else none
  | none => none

/-- The operations a mnemonic and its operand tokens stand for: none where the operands are wrong. DESIGN CHOICE
(log 29): `TD.TG` takes at most twenty bytes, as R106 says, although vector V-TD-12 of spec/95_test_vectors.md is a
`TD.TG` of 21; `telegramCycle` takes any number. -/
def operationsOf (name : String) (ops : List Token) : Option (List Instr) :=
  match name, ops with
  | "RST", [d] => oneOperation ((domainOperand d).map .rst)
  | "TN.RESTART", [] => oneOperation (some .tnRestart)
  | "ET.EDGE", [u, i, dir, ts] => oneOperation do
      some (.etEdge (← unitOperand u) (← boundedOperand 16 i) (← bitOperand dir) (← u32Operand ts))
  | "ET.FIRE", [u, ts] => oneOperation do some (.etFire (← unitOperand u) (← u32Operand ts))
  | "ET.TAKE", [u] => oneOperation ((unitOperand u).map .etTake)
  | "OC.SERVE", [] => oneOperation (some .ocServe)
  | "TD.POLL", [] => oneOperation (some .tdPoll)
  | "TD.RXB", [b] => oneOperation ((byteOperand b).map .tdRxb)
  | "TD.DEC", [] => oneOperation (some .tdDec)
  | "LE.PASS", [c, ts] => oneOperation do some (.lePass (← carOperand c) (← u32Operand ts))
  | "LE.LIGHT", [ls, ch] => oneOperation do some (.leLight (← byteOperand ls) (← bitOperand ch))
  | "LE.RANK", [] => oneOperation (some .leRank)
  | "KA.FIRE", [] => oneOperation (some .kaFire)
  | "TC.SUB", [a, b] => oneOperation do some (.tcSub (← u32Operand a) (← u32Operand b))
  | "TC.CMP", [a, b] => oneOperation do some (.tcCmp (← u32Operand a) (← u32Operand b))
  | "CH.DLV", [d, v] => oneOperation do some (.chDlv (← dirOperand d) (← byteOperand v))
  | "CH.DROP", [d, v] => oneOperation do some (.chDrop (← dirOperand d) (← byteOperand v))
  | "CN.SETSP", [v] => oneOperation ((byteOperand v).map .cnSetsp)
  | "CN.FINACK", [] => oneOperation (some .cnFinack)
  | "CN.MEASDONE", [] => oneOperation (some .cnMeasdone)
  | "CN.MAPSET", [b] => oneOperation ((bitOperand b).map .cnMapset)
  | "TN.LOOP", [] => oneOperation (some .tnLoop)
  | "TD.TG", ts =>
    match bytesOperands ts with
    | some bs => if bs.length ≤ 20 then some (telegramCycle bs) else none
    | none => none
  | _, _ => none

/-- The names a line may start with: those of R102 and `TD.TG`. -/
def mnemonics : List String := opcodeRows.map (·.mnemonic) ++ ["TD.TG"]

/-- The operations of one line: none for an empty line or a comment, several for `TD.TG`. -/
def parseLine (line : List Char) : Except TextError (List Instr) :=
  match scan (.bare []) line with
  | none => .error .badQuote
  | some [] => .ok []
  | some (.word w :: ts) =>
    let name := String.ofList w
    if name ∉ mnemonics then .error (.unknownMnemonic name)
    else match operandTokens ts with
    | none => .error .badSeparators
    | some ops =>
      match operationsOf name ops with
      | some is => .ok is
      | none => .error (.badOperands name)
  | some (_ :: _) => .error .noMnemonic

/-- The lines of a text, each ended by a line feed, code 0x0A, or the text's end; `line` is the one being read, in
reverse. -/
def linesOf (line : List Char) : List Char → List (List Char)
  | [] => [line.reverse]
  | c :: cs => if c.toNat = 0x0A then line.reverse :: linesOf [] cs else linesOf (c :: line) cs

/-- The operations of lines, in order. -/
def parseLines : List (List Char) → Except TextError (List Instr)
  | [] => .ok []
  | l :: ls =>
    match parseLine l, parseLines ls with
    | .ok is, .ok rest => .ok (is ++ rest)
    | .error e, _ => .error e
    | .ok _, .error e => .error e

/-- The event words a script stands for (R105, R106, R100), or why its first bad line is none. -/
def scriptWords (script : String) : Except TextError (List EventWord) :=
  (parseLines (linesOf [] script.toList)).map fun is => is.map encode

end Sys2Proof
end

