-- ==== Sys2Proof/Tests/Slice0.lean ====
section
/-! SUPPORT. Tests with the expected values of spec/95_test_vectors.md (its id beside each), and for every obligation
with hypotheses a named witness that meets them. -/

namespace Sys2Proof.Tests

open Sys2Proof.Machine

/-! ## Helpers -/

/-- The state an operation goes on in. -/
def nextOf (i : Instr) (s : State) : Option State :=
  match exec i s with
  | .next t => some t
  | .fault _ => none
  | .refused _ => none

/-- Why an operation is refused. -/
def refusalOf (i : Instr) (s : State) : Option Refusal :=
  match exec i s with
  | .next _ => none
  | .fault _ => none
  | .refused r => some r

/-- The state a step goes on in. -/
def stepOf (s : State) : Option State :=
  match step s with
  | .next t => some t
  | .fault _ => none
  | .refused _ => none

/-- The state after operations one after another. -/
def after : List Instr → State → State
  | [], s => s
  | i :: is, s => after is ((nextOf i s).getD s)

/-- A byte written in hexadecimal, as the decoder's buffer holds the bytes of a telegram. -/
def telegram (bytes : List Byte) : Decoder :=
  { Decoder.reset with
    isOpen := true, isDone := true, idx := bytes.length, buf := (List.range bytes.length).zip bytes }

/-- The state after reset with a telegram received and its exchange still open. -/
def received (bytes : List Byte) : State := State.reset.withTd (telegram bytes)

/-- The state after reset with a race going and the actuator at 44. -/
def racing : State := State.reset.withTn { State.reset.tn with status := .raceGoing, actOut := 44 }

/-- The state after reset with the Timing Node halted. -/
def halted : State := State.reset.withTd { Decoder.reset with emptyCnt := 11, fatal := true }

/-- The state after reset with a sample of the operator controls pending. -/
def controls (levels : BitVec 3) (target : Byte) : State :=
  State.reset.withTn { State.reset.tn with
    et := { State.reset.tn.et with ready := true, smpLevels := levels }, lapTarget := target }

/-- The state after reset with one byte in flight in each direction. -/
def inFlight (down up : Byte) : State := State.reset.withCh { t2c := [down], c2t := [up] }

/-- V-LE-2: two passings of car 1. -/
def twoPassings : State := after [.lePass 1 1000, .lePass 1 5000] State.reset

/-- Unit 1 after a left pulse (V-OP-1), its timer running. -/
def leftPulse : State := after [.etEdge .unit1 0 true 1000, .etEdge .unit1 0 false 1100] State.reset

/-- Unit 1 with pulses of both sides captured (V-OP-3). -/
def bothPulses : State :=
  after [.etEdge .unit1 1 true 1000, .etEdge .unit1 1 false 1400, .etEdge .unit1 0 true 1500,
    .etEdge .unit1 0 false 1900] State.reset

/-- Unit 0 with its timer running (V-ET-1). -/
def running0 : State := after [.etEdge .unit0 0 true 1000] State.reset

/-! ## Well-formedness: the one check refuses an input the unit does not have -/

theorem test_unit0_has_no_input_3 : Instr.wellFormed (.etEdge .unit0 3 true 100) = false := by decide
theorem test_unit1_has_no_input_2 : Instr.wellFormed (.etEdge .unit1 2 true 100) = false := by decide
theorem test_unit0_has_input_2 : Instr.wellFormed (.etEdge .unit0 2 true 100) = true := by decide
theorem test_ill_formed_edge_refused :
    refusalOf (.etEdge .unit1 2 true 100) State.reset = some (.noSuchInput .unit1 2) := by decide

/-! ## Decoding, from the words of section 2.1 -/

theorem test_decode_rst : decode 0x010200000000000000000000 = .ok (.rst .all) := by decide
theorem test_decode_tnRestart : decode 0x020000000000000000000000 = .ok .tnRestart := by decide
theorem test_decode_etEdge : decode 0x101101000000000000001F40 = .ok (.etEdge .unit1 1 true 8000) := by decide
theorem test_decode_etFire : decode 0x110000000000000000002AF8 = .ok (.etFire .unit0 11000) := by decide
theorem test_decode_etTake : decode 0x121000000000000000000000 = .ok (.etTake .unit1) := by decide
theorem test_decode_ocServe : decode 0x130000000000000000000000 = .ok .ocServe := by decide
theorem test_decode_tdPoll : decode 0x200000000000000000000000 = .ok .tdPoll := by decide
theorem test_decode_tdRxb : decode 0x21003A000000000000000000 = .ok (.tdRxb 0x3A) := by decide
theorem test_decode_tdDec : decode 0x220000000000000000000000 = .ok .tdDec := by decide
theorem test_decode_lePass : decode 0x300300000000000012345678 = .ok (.lePass 3 0x12345678) := by decide
theorem test_decode_leLight : decode 0x310107000000000000000000 = .ok (.leLight 0x07 true) := by decide
theorem test_decode_leRank : decode 0x320000000000000000000000 = .ok .leRank := by decide
theorem test_decode_kaFire : decode 0x330000000000000000000000 = .ok .kaFire := by decide
theorem test_decode_tcSub : decode 0x4000000000000005FFFFFFF0 = .ok (.tcSub 0x00000005 0xFFFFFFF0) := by decide
theorem test_decode_tcCmp : decode 0x41000000FFFFFFF000000005 = .ok (.tcCmp 0xFFFFFFF0 0x00000005) := by decide
theorem test_decode_chDlv : decode 0x500002000000000000000000 = .ok (.chDlv .t2c 2) := by decide
theorem test_decode_chDrop : decode 0x51012C000000000000000000 = .ok (.chDrop .c2t 44) := by decide
theorem test_decode_cnSetsp : decode 0x52002C000000000000000000 = .ok (.cnSetsp 44) := by decide
theorem test_decode_cnFinack : decode 0x530000000000000000000000 = .ok .cnFinack := by decide
theorem test_decode_cnMeasdone : decode 0x540000000000000000000000 = .ok .cnMeasdone := by decide
theorem test_decode_cnMapset : decode 0x550001000000000000000000 = .ok (.cnMapset true) := by decide
theorem test_decode_tnLoop : decode 0x560000000000000000000000 = .ok .tnLoop := by decide

/-- V-ENC-30 to V-ENC-36. -/
theorem test_illegal_words :
    decode 0x000000000000000000000000 = .error (.unknownOpcode 0x00) ∧
    decode 0x570000000000000000000000 = .error (.unknownOpcode 0x57) ∧
    decode 0x200000000000000000000001 = .error (.unusedField 0x20) ∧
    decode 0x100001010000000000000064 = .error (.unusedField 0x10) ∧
    decode 0x100301000000000000000064 = .error (.selector 0x10 0x03) ∧
    decode 0x101201000000000000000064 = .error (.selector 0x10 0x12) ∧
    decode 0x102001000000000000000064 = .error (.selector 0x10 0x20) := by decide

/-- V-ENC-37 to V-ENC-43. -/
theorem test_illegal_operands :
    decode 0x100002000000000000000064 = .error (.flag 0x10 2) ∧
    decode 0x010300000000000000000000 = .error (.selector 0x01 3) ∧
    decode 0x300400000000000000000001 = .error (.selector 0x30 4) ∧
    decode 0x500200000000000000000000 = .error (.selector 0x50 2) ∧
    decode 0x310207000000000000000000 = .error (.selector 0x31 2) ∧
    decode 0x110100000000000000002AF8 = .error (.selector 0x11 1) ∧
    decode 0x550002000000000000000000 = .error (.flag 0x55 2) := by decide

/-- A table word of `TD.RXB` is the event word itself: bit 0 is its least significant bit. -/
theorem test_table_word : decodeTableWord 96 0x21003A000000000000000000 = some (.tdRxb 0x3A) := by decide

/-- A step runs the word `withFetchWord` presents. -/
theorem test_fetch_word :
    (stepOf (State.reset.withFetchWord 96 0x550001000000000000000000)).map (fun t => (t.cn.mapComplete, t.stimulus)) =
      some (true, []) := by decide

/-- The textual form of V-ENC-3. -/
theorem test_text : (Instr.etEdge .unit1 1 true 8000).text = "ET.EDGE 1, 1, 1, 8000" := by decide

/-- The texts and words of V-ENC-1, V-ENC-10 and V-ENC-17. -/
theorem test_script_words :
    scriptWords "RST ALL\n# a comment\nLE.PASS 3, 0x12345678\nCH.DROP C2T, 44" =
      .ok [0x010200000000000000000000, 0x300300000000000012345678, 0x51012C000000000000000000] := by decide

/-- The telegram of V-TD-1 as R106 writes it. -/
theorem test_telegram_text :
    parseLine "TD.TG \"?1\", \"21436587\", '$'".toList =
      .ok (telegramCycle [0x3F, 0x31, 0x32, 0x31, 0x34, 0x33, 0x36, 0x35, 0x38, 0x37, 0x24]) := by decide

/-- Input 3 of unit 0 does not exist (V-ENC-34). -/
theorem test_text_rejected : parseLine "ET.EDGE 0, 3, 1, 100".toList = .error (.badOperands "ET.EDGE") := by decide

/-! ## One step of each operation -/

/-- V-RST-1. -/
theorem test_rst_cn_keeps_channel :
    (nextOf (.rst .cn) ((inFlight 1 9).withCn { State.reset.cn with state := .racing })).map
      (fun t => (t.cn.state, t.ch.t2c, t.out)) = some (.idle, [1], [.reset .cn]) := by decide

/-- V-EX-6. -/
theorem test_restart_ends_halt :
    (nextOf .tnRestart halted).map (fun t => (t.tn.td.fatal, t.tn.td.emptyCnt, t.out)) =
      some (false, 0, [.reset .tn]) := by decide

/-- V-ET-2: the second edge of one window moves the deadline. -/
theorem test_edge_restarts_window :
    (nextOf (.etEdge .unit0 0 false 1500) running0).map (fun t => (t.tn.et.pin, t.tn.et.deadline)) =
      some (0#3, 11500) := by decide

/-- V-OP-2: 99 ticks are noise, one tick under `MIN_PASS`. -/
theorem test_short_pulse_is_noise :
    (nextOf (.etEdge .unit1 1 false 1299) (after [.etEdge .unit1 1 true 1200] leftPulse)).map
      (fun t => (t.out, t.cn.opt.right.val, t.cn.opt.right.riseTs)) =
      some ([.err (.sensorNoise .right 99)], false, 1200) := by decide

/-- V-ET-1. -/
theorem test_fire_stores_sample :
    (nextOf (.etFire .unit0 11000) running0).map
      (fun t => (t.tn.et.armed, t.tn.et.ready, t.tn.et.smpLevels, t.tn.et.smpTs)) =
      some (false, true, 0b001#3, 1000) := by decide

/-- V-OP-3: the right sensor came first, 500 ticks before the left. -/
theorem test_take_of_paired_sample :
    (nextOf (.etTake .unit1) (after [.etFire .unit1 2900] bothPulses)).map (fun t => (t.out, t.cn.et.ready)) =
      some ([.taken1 0b00 1900 0x000001F4 400 400 0 false 0 false], false) := by decide

/-- V-ET-8. -/
theorem test_take_holds : verdict (.etTake .unit0) State.reset = .hold := by decide

/-- V-OC-5: increase beats decrease. -/
theorem test_serve_increase : (nextOf .ocServe (controls 0b110 3)).map (fun t => (t.tn.lapTarget, t.out)) =
    some (4, [.taken0 0b110 0]) := by decide

/-- V-OC-3: the lap target stays at 1. -/
theorem test_serve_decrease_clamped : (nextOf .ocServe (controls 0b100 1)).map (fun t => t.tn.lapTarget) = some 1 := by
  decide

/-- V-TD-24: the buffer is cleared at the poll. -/
theorem test_poll_clears : (nextOf .tdPoll (State.reset.withTd { telegram [0x3F, 0x31] with isOpen := false })).map
    (fun t => (t.tn.td.buf, t.tn.td.idx, t.tn.td.isOpen)) = some ([], 0, true) := by decide

/-- V-TD-8: the end marker is stored and ends the reception. -/
theorem test_end_marker : (nextOf (.tdRxb 0x24) (after [.tdPoll] State.reset)).map
    (fun t => (t.tn.td.buf, t.tn.td.idx, t.tn.td.isDone)) = some ([(0, 0x24)], 1, true) := by decide

/-- V-TD-3: the nibble order of the timestamp. -/
theorem test_car_telegram :
    (nextOf .tdDec (received [0x3F, 0x32, 0x3B, 0x3A, 0x3D, 0x3C, 0x3F, 0x3E, 0x39, 0x30, 0x24])).map
      (fun t => (t.tn.cars[1].lastTs, t.tn.cars[1].lapCount, t.out)) = some (0xABCDEF09, 1, []) := by decide

/-- V-TD-10. -/
theorem test_bad_nibble :
    (nextOf .tdDec (received [0x3F, 0x31, 0x32, 0x31, 0x34, 0x33, 0x20, 0x35, 0x38, 0x37, 0x24])).map
      (fun t => (t.out, t.tn.cars[0].lapCount)) = some ([.err (.decodeNoise (.badNibble 6))], 0) := by decide

/-- V-LE-3: the improvement is the later lap time minus the earlier, and the win needs a race. -/
theorem test_third_passing :
    (nextOf (.lePass 1 9200) twoPassings).map (fun t => (t.tn.cars[1].lapTime, t.tn.cars[1].prevLapTime,
      t.tn.cars[1].improvement, t.tn.cars[1].lapCount, t.tn.cars[1].lapSum, t.tn.cars[1].hist.read 2)) =
      some (4200, 4000, 200, 3, 8200, 4200) := by decide

/-- V-LE-8, and S7 of the source: mean 4100, variance 10000. -/
theorem test_winner_statistics :
    (nextOf (.lePass 0 9200) (after [.lePass 0 1000, .lePass 0 5000] racing)).map (fun t => (t.tn.winMean,
      t.tn.winSd, t.tn.actOut, t.tn.status, t.out)) =
      some (4100, .root 10000, 0, .noRaceGoing, [.tx .t2c 2, .tx .t2c 2, .tx .t2c 2, .winner 0, .tx .t2c 0]) := by
  decide +kernel

/-- V-LE-13. -/
theorem test_early_start_stops :
    (nextOf (.leLight 0x08 true) racing).map (fun t => (t.tn.status, t.tn.actOut, t.out)) =
      some (.noRaceGoing, 0, [.tx .t2c 0]) := by decide

/-- V-LE-16: an unchanged light only rebroadcasts. -/
theorem test_unchanged_light :
    (nextOf (.leLight 0x03 false) racing).map (fun t => (t.tn.status, t.tn.actOut, t.out)) =
      some (.raceGoing, 44, [.tx .t2c 1]) := by decide

/-- V-LE-21: with no passing counted the lower index leads. -/
theorem test_rank_at_reset :
    (nextOf .leRank State.reset).map (fun t => carIndices.map fun c => t.tn.cars[c].position) = some [1, 2, 3, 4] := by decide

/-- V-LE-18. -/
theorem test_keepalive_contention : (nextOf .kaFire State.reset).map (·.out) = some [.err (.contention .actuator)] := by
  decide

/-- V-TC-1. -/
theorem test_sub_wraps :
    (nextOf (.tcSub 0x00000005 0xFFFFFFF0) State.reset).map (·.tn.tc.diff) = some 0x00000015 := by decide

/-- V-TC-2. -/
theorem test_cmp_across_wrap : (nextOf (.tcCmp 0xFFFFFFF0 0x00000005) State.reset).map (·.tn.tc) =
    some { diff := 0xFFFFFFEB, before := true } := by decide

/-- V-WS-2. -/
theorem test_delivered_start : (nextOf (.chDlv .t2c 1) (inFlight 1 0)).map
    (fun t => (t.cn.status, t.cn.state, t.ch.t2c)) = some (.raceGoing, .trackMapping, []) := by decide

/-- V-WS-9: without a race the actuator is not driven. -/
theorem test_setpoint_contention : (nextOf (.chDlv .c2t 44) (inFlight 0 44)).map
    (fun t => (t.tn.rxSp, t.tn.actOut, t.out)) = some (44, 0, [.err (.contention .actuator)]) := by decide

/-- V-WS-14. -/
theorem test_drop : (nextOf (.chDrop .t2c 1) (inFlight 1 0)).map (fun t => (t.ch.t2c, t.out)) = some ([], []) := by
  decide

/-- V-WS-11: an unchanged setpoint is not sent again. -/
theorem test_setpoint_once : (after [.cnSetsp 0, .cnSetsp 0, .cnSetsp 5] State.reset).out = [.tx .c2t 0, .tx .c2t 5] := by
  decide

/-- V-WS-15. -/
theorem test_finack : (nextOf .cnFinack (State.reset.withCn { State.reset.cn with finish := true })).map
    (·.cn.finish) = some false := by decide

/-- V-WS-12. -/
theorem test_measdone : (nextOf .cnMeasdone (State.reset.withCn { State.reset.cn with
      state := .measurement, status := .raceGoing, lastSent := 80, lastValid := true })).map
    (fun t => (t.cn.state, t.cn.status, t.cn.lastSent, t.out)) = some (.idle, .raceGoing, 0, [.tx .c2t 0]) := by decide

/-- V-WS-3's premise. -/
theorem test_mapset : (nextOf (.cnMapset true) State.reset).map (·.cn.mapComplete) = some true := by decide

/-- V-WS-6. -/
theorem test_loop : (nextOf .tnLoop State.reset).map (fun t => (t.ch.t2c, t.out)) = some ([3], [.tx .t2c 3]) := by decide

/-! ## Witnesses: a concrete input that meets an obligation's hypotheses together, one per clause -/

theorem witness_DecodeOfEncode : Instr.wellFormed (.etEdge .unit0 2 true 0xFFFFFFFF) = true := by decide

theorem witness_EncodeOfDecode : decode 0x101101000000000000001F40 = .ok (.etEdge .unit1 1 true 8000) :=
  test_decode_etEdge

theorem witness_DecodeKeepsOpcodeTable : decode 0x300300000000000012345678 = .ok (.lePass 3 0x12345678) :=
  test_decode_lePass

/-- One word for each disjunct of the hypothesis, at the boundary of its range, and a state whose next word it is. -/
theorem witness_IllegalWordsRefused :
    opField 0x570000000000000000000000 = 0x57 ∧
    zField 0x100001010000000000000064 = 1 ∧
    tField 0x200000000000000000000001 = 1 ∧
    bField 0x010001000000000000000000 = 1 ∧
    aField 0x210000000000000100000000 = 1 ∧
    tField 0x500000000000000000000001 = 1 ∧
    bField 0x300001000000000000000001 = 1 ∧
    aField 0x100001000000000100000064 = 1 ∧
    selField 0x400100000000000000000000 = 1 ∧
    selField 0x010300000000000000000000 = 3 ∧
    selField 0x122000000000000000000000 = 0x20 ∧
    selField 0x100301000000000000000064 = 3 ∧
    selField 0x101201000000000000000064 = 0x12 ∧
    selField 0x110100000000000000002AF8 = 1 ∧
    selField 0x300400000000000000000001 = 4 ∧
    selField 0x310207000000000000000000 = 2 ∧
    bField 0x550002000000000000000000 = 2 ∧
    (State.reset.present 0x550002000000000000000000).stimulus = [0x550002000000000000000000] := by decide

/-- The state whose next word is `CN.MAPSET 1`. -/
def presented : State := State.reset.present 0x550001000000000000000000

theorem witness_StepRunsDecodedWord : presented.stimulus = 0x550001000000000000000000 :: [] ∧
    decode 0x550001000000000000000000 = .ok (.cnMapset true) ∧ Instr.wellFormed (.cnMapset true) = true := by decide

theorem witness_StepWaitsWithoutWord : State.reset.stimulus = [] := by decide

theorem witness_StepOnlyAppendsToLog : (stepOf presented).isSome = true := by decide

/-- With the timer running, one tick under the window's end; with it stopped the second clause is empty. -/
theorem witness_EdgeRestartsTimerUnit0 : 2 < 3 ∧ running0.tn.td.fatal = false ∧ running0.tn.et.armed = true ∧
    ((10999#32).toNat + 2 ^ 32 - running0.tn.et.lastEdgeTs.toNat) % 2 ^ 32 + 1 = running0.cfg.debounce0.toNat := by
  decide

/-- Clause for an activation (side right, running timer) and clause for a kept level. -/
theorem witness_EdgeActivatesUnit1 : 1 < 2 ∧ leftPulse.cn.et.armed = true ∧
    ((2099#32).toNat + 2 ^ 32 - leftPulse.cn.et.lastEdgeTs.toNat) % 2 ^ 32 + 1 = leftPulse.cfg.debounce1.toNat ∧
    true = leftPulse.cfg.active1 ∧ true ≠ leftPulse.cn.et.pin.getLsbD 1 ∧ false = leftPulse.cn.et.pin.getLsbD 0 := by
  decide

/-- A pulse of exactly `MIN_PASS` ticks, one of a tick less, and one with a sample pending. -/
theorem witness_EdgeEndsPulseUnit1 :
    let s := after [.etEdge .unit1 0 true 1000] State.reset
    let pending := after [.etFire .unit1 2900, .etEdge .unit1 0 true 9600] bothPulses
    s.cn.et.armed = true ∧ false ≠ s.cn.et.pin.getLsbD 0 ∧ false ≠ s.cfg.active1 ∧
    ((1100#32).toNat + 2 ^ 32 - s.cn.opt.left.riseTs.toNat) % 2 ^ 32 = s.cfg.minPass.toNat ∧
    ((1099#32).toNat + 2 ^ 32 - s.cn.opt.left.riseTs.toNat) % 2 ^ 32 + 1 = s.cfg.minPass.toNat ∧
    ((1100#32).toNat + 2 ^ 32 - s.cn.et.lastEdgeTs.toNat) % 2 ^ 32 < s.cfg.debounce1.toNat ∧
    pending.cn.et.ready = true ∧ pending.cn.et.armed = true ∧ false ≠ pending.cn.et.pin.getLsbD 0 ∧
    ((9900#32).toNat + 2 ^ 32 - pending.cn.et.lastEdgeTs.toNat) % 2 ^ 32 < pending.cfg.debounce1.toNat := by decide

/-- Each of the six refusals: an edge exactly `D[u]` ticks late, an expiry with no timer, an expiry a tick early. -/
theorem witness_IllTimedEventsRefused :
    running0.tn.td.fatal = false ∧ running0.tn.et.armed = true ∧ leftPulse.cn.et.armed = true ∧
    ((11000#32).toNat + 2 ^ 32 - running0.tn.et.lastEdgeTs.toNat) % 2 ^ 32 = running0.cfg.debounce0.toNat ∧
    ((2100#32).toNat + 2 ^ 32 - leftPulse.cn.et.lastEdgeTs.toNat) % 2 ^ 32 = leftPulse.cfg.debounce1.toNat ∧
    State.reset.tn.et.armed = false ∧ State.reset.cn.et.armed = false ∧
    10999#32 ≠ running0.tn.et.deadline ∧ 2099#32 ≠ leftPulse.cn.et.deadline := by decide

/-- Without and with a sample pending. -/
theorem witness_FireStoresSampleUnit0 :
    let pending := after [.etFire .unit0 11000, .etEdge .unit0 0 false 30000] running0
    running0.tn.td.fatal = false ∧ running0.tn.et.armed = true ∧ running0.tn.et.ready = false ∧
    pending.tn.et.armed = true ∧ pending.tn.et.ready = true := by decide

/-- With both sides valid, and with one side only. -/
theorem witness_FirePairsSensorsUnit1 :
    bothPulses.cn.et.armed = true ∧ bothPulses.cn.et.ready = false ∧ bothPulses.cn.opt.left.val = true ∧
    bothPulses.cn.opt.right.val = true ∧ leftPulse.cn.et.armed = true ∧ leftPulse.cn.opt.right.val = false := by decide

theorem witness_TakeHandsOutSample :
    (controls 0b001 3).tn.td.fatal = false ∧ (controls 0b001 3).tn.et.ready = true ∧
    (after [.etFire .unit1 2900] bothPulses).cn.et.ready = true ∧ halted.tn.td.fatal = true ∧
    State.reset.tn.td.fatal = false ∧ State.reset.tn.et.ready = false ∧ State.reset.cn.et.ready = false := by decide

theorem witness_TakeHoldsOnLoweredSignal :
    State.reset.tn.td.fatal = false ∧ State.reset.tn.et.ready = false ∧ State.reset.cn.et.ready = false := by decide

/-- Each case: start, increase at 255, decrease at 1, nothing pressed, the halt, a lowered signal. -/
theorem witness_ServeActsOnHighestPriority :
    (controls 0b111 3).tn.td.fatal = false ∧ (controls 0b111 3).tn.et.ready = true ∧
    (controls 0b110 255).tn.et.ready = true ∧ (controls 0b100 1).tn.et.ready = true ∧
    (controls 0b000 3).tn.et.ready = true ∧ halted.tn.td.fatal = true ∧ State.reset.tn.et.ready = false := by decide

/-- V-ET-2: three edges in one window are all accepted. -/
theorem witness_EdgesCoalesceIntoOneSample :
    State.reset.tn.td.fatal = false ∧ State.reset.tn.et.ready = false ∧
    (nextOf (.etEdge .unit0 0 true 1000) State.reset).isSome = true ∧
    (nextOf (.etEdge .unit0 0 false 1500) running0).isSome = true ∧
    (nextOf (.etEdge .unit0 0 true 1800) (after [.etEdge .unit0 0 false 1500] running0)).isSome = true := by decide

theorem witness_PollOpensExchange : State.reset.tn.td.fatal = false ∧ State.reset.tn.td.isOpen = false ∧
    halted.tn.td.fatal = true ∧ (received []).tn.td.fatal = false ∧ (received []).tn.td.isOpen = true := by decide

/-- A byte after completion, the first byte, the twentieth, a byte in the halt and one with no exchange open. -/
theorem witness_ReceivedByteIsStored :
    let open0 := after [.tdPoll] State.reset
    let last := State.reset.withTd { Decoder.reset with isOpen := true, idx := 19 }
    (received [0x24]).tn.td.fatal = false ∧ (received [0x24]).tn.td.isOpen = true ∧
    (received [0x24]).tn.td.isDone = true ∧
    open0.tn.td.isOpen = true ∧ open0.tn.td.isDone = false ∧ open0.tn.td.idx = 0 ∧
    last.tn.td.isOpen = true ∧ last.tn.td.isDone = false ∧ last.tn.td.idx < 20 ∧
    halted.tn.td.fatal = true ∧ State.reset.tn.td.fatal = false ∧ State.reset.tn.td.isOpen = false := by decide

theorem witness_ExchangeOrderRefused : State.reset.tn.td.fatal = false ∧ State.reset.tn.td.isOpen = false ∧
    (received []).tn.td.fatal = false ∧ (received []).tn.td.isOpen = true := by decide

/-- The eleventh Empty telegram in a row, and the first. -/
theorem witness_EmptyTelegramCounts :
    let tenth := State.reset.withTd { telegram [] with emptyCnt := 10 }
    tenth.tn.td.fatal = false ∧ tenth.tn.td.isOpen = true ∧ tenth.tn.td.emptyCnt.toNat ≤ 11 ∧
    tenth.tn.td.buf.read 1 = 0 ∧ (received []).tn.td.emptyCnt = 0 ∧ (received []).tn.td.buf.read 1 = 0 := by decide

/-- V-TD-6. -/
def heartbeat : State :=
  received [0x3F, 0x3A, 0x30, 0x30, 0x30, 0x30, 0x30, 0x30, 0x30, 0x30, 0x07, 0x24]

theorem witness_HeartbeatRunsLight : heartbeat.tn.td.fatal = false ∧ heartbeat.tn.td.isOpen = true ∧
    heartbeat.tn.td.buf.read 1 = 0x3A := by decide

/-- V-TD-2: the nibble bytes run from 0x30 on; V-TD-3 has 0x3F among them. -/
def carTelegram : State :=
  received [0x3F, 0x34, 0x31, 0x30, 0x30, 0x30, 0x30, 0x30, 0x30, 0x3F, 0x24]

theorem witness_TimestampNibbleLayout : ∀ k, 2 ≤ k → k ≤ 9 →
    0x30 ≤ (carTelegram.tn.td.buf.read k).toNat ∧ (carTelegram.tn.td.buf.read k).toNat ≤ 0x3F := by decide

/-- Car 3 at 0x010000F0. -/
theorem witness_CarTelegramRunsPass :
    carTelegram.tn.td.fatal = false ∧ carTelegram.tn.td.isOpen = true ∧
    (carTelegram.tn.td.buf.read 1).toNat = 0x31 + (3 : CarIdx).val ∧
    (∀ k, 2 ≤ k → k ≤ 9 →
      0x30 ≤ (carTelegram.tn.td.buf.read k).toNat ∧ (carTelegram.tn.td.buf.read k).toNat ≤ 0x3F) ∧
    (let n := fun k => (carTelegram.tn.td.buf.read k).toNat - 0x30
     (0x010000F0#32).toNat = n 3 * 2 ^ 28 + n 2 * 2 ^ 24 + n 5 * 2 ^ 20 + n 4 * 2 ^ 16 + n 7 * 2 ^ 12 +
      n 6 * 2 ^ 8 + n 9 * 2 ^ 4 + n 8) ∧ 0x010000F0#32 ≠ 0 := by decide

/-- A digit byte just past '4', a bad nibble byte at offset 9 with good ones before it, and a zero timestamp. -/
theorem witness_BadCarTelegramDropped :
    let digit := received [0x3F, 0x35]
    let nibbles := received [0x3F, 0x31, 0x30, 0x30, 0x30, 0x30, 0x30, 0x30, 0x30, 0x40, 0x24]
    let zero := received [0x3F, 0x31, 0x30, 0x30, 0x30, 0x30, 0x30, 0x30, 0x30, 0x30, 0x24]
    digit.tn.td.fatal = false ∧ digit.tn.td.isOpen = true ∧ digit.tn.td.buf.read 1 ≠ 0x3A ∧
    digit.tn.td.buf.read 1 ≠ 0 ∧ (digit.tn.td.buf.read 1).toNat = 0x35 ∧
    (nibbles.tn.td.buf.read 1).toNat = 0x31 + (0 : CarIdx).val ∧ (nibbles.tn.td.buf.read 9).toNat = 0x40 ∧
    (∀ j, 2 ≤ j → j < 9 → (nibbles.tn.td.buf.read j).toNat = 0x30) ∧
    (zero.tn.td.buf.read 1).toNat = 0x31 + (0 : CarIdx).val ∧
    (∀ k, 2 ≤ k → k ≤ 9 → zero.tn.td.buf.read k = 0x30) := by decide

/-- The ends of the half range. -/
theorem witness_TsBeforeHalfRange : 0 < (1#32).toNat ∧ (0x7FFFFFFF#32).toNat + 1 = 2 ^ 31 ∧
    (0x80000000#32).toNat = 2 ^ 31 := by decide

theorem witness_SubLatchesDifference : State.reset.tn.td.fatal = false ∧ halted.tn.td.fatal = true := by decide
theorem witness_CmpLatchesDifferenceAndSign : racing.tn.td.fatal = false ∧ halted.tn.td.fatal = true := by decide

/-- A first passing, a second one without and a third one with an improvement. -/
theorem witness_PassUpdatesRecord :
    State.reset.tn.td.fatal = false ∧ 1000#32 ≠ 0 ∧ State.reset.tn.cars[(1 : CarIdx)].lapCount ≠ 255 ∧
    State.reset.tn.cars[(1 : CarIdx)].lastTs = 0 ∧ twoPassings.tn.td.fatal = false ∧
    twoPassings.tn.cars[(1 : CarIdx)].lapCount ≠ 255 ∧ twoPassings.tn.cars[(1 : CarIdx)].lastTs ≠ 0 ∧
    twoPassings.tn.cars[(1 : CarIdx)].lapTime ≠ 0 := by decide

/-- A passing that wins at the target exactly, and one that does not. -/
theorem witness_PassNotifiesAndWins :
    let s := after [.lePass 0 1000, .lePass 0 5000] racing
    s.tn.td.fatal = false ∧ 9200#32 ≠ 0 ∧ s.tn.cars[(0 : CarIdx)].lapCount ≠ 255 ∧ s.tn.status = .raceGoing ∧
    s.tn.lapTarget.toNat = s.tn.cars[(0 : CarIdx)].lapCount.toNat + 1 ∧
    State.reset.tn.status = .noRaceGoing ∧ State.reset.tn.cars[(0 : CarIdx)].lapCount ≠ 255 := by decide

/-- A race in another representation, two passings before the win. -/
def rounding (num : NumRep) : State :=
  let s := after [.lePass 0 1000, .lePass 0 5000] racing
  { s with cfg := { s.cfg with num := num } }

/-- The worked example of R219, "exact in every reasonable representation". -/
theorem test_worked_example_rounded :
    (nextOf (.lePass 0 9200) (rounding .binary64)).map (fun t => (t.tn.winMean, t.tn.winSd)) = some (4100, .rat 100) ∧
    (nextOf (.lePass 0 9200) (rounding (.other 7))).map (fun t => (t.tn.winMean, t.tn.winSd)) =
      some (4100, .rat 100) := by decide +kernel

/-- The premises, with a target of 3 in each kind of representation and a target of 1. -/
theorem witness_WinnerStatistics :
    let s := after [.lePass 0 1000, .lePass 0 5000] racing
    let one := racing.withTn { racing.tn with lapTarget := 1 }
    s.cfg.num = .exactReal ∧ (rounding .binary64).cfg.num ≠ .exactReal ∧ (rounding (.other 7)).cfg.num ≠ .exactReal ∧
    (rounding .binary64).tn = s.tn ∧ (rounding (.other 7)).tn = s.tn ∧
    s.tn.td.fatal = false ∧ 9200#32 ≠ 0 ∧ 9201#32 ≠ 0 ∧ s.tn.cars[(0 : CarIdx)].lapCount ≠ 255 ∧
    s.tn.status = .raceGoing ∧ s.tn.lapTarget.toNat ≤ s.tn.cars[(0 : CarIdx)].lapCount.toNat + 1 ∧
    s.tn.lapTarget.toNat = 3 ∧ one.tn.td.fatal = false ∧ one.tn.status = .raceGoing ∧ one.tn.lapTarget.toNat = 1 ∧
    one.tn.lapTarget.toNat ≤ one.tn.cars[(2 : CarIdx)].lapCount.toNat + 1 := by decide

/-- The worked example's record after the win: the last clause, and the exact clauses of the one before. -/
theorem witness_WinnerStatistics_exact :
    (nextOf (.lePass 0 9200) (rounding .binary64)).map (fun t => let r := t.tn.cars[(0 : CarIdx)]
      (r.lapSum, r.hist.read 1, r.hist.read 2)) = some (8200, 4000, 4200) ∧
    8200 < 2 ^ 15 ∧ 8200 = 4100 * (3 - 1) ∧
    ([4000, 4200].map fun h : U32 => ((h.toNat : Int) - (4100 : Nat)).natAbs ^ 2).sum = 100 ^ 2 * (3 - 1) := by
  decide +kernel

/-- A last lap of 4201 instead: no integer is the mean, so none is the deviation, and both are free. -/
theorem witness_WinnerStatistics_free :
    (nextOf (.lePass 0 9201) (rounding .binary64)).map (fun t => t.tn.cars[(0 : CarIdx)].lapSum) = some 8201 ∧
    ∀ m : Nat, 8201 ≠ m * (3 - 1) := ⟨by decide +kernel, fun m => by omega⟩

/-- V-LE-7: a full history. -/
def fullHistory : State := State.reset.withCar 3 { CarRecord.reset with lapCount := 255, lastTs := 5 }

theorem witness_PassGuardsDrop :
    fullHistory.tn.td.fatal = false ∧ 99#32 ≠ 0 ∧ fullHistory.tn.cars[(3 : CarIdx)].lapCount = 255 ∧
    halted.tn.td.fatal = true := by decide

/-- A state each of the light classes can meet. -/
theorem witness_LightDrivesRaceStatus : racing.tn.td.fatal = false ∧ halted.tn.td.fatal = true ∧
    [0x00, 0x01, 0x02, 0x07, 0x08].map (fun b => racing.cfg.lightClass b) =
      [.idle, .ready, .countdown, .allClear, .earlyStart] := by decide

theorem witness_RankCountsCarsAhead : twoPassings.tn.td.fatal = false ∧ halted.tn.td.fatal = true := by decide

/-- Counted last timestamps within `2^31` of 5000. -/
theorem witness_RankPositionsDistinct : twoPassings.tn.td.fatal = false ∧
    (∀ c : CarIdx, twoPassings.tn.cars[c].lapCount ≠ 0 →
      (twoPassings.tn.cars[c].lastTs.toNat + 2 ^ 32 - (5000#32).toNat) % 2 ^ 32 < 2 ^ 31) ∧
    (nextOf .leRank twoPassings).isSome = true ∧ (0 : CarIdx) ≠ 1 := by decide

theorem witness_KeepaliveNeedsToken : racing.tn.td.fatal = false ∧ halted.tn.td.fatal = true := by decide
theorem witness_LoopSendsAck : State.reset.tn.td.fatal = false ∧ halted.tn.td.fatal = true := by decide

/-- Each value class of a byte in flight toward the Car Node: 0, 1, 2, 3 and the first reserved one. -/
theorem witness_DeliveryDrivesCarNode : 0 ∈ (inFlight 0 0).ch.t2c ∧ 1 ∈ (inFlight 1 0).ch.t2c ∧
    2 ∈ (inFlight 2 0).ch.t2c ∧ 3 ∈ (inFlight 3 0).ch.t2c ∧ 4 ∈ (inFlight 4 0).ch.t2c := by decide

/-- In the halt, with a race going and with none. -/
theorem witness_DeliveryDrivesActuator :
    let ch : Channel := { t2c := [], c2t := [44] }
    44 ∈ (halted.withCh ch).ch.c2t ∧ (halted.withCh ch).tn.td.fatal = true ∧
    44 ∈ (racing.withCh ch).ch.c2t ∧ (racing.withCh ch).tn.td.fatal = false ∧ (racing.withCh ch).tn.status = .raceGoing ∧
    (State.reset.withCh ch).tn.status = .noRaceGoing := by decide

theorem witness_DropLosesOneCopy : 44 ∈ (inFlight 1 44).ch.inFlight .c2t ∧ 2 ∉ (inFlight 1 44).ch.inFlight .t2c := by
  decide
theorem witness_OnlyInFlightArrives : 1 ∉ State.reset.ch.inFlight .t2c := by decide

/-- A first setpoint, a changed one and an unchanged one. -/
theorem witness_SetpointSentOnChange :
    let sent := after [.cnSetsp 44] State.reset
    State.reset.cn.lastValid = false ∧ sent.cn.lastSent ≠ 45 ∧ sent.cn.lastValid = true ∧ sent.cn.lastSent = 44 := by
  decide

/-- A node in Measurement during a race, both statuses in flight toward it, under a reading of R269 and R261. -/
def measuring (restart : RestartRule) : State :=
  { State.reset with
    cfg := { Config.reference with restart := restart }
    cn := { State.reset.cn with state := .measurement, status := .raceGoing }
    ch := { t2c := [0, 1], c2t := [] } }

/-- With a race going, and in a state that is no Measurement. -/
theorem witness_MeasurementEndsInIdle :
    (measuring .stopFirst).cn.state = .measurement ∧ (measuring .stopFirst).cn.status = .raceGoing ∧
    (nextOf .cnMeasdone (measuring .stopFirst)).map (fun t => (t.ch.t2c, t.cn.state)) = some ([0, 1], .idle) ∧
    (nextOf .cnMeasdone (measuring .anyRaceGoing)).map (fun t => (t.ch.t2c, t.cn.state)) = some ([0, 1], .idle) ∧
    State.reset.cn.state ≠ .measurement := by decide

/-- R269's last words, and the reading of R261 and R270. -/
theorem test_restart_after_measurement :
    (after [.cnMeasdone, .chDlv .t2c 1] (measuring .stopFirst)).cn.state = .idle ∧
    (after [.cnMeasdone, .chDlv .t2c 0, .chDlv .t2c 1] (measuring .stopFirst)).cn.state = .trackMapping ∧
    (after [.cnMeasdone, .chDlv .t2c 1] (measuring .anyRaceGoing)).cn.state = .trackMapping := by decide

/-- Two copies in flight, delivered one after the other. -/
theorem witness_SecondDeliveryChangesNothing :
    let s := State.reset.withCh { t2c := [1, 1], c2t := [] }
    (nextOf (.chDlv .t2c 1) s).isSome = true ∧
    (nextOf (.chDlv .t2c 1) (after [.chDlv .t2c 1] s)).isSome = true := by decide

theorem witness_HaltedNodeDropsOperations : halted.tn.td.fatal = true ∧ Instr.wellFormed (.lePass 0 1000) = true ∧
    haltDrops (.lePass 0 1000) = true := by decide

/-- The eleventh Empty telegram enters the halt; a restart ends it. -/
theorem witness_OnlyLinkSilenceHalts :
    let tenth := State.reset.withTd { telegram [] with emptyCnt := 10 }
    tenth.tn.td.fatal = false ∧ (nextOf .tdDec tenth).map (·.tn.td.fatal) = some true ∧
    halted.tn.td.fatal = true ∧ (nextOf .tnRestart halted).map (·.tn.td.fatal) = some false := by decide

theorem witness_RestartResetsHaltedNode : halted.tn.td.fatal = true ∧ State.reset.tn.td.fatal = false := by decide

theorem witness_InvariantHoldsAtReset : Config.reference.legal = true := by decide

/-- A state past reset that meets the invariants and whose step goes on. -/
theorem witness_StepKeepsInvariant :
    (twoPassings.present 0x300100000000000000002328).wf = true ∧
    (stepOf (twoPassings.present 0x300100000000000000002328)).isSome = true := by decide

theorem witness_NoStepFaults : (twoPassings.present 0x210024000000000000000000).wf = true := by decide

theorem witness_NodesAreIsolated :
    Instr.node (.lePass 0 1000) = .timing ∧ Instr.node (.etTake .unit1) = .car := by decide

theorem witness_OnlyTakesHold : verdict .ocServe State.reset = .hold := by decide

/-- A Heartbeat of class Ready over a record that holds a passing, and the node halted with one. -/
def readyHeartbeat : State :=
  (received [0x3F, 0x3A, 0x30, 0x30, 0x30, 0x30, 0x30, 0x30, 0x30, 0x30, 0x01, 0x24]).withCar 1 twoPassings.tn.cars[1]
def haltedWithRecord : State := halted.withCar 1 twoPassings.tn.cars[1]

/-- Each clause: an operation that changes the record of car 1 (of car 3 for the telegram), told by one field. -/
theorem witness_RecordWriters :
    (nextOf (.lePass 1 1000) State.reset).map (fun t => t.tn.cars[(1 : CarIdx)].lastTs) = some 1000 ∧
    State.reset.tn.cars[(1 : CarIdx)].lastTs = 0 ∧
    (carTelegram.tn.td.buf.read 1).toNat = 0x31 + 3 ∧ carTelegram.tn.cars[(3 : CarIdx)].lapCount = 0 ∧
    (nextOf .tdDec carTelegram).map (fun t => t.tn.cars[(3 : CarIdx)].lapCount) = some 1 ∧
    twoPassings.tn.cars[(1 : CarIdx)].lapCount = 2 ∧
    (nextOf (.leLight 1 true) twoPassings).map (fun t => t.tn.cars[(1 : CarIdx)].lapCount) = some 0 ∧
    readyHeartbeat.tn.cars[(1 : CarIdx)].lapCount = 2 ∧
    (nextOf .tdDec readyHeartbeat).map (fun t => t.tn.cars[(1 : CarIdx)].lapCount) = some 0 ∧
    twoPassings.tn.cars[(1 : CarIdx)].position = 0 ∧
    (nextOf .leRank twoPassings).map (fun t => t.tn.cars[(1 : CarIdx)].position) = some 1 ∧
    haltedWithRecord.tn.cars[(1 : CarIdx)].lapCount = 2 ∧
    (nextOf .tnRestart haltedWithRecord).map (fun t => t.tn.cars[(1 : CarIdx)].lapCount) = some 0 ∧
    (nextOf (.rst .tn) twoPassings).map (fun t => t.tn.cars[(1 : CarIdx)].lapCount) = some 0 ∧
    (nextOf (.rst .all) twoPassings).map (fun t => t.tn.cars[(1 : CarIdx)].lapCount) = some 0 := by decide

/-- A race started by a Heartbeat and by `LE.LIGHT`. -/
theorem witness_RaceStartsOnlyOnAllClear : State.reset.tn.status = .noRaceGoing ∧
    (nextOf (.leLight 0x07 true) State.reset).map (·.tn.status) = some .raceGoing ∧
    heartbeat.tn.status = .noRaceGoing ∧ (nextOf .tdDec heartbeat).map (·.tn.status) = some .raceGoing := by decide

end Sys2Proof.Tests
end

section
/-! What a step can do, and what holds of every state an operation goes on in. -/

namespace Sys2Proof.Machine

/-! ## Outcomes -/

/-- The dispatch gives the outcome of the operation's verdict. -/
theorem exec_eq_outcome (i : Instr) (s : State) : exec i s = (verdict i s).outcome s := by cases i <;> rfl

/-- `P` holds of the state the operation steps or drops to, if there is one. -/
def Verdict.All (P : State → Prop) : Verdict → Prop
  | .step t | .drop t => P t
  | .hold | .refuse _ | .fault _ => True

section
variable {P Q : State → Prop}

@[simp] theorem Verdict.all_step (t : State) : (Verdict.step t).All P ↔ P t := Iff.rfl
@[simp] theorem Verdict.all_drop (t : State) : (Verdict.drop t).All P ↔ P t := Iff.rfl
@[simp] theorem Verdict.all_hold : Verdict.hold.All P := trivial
@[simp] theorem Verdict.all_refuse (r : Refusal) : (Verdict.refuse r).All P := trivial
@[simp] theorem Verdict.all_fault (f : Fault) : (Verdict.fault f).All P := trivial

@[simp] theorem Verdict.all_ite {p : Prop} [Decidable p] {v w : Verdict} :
    (if p then v else w).All P ↔ (p → v.All P) ∧ (¬p → w.All P) := by
  split <;> simp_all

theorem Verdict.All.imp {v : Verdict} (hv : v.All P) (h : ∀ t, P t → Q t) : v.All Q := by
  cases v with
  | step t => exact h t hv
  | drop t => exact h t hv
  | hold => trivial
  | refuse r => trivial
  | fault f => trivial

/-- What holds before an operation and of all it steps or drops to, holds after it: a hold changes nothing. -/
theorem of_exec_eq_next {i : Instr} {s t : State} (hs : P s) (hv : (verdict i s).All P) (h : exec i s = .next t) :
    P t := by
  rw [exec_eq_outcome] at h
  obtain hstep | hdrop | ⟨-, rfl⟩ := Verdict.outcome_eq_next h
  · rwa [hstep] at hv
  · rwa [hdrop] at hv
  · exact hs

end

/-! ## Steps -/

theorem step_of_nil {s : State} (h : s.stimulus = []) : step s = .next s := by
  simp only [step, State.fetch, h]

theorem step_of_ok {s : State} {w : EventWord} {ws : List EventWord} {i : Instr} (h : s.stimulus = w :: ws)
    (hw : decode w = .ok i) : step s = exec i (s.withStimulus ws) := by
  simp only [step, State.fetch, h, hw]

theorem step_of_error {s : State} {w : EventWord} {ws : List EventWord} {why : DecodeError}
    (h : s.stimulus = w :: ws) (hw : decode w = .error why) : step s = .refused (.illegalWord why) := by
  simp only [step, State.fetch, h, hw]

/-- A step that goes on has waited, or has run the operation its event word decodes to. -/
theorem step_eq_next {s t : State} (h : step s = .next t) :
    (s.stimulus = [] ∧ t = s) ∨
    ∃ w ws i, s.stimulus = w :: ws ∧ decode w = .ok i ∧ exec i (s.withStimulus ws) = .next t := by
  cases hs : s.stimulus with
  | nil =>
    rw [step_of_nil hs] at h
    cases h
    exact .inl ⟨rfl, rfl⟩
  | cons w ws =>
    cases hw : decode w with
    | error why =>
      rw [step_of_error hs hw] at h
      cases h
    | ok i => exact .inr ⟨w, ws, i, rfl, hw, step_of_ok hs hw ▸ h⟩

/-- Settles O7. -/
theorem stepRunsDecodedWord : Obligations.StepRunsDecodedWord := by
  intro s w ws i hs hw _
  exact step_of_ok hs hw

/-- Settles O8. -/
theorem stepWaitsWithoutWord : Obligations.StepWaitsWithoutWord :=
  fun _ => step_of_nil

end Sys2Proof.Machine
end

section
/-! The output log only grows, and no operation writes a parameter or an event word (R51, R324; O9). -/

namespace Sys2Proof.Machine

/-- `t` has the parameters and the waiting event words of `s`, and the log of `s`, perhaps with later entries. -/
structure Appends (s t : State) : Prop where
  out : ∃ es, t.out = s.out ++ es
  cfg : t.cfg = s.cfg
  stimulus : t.stimulus = s.stimulus

/-! ## The state's operations -/

section
variable {s t : State}

@[simp] theorem Appends.refl (s : State) : Appends s s := ⟨⟨[], by simp⟩, rfl, rfl⟩

theorem Appends.trans {u : State} (hst : Appends s t) (htu : Appends t u) : Appends s u := by
  obtain ⟨es, hes⟩ := hst.out
  obtain ⟨fs, hfs⟩ := htu.out
  exact ⟨⟨es ++ fs, by rw [hfs, hes, List.append_assoc]⟩, htu.cfg.trans hst.cfg, htu.stimulus.trans hst.stimulus⟩

@[simp] theorem appends_withTn (tn : TimingNode) : Appends s (t.withTn tn) ↔ Appends s t :=
  ⟨fun h => ⟨h.out, h.cfg, h.stimulus⟩, fun h => ⟨h.out, h.cfg, h.stimulus⟩⟩

@[simp] theorem appends_withCn (cn : CarNode) : Appends s (t.withCn cn) ↔ Appends s t :=
  ⟨fun h => ⟨h.out, h.cfg, h.stimulus⟩, fun h => ⟨h.out, h.cfg, h.stimulus⟩⟩

@[simp] theorem appends_withCh (ch : Channel) : Appends s (t.withCh ch) ↔ Appends s t :=
  ⟨fun h => ⟨h.out, h.cfg, h.stimulus⟩, fun h => ⟨h.out, h.cfg, h.stimulus⟩⟩

@[simp] theorem appends_withTd (td : Decoder) : Appends s (t.withTd td) ↔ Appends s t := appends_withTn _

@[simp] theorem appends_withCar (c : CarIdx) (r : CarRecord) : Appends s (t.withCar c r) ↔ Appends s t :=
  appends_withTn _

@[simp] theorem Appends.emit (o : OutEvent) (h : Appends s t) : Appends s (t.emit o) :=
  h.trans ⟨⟨[o], rfl⟩, rfl, rfl⟩

@[simp] theorem Appends.raise (e : ErrorClass) (h : Appends s t) : Appends s (raise e t) :=
  h.trans ⟨raise_out e t, raise_cfg e t, raise_stimulus e t⟩

@[simp] theorem Appends.tx (dir : Dir) (v : Byte) (h : Appends s t) : Appends s (tx dir v t) :=
  h.trans ⟨⟨_, tx_out dir v t⟩, tx_cfg dir v t, tx_stimulus dir v t⟩

@[simp] theorem Appends.resetDomain (d : Domain) (h : Appends s t) : Appends s (resetDomain d t) :=
  h.trans ⟨⟨[], by simp⟩, resetDomain_cfg d t, resetDomain_stimulus d t⟩

end

/-! ## The rules -/

section
variable (s : State)

theorem serveControls_appends (levels : BitVec 3) : Appends s (serveControls levels s) := by
  obtain ⟨es, target, h⟩ := serveControls_eq levels s
  rw [h]
  exact ⟨⟨es, rfl⟩, rfl, rfl⟩

theorem opticalEdge_appends (sd : Side) (dir : Bool) (ts : U32) :
    (opticalEdge sd dir ts s).All (Appends s) := by
  obtain ⟨-, h⟩ | ⟨-, -, h⟩ | ⟨-, -, -, h⟩ | ⟨-, -, -, h⟩ := opticalEdge_cases sd dir ts s <;> simp [h]

theorem etEdge_appends (u : TimerUnit) (i : Nat) (dir : Bool) (ts : U32) :
    (etEdge u i dir ts s).All (Appends s) := by
  cases u with
  | unit0 => simp [etEdge]
  | unit1 =>
    have hkept : ∀ cn, Appends s (s.withCn cn) := by simp
    have hoptical := fun cn =>
      (opticalEdge_appends (s.withCn cn) (sideOfInput i) dir ts).imp fun _ => (hkept cn).trans
    simp [etEdge, hoptical]

theorem basicFire_appends : (basicFire s).All (Appends s) := by
  obtain ⟨-, h⟩ | ⟨-, h⟩ := basicFire_cases s <;> simp [h]

theorem opticalFire_appends : (opticalFire s).All (Appends s) := by
  obtain ⟨-, -, -, h⟩ | ⟨-, h⟩ := opticalFire_cases s <;> simp [h]

theorem etFire_appends (u : TimerUnit) (ts : U32) : (etFire u ts s).All (Appends s) := by
  cases u with
  | unit0 =>
    have hfire := fun tn => (basicFire_appends (s.withTn tn)).imp fun _ => Appends.trans (s := s) (by simp)
    simp [etFire, hfire]
  | unit1 =>
    have hfire := fun cn => (opticalFire_appends (s.withCn cn)).imp fun _ => Appends.trans (s := s) (by simp)
    simp [etFire, hfire]

theorem takeSample0_appends : Appends s (takeSample0 s) := by simp [takeSample0]

theorem takeSample1_appends : Appends s (takeSample1 s) := by simp [takeSample1]

theorem etTake_appends (u : TimerUnit) : (etTake u s).All (Appends s) := by
  cases u <;> simp [etTake, takeSample0_appends, takeSample1_appends]

theorem ocServe_appends : (ocServe s).All (Appends s) := by
  simp [ocServe, (takeSample0_appends s).trans (serveControls_appends _ _)]

theorem countPassing_appends (c : CarIdx) (ts : U32) : Appends s (countPassing c ts s) := by
  have hpassed : Appends s (s.withCar c (s.tn.cars[c].pass ts)) := by simp
  have hnotified : ∀ t, Appends t (notifyFinishLine c t) := fun t =>
    ⟨⟨_, notifyFinishLine_out c t⟩, notifyFinishLine_cfg c t, notifyFinishLine_stimulus c t⟩
  have hwon : ∀ t, Appends t (win c t) := fun t => ⟨⟨_, win_out c t⟩, win_cfg c t, win_stimulus c t⟩
  rw [countPassing_eq]
  simp only
  split
  · exact (hpassed.trans (hnotified _)).trans (hwon _)
  · exact hpassed.trans (hnotified _)

theorem onCarPassing_appends (c : CarIdx) (ts : U32) : (onCarPassing c ts s).All (Appends s) := by
  simp [onCarPassing, countPassing_appends]

theorem lightTransition_appends (k : LightClass) : Appends s (lightTransition k s) := by
  cases k <;> simp [lightTransition, startRace, stopRace, recordReset]

theorem onLight_appends (ls : Byte) (changed : Bool) : Appends s (onLight ls changed s) := by
  have htransition := lightTransition_appends s (s.cfg.lightClass ls)
  unfold onLight broadcastStatus
  cases changed <;> simp only <;> split <;> simp [htransition]

theorem onEmpty_appends : Appends s (onEmpty s) := by
  unfold onEmpty
  simp only
  split <;> simp

theorem onHeartbeat_appends : Appends s (onHeartbeat s) := by
  refine Appends.trans ?_ (onLight_appends _ _ _)
  unfold noteLight clearEmpty
  simp only
  split <;> simp

theorem onCarTelegram_appends (c : CarIdx) : (onCarTelegram c s).All (Appends s) := by
  obtain ⟨k, -, h⟩ | ⟨-, -, h⟩ | ⟨-, -, h⟩ := onCarTelegram_cases c s <;> simp [h, onCarPassing_appends]

theorem onCarPassingTelegram_appends : (onCarPassingTelegram s).All (Appends s) := by
  have hcleared : Appends s (clearEmpty s) := by simp [clearEmpty]
  unfold onCarPassingTelegram
  simp only
  split
  · simp [hcleared]
  · exact (onCarTelegram_appends _ _).imp fun _ => hcleared.trans

theorem decodeTelegram_appends : (decodeTelegram s).All (Appends s) := by
  obtain ⟨-, h⟩ | ⟨-, h⟩ | ⟨-, -, h⟩ := decodeTelegram_cases s <;>
    simp [h, onHeartbeat_appends, onEmpty_appends, onCarPassingTelegram_appends]

theorem tdDec_appends : (tdDec s).All (Appends s) := by
  have hdecode := fun td => (decodeTelegram_appends (s.withTd td)).imp fun _ => Appends.trans (s := s) (by simp)
  simp [tdDec, hdecode]

theorem cnRx_appends (m : CarMessage) : Appends s (cnRx m s) :=
  ⟨⟨_, cnRx_out m s⟩, cnRx_cfg m s, cnRx_stimulus m s⟩

theorem tnRx_appends (v : Byte) : (tnRx (.setpoint v) s).All (Appends s) := by
  obtain ⟨-, h⟩ | ⟨-, -, h⟩ | ⟨-, -, h⟩ := tnRx_cases v s <;> simp [h]

theorem chDlv_appends (dir : Dir) (v : Byte) : (chDlv dir v s).All (Appends s) := by
  cases dir with
  | t2c =>
    have hrx := fun ch => Appends.trans (s := s) (by simp) (cnRx_appends (s.withCh ch) (decodeT2c v))
    simp [chDlv, hrx]
  | c2t =>
    have hrx := fun ch => (tnRx_appends (s.withCh ch) v).imp fun _ => Appends.trans (s := s) (by simp)
    simp [chDlv, decodeC2t, hrx]

theorem sendSetpoint_appends (v : Byte) : Appends s (sendSetpoint v s) := by simp [sendSetpoint]

theorem cnMeasdone_appends : (cnMeasdone s).All (Appends s) := by
  unfold cnMeasdone
  simp only
  split
  · trivial
  · split <;> simp [sendSetpoint_appends]

/-- Every operation leaves the log as it is or adds to it, and keeps the parameters and the waiting event words. -/
theorem verdict_appends (i : Instr) : (verdict i s).All (Appends s) := by
  cases i with
  | rst dom => simp [verdict, rst]
  | tnRestart => simp [verdict, tnRestart, restartTimingNode]
  | etEdge u i dir ts => exact etEdge_appends s u i dir ts
  | etFire u ts => exact etFire_appends s u ts
  | etTake u => exact etTake_appends s u
  | ocServe => exact ocServe_appends s
  | tdPoll => simp [verdict, tdPoll]
  | tdRxb b => simp [verdict, tdRxb]
  | tdDec => exact tdDec_appends s
  | lePass c ts => simp [verdict, lePass, onCarPassing_appends]
  | leLight ls changed => simp [verdict, leLight, onLight_appends]
  | leRank => simp [verdict, leRank]
  | kaFire => simp [verdict, kaFire]
  | tcSub a b => simp [verdict, tcSub]
  | tcCmp a b => simp [verdict, tcCmp]
  | chDlv dir v => exact chDlv_appends s dir v
  | chDrop dir v => simp [verdict, chDrop]
  | cnSetsp v => simp [verdict, cnSetsp, sendSetpoint_appends]
  | cnFinack => simp [verdict, cnFinack]
  | cnMeasdone => exact cnMeasdone_appends s
  | cnMapset b => simp [verdict, cnMapset]
  | tnLoop => simp [verdict, tnLoop]

end

theorem exec_appends {i : Instr} {s t : State} (h : exec i s = .next t) : Appends s t :=
  of_exec_eq_next (Appends.refl s) (verdict_appends s i) h

/-- Settles O9: a step waits, or consumes one word and runs an operation, which only appends. -/
theorem stepOnlyAppendsToLog : Obligations.StepOnlyAppendsToLog := by
  intro s t h
  obtain ⟨hs, rfl⟩ | ⟨w, ws, i, hs, -, hi⟩ := step_eq_next h
  · exact ⟨⟨[], by simp⟩, rfl, by simp [hs]⟩
  · obtain ⟨hout, hcfg, hstimulus⟩ := exec_appends hi
    exact ⟨hout, hcfg, by simp [hstimulus, hs]⟩

end Sys2Proof.Machine
end

section
/-! An operation of one node neither reads nor writes the other (R20, R304; O57).

The one idea: giving the other node any state before the operation, or after it, comes to the same
(`verdict_withCn`, `verdict_withTn`). With the state the other node has, this says that the operation leaves it
alone. -/

namespace Sys2Proof.Machine

/-- The verdict with the state it steps or drops to changed by `f`. -/
def Verdict.map (f : State → State) : Verdict → Verdict
  | .step t => .step (f t)
  | .drop t => .drop (f t)
  | .hold => .hold
  | .refuse why => .refuse why
  | .fault why => .fault why

section
variable (f : State → State)

@[simp] theorem Verdict.map_step (t : State) : (Verdict.step t).map f = .step (f t) := rfl
@[simp] theorem Verdict.map_drop (t : State) : (Verdict.drop t).map f = .drop (f t) := rfl
@[simp] theorem Verdict.map_hold : Verdict.hold.map f = .hold := rfl
@[simp] theorem Verdict.map_refuse (r : Refusal) : (Verdict.refuse r).map f = .refuse r := rfl
@[simp] theorem Verdict.map_fault (r : Fault) : (Verdict.fault r).map f = .fault r := rfl

theorem Verdict.map_ite {p : Prop} [Decidable p] {v w : Verdict} :
    (if p then v else w).map f = if p then v.map f else w.map f := apply_ite (Verdict.map f) p v w

end

/-! ## Another Car Node -/

section
variable (s : State) (cn : CarNode)

theorem txTimes_withCn (dir : Dir) (v : Byte) (n : Nat) :
    txTimes dir v n (s.withCn cn) = (txTimes dir v n s).withCn cn := by
  induction n generalizing s with
  | zero => rfl
  | succ n ih => exact ih (txOnce dir v s)

theorem tx_withCn (dir : Dir) (v : Byte) : tx dir v (s.withCn cn) = (tx dir v s).withCn cn :=
  txTimes_withCn s cn dir v s.cfg.resend

theorem raise_withCn (e : ErrorClass) : raise e (s.withCn cn) = (raise e s).withCn cn := by cases e <;> rfl

theorem serveControls_withCn (levels : BitVec 3) :
    serveControls levels (s.withCn cn) = (serveControls levels s).withCn cn := by
  simp only [serveControls, apply_ite (State.withCn · cn)]
  rfl

theorem notifyFinishLine_withCn (c : CarIdx) :
    notifyFinishLine c (s.withCn cn) = (notifyFinishLine c s).withCn cn := by
  simp only [notifyFinishLine, tx_withCn, apply_ite (State.withCn · cn)]

theorem win_withCn (c : CarIdx) : win c (s.withCn cn) = (win c s).withCn cn := by
  simp only [win, ← tx_withCn]
  rfl

theorem testWin_withCn (c : CarIdx) : testWin c (s.withCn cn) = (testWin c s).withCn cn := by
  simp only [testWin, win_withCn, apply_ite (State.withCn · cn)]
  rfl

theorem countPassing_withCn (c : CarIdx) (ts : U32) :
    countPassing c ts (s.withCn cn) = (countPassing c ts s).withCn cn := by
  have hcar : (s.withCn cn).withCar c ((s.withCn cn).tn.cars[c].pass ts) =
    (s.withCar c (s.tn.cars[c].pass ts)).withCn cn := rfl
  simp only [countPassing, hcar, notifyFinishLine_withCn, testWin_withCn]

theorem onCarPassing_withCn (c : CarIdx) (ts : U32) :
    onCarPassing c ts (s.withCn cn) = (onCarPassing c ts s).map (·.withCn cn) := by
  simp only [onCarPassing, raise_withCn, countPassing_withCn, Verdict.map_ite, Verdict.map_step, Verdict.map_drop]
  rfl

theorem lightTransition_withCn (k : LightClass) :
    lightTransition k (s.withCn cn) = (lightTransition k s).withCn cn := by cases k <;> rfl

theorem onLight_withCn (ls : Byte) (changed : Bool) :
    onLight ls changed (s.withCn cn) = (onLight ls changed s).withCn cn := by
  simp only [onLight, broadcastStatus, lightTransition_withCn, apply_ite (State.withCn · cn), ← tx_withCn]
  cases changed <;> rfl

theorem onEmpty_withCn : onEmpty (s.withCn cn) = (onEmpty s).withCn cn := by
  simp only [onEmpty, apply_ite (State.withCn · cn), ← raise_withCn]
  rfl

theorem onHeartbeat_withCn : onHeartbeat (s.withCn cn) = (onHeartbeat s).withCn cn := by
  have hnote : ∀ ls changed, noteLight ls changed (clearEmpty (s.withCn cn)) =
      (noteLight ls changed (clearEmpty s)).withCn cn := fun ls changed => by cases changed <;> rfl
  simp only [onHeartbeat, hnote, onLight_withCn, State.withCn_tn]

theorem onCarTelegram_withCn (c : CarIdx) :
    onCarTelegram c (s.withCn cn) = (onCarTelegram c s).map (·.withCn cn) := by
  simp only [onCarTelegram, State.withCn_tn]
  split
  · rfl
  · simp only [onCarPassing_withCn, Verdict.map_ite]
    rfl

theorem onCarPassingTelegram_withCn :
    onCarPassingTelegram (s.withCn cn) = (onCarPassingTelegram s).map (·.withCn cn) := by
  have hclear : clearEmpty (s.withCn cn) = (clearEmpty s).withCn cn := rfl
  simp only [onCarPassingTelegram, hclear, State.withCn_tn]
  split
  · rfl
  · exact onCarTelegram_withCn _ _ _

theorem decodeTelegram_withCn : decodeTelegram (s.withCn cn) = (decodeTelegram s).map (·.withCn cn) := by
  simp only [decodeTelegram, State.withCn_tn, onHeartbeat_withCn, onEmpty_withCn, onCarPassingTelegram_withCn]
  split <;> rfl

theorem tnRx_withCn (m : TimingMessage) : tnRx m (s.withCn cn) = (tnRx m s).map (·.withCn cn) := by
  cases m with
  | setpoint v =>
    simp only [tnRx, Verdict.map_ite]
    rfl

/-- An operation of the Timing Node does not read or write the Car Node. -/
theorem verdict_withCn {i : Instr} (h : i.node = .timing) :
    verdict i (s.withCn cn) = (verdict i s).map (·.withCn cn) := by
  cases i with
  | rst dom =>
    cases dom with
    | tn => rfl
    | cn | all => cases h
  | tnRestart => simp only [verdict, tnRestart, Verdict.map_ite]; rfl
  | etEdge u i dir ts =>
    cases u with
    | unit0 => simp only [verdict, etEdge, Verdict.map_ite]; rfl
    | unit1 => cases h
  | etFire u ts =>
    cases u with
    | unit0 => simp only [verdict, etFire, basicFire, Verdict.map_ite]; rfl
    | unit1 => cases h
  | etTake u =>
    cases u with
    | unit0 => simp only [verdict, etTake, Verdict.map_ite]; rfl
    | unit1 => cases h
  | ocServe =>
    have hserve := serveControls_withCn (takeSample0 s) cn s.tn.et.smpLevels
    simp only [verdict, ocServe, Verdict.map_ite, Verdict.map_step, ← hserve]; rfl
  | tdPoll => simp only [verdict, tdPoll, Verdict.map_ite]; rfl
  | tdRxb b => simp only [verdict, tdRxb, Verdict.map_ite]; rfl
  | tdDec => simp only [verdict, tdDec, Verdict.map_ite, ← decodeTelegram_withCn]; rfl
  | lePass c ts => simp only [verdict, lePass, Verdict.map_ite, onCarPassing_withCn]; rfl
  | leLight ls changed => simp only [verdict, leLight, Verdict.map_ite, onLight_withCn]; rfl
  | leRank => simp only [verdict, leRank, Verdict.map_ite]; rfl
  | kaFire => simp only [verdict, kaFire, Verdict.map_ite]; rfl
  | tcSub a b => simp only [verdict, tcSub, Verdict.map_ite]; rfl
  | tcCmp a b => simp only [verdict, tcCmp, Verdict.map_ite]; rfl
  | chDlv dir v =>
    cases dir with
    | t2c => cases h
    | c2t => simp only [verdict, chDlv, Verdict.map_ite, ← tnRx_withCn]; rfl
  | tnLoop => simp only [verdict, tnLoop, tx_withCn, Verdict.map_ite]; rfl
  | _ => cases h

end

/-! ## Another Timing Node -/

section
variable (s : State) (tn : TimingNode)

theorem txTimes_withTn (dir : Dir) (v : Byte) (n : Nat) :
    txTimes dir v n (s.withTn tn) = (txTimes dir v n s).withTn tn := by
  induction n generalizing s with
  | zero => rfl
  | succ n ih => exact ih (txOnce dir v s)

theorem tx_withTn (dir : Dir) (v : Byte) : tx dir v (s.withTn tn) = (tx dir v s).withTn tn :=
  txTimes_withTn s tn dir v s.cfg.resend

theorem opticalEdge_withTn (sd : Side) (dir : Bool) (ts : U32) :
    opticalEdge sd dir ts (s.withTn tn) = (opticalEdge sd dir ts s).map (·.withTn tn) := by
  simp only [opticalEdge, Verdict.map_ite]
  rfl

theorem opticalFire_withTn : opticalFire (s.withTn tn) = (opticalFire s).map (·.withTn tn) := by
  simp only [opticalFire, Verdict.map_ite]
  rfl

theorem cnRx_withTn (m : CarMessage) : cnRx m (s.withTn tn) = (cnRx m s).withTn tn := by
  cases m with
  | status st => cases st <;> rfl
  | finishLine => rfl
  | loopbackAck => rfl
  | reserved v => rfl

theorem sendSetpoint_withTn (v : Byte) : sendSetpoint v (s.withTn tn) = (sendSetpoint v s).withTn tn := by
  simp only [sendSetpoint, tx_withTn]
  rfl

/-- An operation of the Car Node does not read or write the Timing Node. -/
theorem verdict_withTn {i : Instr} (h : i.node = .car) :
    verdict i (s.withTn tn) = (verdict i s).map (·.withTn tn) := by
  cases i with
  | rst dom =>
    cases dom with
    | cn => rfl
    | tn | all => cases h
  | etEdge u i dir ts =>
    cases u with
    | unit0 => cases h
    | unit1 => simp only [verdict, etEdge, Verdict.map_ite, ← opticalEdge_withTn]; rfl
  | etFire u ts =>
    cases u with
    | unit0 => cases h
    | unit1 => simp only [verdict, etFire, Verdict.map_ite, ← opticalFire_withTn]; rfl
  | etTake u =>
    cases u with
    | unit0 => cases h
    | unit1 => simp only [verdict, etTake, Verdict.map_ite]; rfl
  | chDlv dir v =>
    cases dir with
    | t2c => simp only [verdict, chDlv, Verdict.map_ite, Verdict.map_step, ← cnRx_withTn]; rfl
    | c2t => cases h
  | cnSetsp v => simp only [verdict, cnSetsp, sendSetpoint_withTn, Verdict.map_ite]; rfl
  | cnFinack => rfl
  | cnMeasdone =>
    simp only [verdict, cnMeasdone, sendSetpoint_withTn, Verdict.map_ite, ← apply_ite (State.withTn · tn)]
    rfl
  | cnMapset b => rfl
  | _ => cases h

end

/-! ## Isolation -/

/-- The outcome with the next state changed by `f`. -/
def mapNext (f : State → State) : Host.Outcome State Fault Refusal → Host.Outcome State Fault Refusal
  | .next t => .next (f t)
  | .fault why => .fault why
  | .refused why => .refused why

theorem Verdict.outcome_map (f : State → State) (v : Verdict) (s : State) :
    (v.map f).outcome (f s) = mapNext f (v.outcome s) := by cases v <;> rfl

section
variable {i : Instr} {s : State}

theorem exec_withCn (s : State) (cn : CarNode) (h : i.node = .timing) :
    exec i (s.withCn cn) = mapNext (·.withCn cn) (exec i s) := by
  rw [exec_eq_outcome, exec_eq_outcome, verdict_withCn s cn h]
  exact Verdict.outcome_map (·.withCn cn) (verdict i s) s

theorem exec_withTn (s : State) (tn : TimingNode) (h : i.node = .car) :
    exec i (s.withTn tn) = mapNext (·.withTn tn) (exec i s) := by
  rw [exec_eq_outcome, exec_eq_outcome, verdict_withTn s tn h]
  exact Verdict.outcome_map (·.withTn tn) (verdict i s) s

/-- An operation of the Timing Node leaves the Car Node as it is: it ends the same with the state that node has. -/
theorem exec_timing_cn {t : State} (h : i.node = .timing) (ht : exec i s = .next t) : t.cn = s.cn := by
  have hsame : exec i s = mapNext (·.withCn s.cn) (exec i s) := exec_withCn s s.cn h
  rw [ht] at hsame
  injection hsame with hsame
  exact (congrArg State.cn hsame :)

/-- An operation of the Car Node leaves the Timing Node as it is. -/
theorem exec_car_tn {t : State} (h : i.node = .car) (ht : exec i s = .next t) : t.tn = s.tn := by
  have hsame : exec i s = mapNext (·.withTn s.tn) (exec i s) := exec_withTn s s.tn h
  rw [ht] at hsame
  injection hsame with hsame
  exact (congrArg State.tn hsame :)

end

/-- Settles O57. -/
theorem nodesAreIsolated : Obligations.NodesAreIsolated := by
  intro s i
  refine ⟨fun h cn => ?_, fun h tn => ?_⟩
  · have hother : exec i { s with cn := cn } = mapNext (·.withCn cn) (exec i s) := exec_withCn s cn h
    cases ht : exec i s with
    | next t => exact ⟨exec_timing_cn h ht, by rw [hother, ht]; rfl⟩
    | fault f => simp only [hother, ht, mapNext]
    | refused r => simp only [hother, ht, mapNext]
  · have hother : exec i { s with tn := tn } = mapNext (·.withTn tn) (exec i s) := exec_withTn s tn h
    cases ht : exec i s with
    | next t => exact ⟨exec_car_tn h ht, by rw [hother, ht]; rfl⟩
    | fault f => simp only [hother, ht, mapNext]
    | refused r => simp only [hother, ht, mapNext]

end Sys2Proof.Machine
end

section
/-! What writes a CarRecord and what starts a race (R22, R27, R222; O59, O60). -/

namespace Sys2Proof.Machine

/-- `t` has the records and the race status of `s`. -/
structure SameRace (s t : State) : Prop where
  cars : t.tn.cars = s.tn.cars
  status : t.tn.status = s.tn.status

/-- The operations that can write a CarRecord or the race status. -/
def writesRace : Instr → Bool
  | .rst .tn | .rst .all | .tnRestart | .tdDec | .lePass _ _ | .leLight _ _ | .leRank => true
  | _ => false

section
variable {s t : State}

@[simp] theorem SameRace.refl (s : State) : SameRace s s := ⟨rfl, rfl⟩

theorem SameRace.trans {u : State} (hst : SameRace s t) (htu : SameRace t u) : SameRace s u :=
  ⟨htu.cars.trans hst.cars, htu.status.trans hst.status⟩

theorem sameRace_iff : SameRace s t ↔ t.tn.cars = s.tn.cars ∧ t.tn.status = s.tn.status :=
  ⟨fun h => ⟨h.cars, h.status⟩, fun h => ⟨h.1, h.2⟩⟩

/-- The records and the status are registers of the Timing Node. -/
theorem SameRace.of_tn (h : t.tn = s.tn) : SameRace s t := ⟨by rw [h], by rw [h]⟩

theorem sameRace_takeSample0 (s : State) : SameRace s (takeSample0 s) := ⟨rfl, rfl⟩

theorem sameRace_serveControls (levels : BitVec 3) (s : State) : SameRace s (serveControls levels s) := by
  obtain ⟨es, target, h⟩ := serveControls_eq levels s
  rw [h]
  exact ⟨rfl, rfl⟩

theorem sameRace_basicFire (s : State) : (basicFire s).All (SameRace s) := by
  obtain ⟨-, h⟩ | ⟨-, h⟩ := basicFire_cases s <;> rw [h] <;> exact ⟨rfl, rfl⟩

theorem sameRace_tnRx (v : Byte) (s : State) : (tnRx (.setpoint v) s).All (SameRace s) := by
  obtain ⟨-, h⟩ | ⟨-, -, h⟩ | ⟨-, -, h⟩ := tnRx_cases v s <;> rw [h] <;> exact ⟨rfl, rfl⟩

/-- No other operation writes a record or the status. -/
theorem exec_sameRace {i : Instr} (hw : writesRace i = false) (h : exec i s = .next t) : SameRace s t := by
  have hcar : i.node = .car → SameRace s t := fun hi => .of_tn (exec_car_tn hi h)
  have hverdict : (verdict i s).All (SameRace s) → SameRace s t := fun hv => of_exec_eq_next (.refl s) hv h
  cases i with
  | rst dom =>
    cases dom with
    | cn => exact hcar rfl
    | tn | all => cases hw
  | etEdge u i dir ts =>
    cases u with
    | unit0 => exact hverdict (by simp [verdict, etEdge, sameRace_iff])
    | unit1 => exact hcar rfl
  | etFire u ts =>
    cases u with
    | unit0 =>
      have hfire : ∀ et, (basicFire (s.withTn { s.tn with et := et })).All (SameRace s) := fun et =>
        (sameRace_basicFire _).imp fun _ => SameRace.trans (t := s.withTn _) ⟨rfl, rfl⟩
      exact hverdict (by simp [verdict, etFire, hfire])
    | unit1 => exact hcar rfl
  | etTake u =>
    cases u with
    | unit0 => exact hverdict (by simp [verdict, etTake, sameRace_takeSample0])
    | unit1 => exact hcar rfl
  | ocServe =>
    have hserved := (sameRace_takeSample0 s).trans (sameRace_serveControls s.tn.et.smpLevels _)
    exact hverdict (by simp [verdict, ocServe, hserved])
  | tdPoll => exact hverdict (by simp [verdict, tdPoll, sameRace_iff])
  | tdRxb b => exact hverdict (by simp [verdict, tdRxb, sameRace_iff])
  | kaFire => exact hverdict (by simp [verdict, kaFire, sameRace_iff])
  | tcSub a b => exact hverdict (by simp [verdict, tcSub, sameRace_iff])
  | tcCmp a b => exact hverdict (by simp [verdict, tcCmp, sameRace_iff])
  | chDlv dir v =>
    cases dir with
    | t2c => exact hcar rfl
    | c2t =>
      have hrx : ∀ ch, (tnRx (.setpoint v) (s.withCh ch)).All (SameRace s) := fun ch =>
        (sameRace_tnRx v (s.withCh ch)).imp fun _ => SameRace.trans ⟨rfl, rfl⟩
      exact hverdict (by simp [verdict, chDlv, decodeC2t, hrx])
  | chDrop dir v => exact hverdict (by simp [verdict, chDrop, sameRace_iff])
  | cnSetsp v => exact hcar rfl
  | cnFinack => exact hcar rfl
  | cnMeasdone => exact hcar rfl
  | cnMapset b => exact hcar rfl
  | tnLoop => exact hverdict (by simp [verdict, tnLoop, sameRace_iff])
  | _ => cases hw

end

/-! ## A passing -/

/-- A passing of car `c` writes no other record, keeps the position, and starts no race. -/
structure PassingWrites (c : CarIdx) (s t : State) : Prop where
  others : ∀ d, d ≠ c → t.tn.cars[d] = s.tn.cars[d]
  position : t.tn.cars[c].position = s.tn.cars[c].position
  starts : t.tn.status = .raceGoing → s.tn.status = .raceGoing

section
variable {c : CarIdx} {s t u : State}

theorem SameRace.passingWrites (h : SameRace s t) : PassingWrites c s t :=
  ⟨fun d _ => by rw [h.cars], by rw [h.cars], fun ht => by rwa [h.status] at ht⟩

theorem SameRace.trans_passingWrites (hst : SameRace s t) (htu : PassingWrites c t u) : PassingWrites c s u := by
  obtain ⟨hothers, hposition, hstarts⟩ := htu
  rw [hst.cars] at hothers hposition
  rw [hst.status] at hstarts
  exact ⟨hothers, hposition, hstarts⟩

theorem countPassing_passingWrites (c : CarIdx) (ts : U32) (s : State) :
    PassingWrites c s (countPassing c ts s) where
  others d hd := by rw [countPassing_cars, getElem_set_car, if_neg hd]
  position := by rw [countPassing_cars, getElem_set_car, if_pos rfl, CarRecord.pass_position]
  starts h := by
    rw [countPassing_eq] at h
    simp only at h
    split at h
    · simp [win_tn] at h
    · simpa [notifyFinishLine_tn] using h

theorem onCarPassing_passingWrites (c : CarIdx) (ts : U32) (s : State) :
    (onCarPassing c ts s).All (PassingWrites c s) := by
  obtain ⟨-, h⟩ | ⟨-, -, h⟩ | ⟨-, -, h⟩ := onCarPassing_cases c ts s <;> rw [h]
  · exact SameRace.passingWrites ⟨rfl, rfl⟩
  · exact SameRace.passingWrites ⟨rfl, rfl⟩
  · exact countPassing_passingWrites c ts s

end

/-! ## A light -/

/-- A light starts a race only when it changed to one of class AllClear. -/
theorem onLight_starts {ls : Byte} {changed : Bool} {s : State} (hs : s.tn.status = .noRaceGoing)
    (h : (onLight ls changed s).tn.status = .raceGoing) :
    changed = true ∧ s.cfg.lightClass ls = .allClear := by
  have hstatus : (onLight ls changed s).tn.status =
      if changed then (lightTransition (s.cfg.lightClass ls) s).tn.status else s.tn.status := by
    unfold onLight broadcastStatus
    cases changed <;> simp only <;> split <;> simp
  rw [hstatus] at h
  cases changed with
  | false => simp [hs] at h
  | true =>
    cases hk : s.cfg.lightClass ls with
    | allClear => exact ⟨rfl, rfl⟩
    | ready | countdown | earlyStart | idle => simp [hk, lightTransition_status, hs] at h

theorem lightChanged_iff (td : Decoder) (ls : Byte) :
    td.lightChanged ls = true ↔ td.prevLightValid = false ∨ td.prevLight ≠ ls := by
  simp [Decoder.lightChanged]

/-! ## A telegram -/

/-- The digit byte of a car is `0x31` and its index (R94). -/
theorem carOfDigit_eq_some {b : Byte} {c : CarIdx} (h : carOfDigit b = some c) : b.toNat = 0x31 + c.val := by
  unfold carOfDigit carDigit at h
  split at h
  · cases h
    simp only
    bv_omega
  · cases h

/-- Clearing the empty counter and noting a light in the decoder writes neither records nor status. -/
theorem sameRace_noteLight (ls : Byte) (changed : Bool) (s : State) :
    SameRace s (noteLight ls changed (clearEmpty s)) := by cases changed <;> exact ⟨rfl, rfl⟩

theorem noteLight_cfg (ls : Byte) (changed : Bool) (s : State) :
    (noteLight ls changed (clearEmpty s)).cfg = s.cfg := by cases changed <;> rfl

theorem sameRace_onEmpty (s : State) : SameRace s (onEmpty s) := by
  unfold onEmpty
  simp only
  split
  · rw [raise_linkSilence]; exact ⟨rfl, rfl⟩
  · exact ⟨rfl, rfl⟩

/-- A CarPassing telegram changes nothing of the race, or is a passing of the car of its digit. -/
theorem onCarPassingTelegram_race (s : State) : (onCarPassingTelegram s).All fun t =>
    SameRace s t ∨ ∃ c : CarIdx, (s.tn.td.buf.read 1).toNat = 0x31 + c.val ∧ PassingWrites c s t := by
  have hclear : SameRace s (clearEmpty s) := ⟨rfl, rfl⟩
  unfold onCarPassingTelegram
  simp only
  split
  · exact .inl (hclear.trans ⟨rfl, rfl⟩)
  · rename_i c hc
    have hdigit := carOfDigit_eq_some hc
    obtain ⟨k, -, h⟩ | ⟨-, -, h⟩ | ⟨-, -, h⟩ := onCarTelegram_cases c (clearEmpty s) <;> rw [h]
    · exact .inl (hclear.trans ⟨rfl, rfl⟩)
    · exact .inl (hclear.trans ⟨rfl, rfl⟩)
    · exact (onCarPassing_passingWrites c _ _).imp fun t ht => .inr ⟨c, hdigit, hclear.trans_passingWrites ht⟩

/-- What a decoded telegram does to the race: nothing, a passing of the car of its digit, or what `LE.LIGHT` does
with the light state it holds. -/
inductive TelegramRace (s t : State) : Prop where
  | same (h : SameRace s t)
  | passing (c : CarIdx) (hdigit : (s.tn.td.buf.read 1).toNat = 0x31 + c.val) (h : PassingWrites c s t)
  | light (hclass : s.tn.td.buf.read 1 = 0x3A) (u : State) (hu : SameRace s u) (hcfg : u.cfg = s.cfg)
      (ht : t = onLight (s.tn.td.buf.read 10) (s.tn.td.lightChanged (s.tn.td.buf.read 10)) u)

theorem tdDec_race (s : State) : (tdDec s).All (TelegramRace s) := by
  have hclosed : ∀ td, SameRace s (s.withTd td) := fun _ => ⟨rfl, rfl⟩
  unfold tdDec
  simp only [Verdict.all_ite, Verdict.all_drop, Verdict.all_refuse]
  refine ⟨fun _ => .same (.refl s), fun _ => ⟨fun _ => trivial, fun _ => ?_⟩⟩
  obtain ⟨hclass, h⟩ | ⟨-, h⟩ | ⟨-, -, h⟩ :=
    decodeTelegram_cases (s.withTd { s.tn.td with isOpen := false }) <;> rw [h]
  · refine .light hclass (noteLight _ _ (clearEmpty _)) ?_ ?_ rfl
    · exact (hclosed _).trans (sameRace_noteLight _ _ _)
    · exact noteLight_cfg _ _ _
  · exact .same ((hclosed _).trans (sameRace_onEmpty _))
  · refine (onCarPassingTelegram_race _).imp fun t ht => ?_
    obtain hsame | ⟨c, hdigit, hpass⟩ := ht
    · exact .same ((hclosed _).trans hsame)
    · exact .passing c hdigit ((hclosed _).trans_passingWrites hpass)

/-! ## The operations that reach the race -/

theorem exec_lePass_passingWrites {c : CarIdx} {ts : U32} {s t : State} (h : exec (.lePass c ts) s = .next t) :
    PassingWrites c s t := by
  have hsame : PassingWrites c s s := (SameRace.refl s).passingWrites
  have hpass := onCarPassing_passingWrites c ts s
  exact of_exec_eq_next hsame (by simp [verdict, lePass, hsame, hpass]) h

theorem exec_leLight_race {ls : Byte} {changed : Bool} {s t : State} (h : exec (.leLight ls changed) s = .next t) :
    SameRace s t ∨ t = onLight ls changed s :=
  of_exec_eq_next (P := fun t => SameRace s t ∨ t = onLight ls changed s) (.inl (.refl s))
    (by simp [verdict, leLight]) h

theorem exec_tdDec_race {s t : State} (h : exec .tdDec s = .next t) : TelegramRace s t :=
  of_exec_eq_next (i := .tdDec) (.same (.refl s)) (tdDec_race s) h

/-! ## The two statements -/

theorem ranked_cars (cars : Vector CarRecord 4) (c : CarIdx) :
    #v[ranked cars 0, ranked cars 1, ranked cars 2, ranked cars 3][c] = ranked cars c := by
  match c with
  | 0 | 1 | 2 | 3 => rfl

/-- A passing of a car whose record changed is a passing of this car. -/
theorem PassingWrites.eq_of_ne {c d : CarIdx} {s t : State} (h : PassingWrites c s t)
    (hne : t.tn.cars[d] ≠ s.tn.cars[d]) : d = c := by
  by_contra hd
  exact hne (h.others d hd)

/-- Settles O59: only the operations of `writesRace` reach a record, each in its own way. -/
theorem recordWriters : Obligations.RecordWriters := by
  intro s t i c h hne
  have hother : writesRace i ≠ false := fun hw => hne (by rw [(exec_sameRace hw h).cars])
  have hsame : ¬SameRace s t := fun hs => hne (by rw [hs.cars])
  cases i with
  | tnRestart => simp
  | rst dom =>
    cases dom with
    | tn | all => simp
    | cn => exact absurd rfl hother
  | lePass d ts =>
    have hpass := exec_lePass_passingWrites h
    obtain rfl := hpass.eq_of_ne hne
    exact .inl ⟨.inl ⟨ts, rfl⟩, hpass.position⟩
  | leLight ls changed =>
    obtain rfl := (exec_leLight_race h).resolve_left hsame
    rw [onLight_cars] at hne
    split at hne
    · rename_i hready
      obtain ⟨rfl, hready⟩ := hready
      exact .inr (.inl ⟨ls, rfl, hready⟩)
    · exact absurd rfl hne
  | tdDec =>
    cases exec_tdDec_race h with
    | same hst => exact absurd hst hsame
    | passing d hdigit hpass =>
      obtain rfl := hpass.eq_of_ne hne
      exact .inl ⟨.inr ⟨rfl, hdigit⟩, hpass.position⟩
    | light hclass u hu hcfg ht =>
      rw [ht, onLight_cars, hu.cars, hcfg] at hne
      split at hne
      · rename_i hready
        obtain ⟨hchanged, hready⟩ := hready
        exact .inr (.inr (.inl ⟨rfl, hclass, hready, (lightChanged_iff _ _).1 hchanged⟩))
      · exact absurd rfl hne
  | leRank =>
    have hrank : SameRace s t ∨ t.tn.cars[c] = ranked s.tn.cars c :=
      of_exec_eq_next (P := fun t => SameRace s t ∨ t.tn.cars[c] = ranked s.tn.cars c) (.inl (.refl s))
        (by simp [verdict, leRank, ranked_cars, -Fin.getElem_fin]) h
    have hranked := hrank.resolve_left hsame
    exact .inr (.inr (.inr (.inl ⟨rfl, by rw [hranked]; rfl⟩)))
  | _ => exact absurd rfl hother

/-- Settles O60: a race is started by a light alone, and a restart or a reset ends with none going. -/
theorem raceStartsOnlyOnAllClear : Obligations.RaceStartsOnlyOnAllClear := by
  intro s t i h hs ht
  have hother : writesRace i ≠ false := fun hw => by simp [(exec_sameRace hw h).status, hs] at ht
  have hsame : ¬SameRace s t := fun hst => by simp [hst.status, hs] at ht
  have hpass : ∀ c, ¬PassingWrites c s t := fun c hp => by simp [hp.starts ht] at hs
  cases i with
  | tnRestart =>
    have hstopped : t.tn.status = .noRaceGoing :=
      of_exec_eq_next (P := fun t => t.tn.status = .noRaceGoing) hs
        (by simp [verdict, tnRestart, restartTimingNode_eq, TimingNode.reset]) h
    simp [hstopped] at ht
  | rst dom =>
    have hstopped : t.tn.status = .noRaceGoing :=
      of_exec_eq_next (P := fun t => t.tn.status = .noRaceGoing) hs
        (by cases dom <;> simp [verdict, rst, resetDomain_tn, TimingNode.reset, hs]) h
    simp [hstopped] at ht
  | lePass d ts => exact absurd (exec_lePass_passingWrites h) (hpass d)
  | leLight ls changed =>
    obtain rfl := (exec_leLight_race h).resolve_left hsame
    obtain ⟨rfl, hclear⟩ := onLight_starts hs ht
    exact .inl ⟨ls, rfl, hclear⟩
  | tdDec =>
    cases exec_tdDec_race h with
    | same hst => exact absurd hst hsame
    | passing d _ hp => exact absurd hp (hpass d)
    | light hclass u hu hcfg hlight =>
      rw [hlight] at ht
      obtain ⟨hchanged, hclear⟩ := onLight_starts (hu.status.trans hs) ht
      exact .inr ⟨rfl, hclass, hcfg ▸ hclear, (lightChanged_iff _ _).1 hchanged⟩
  | leRank =>
    have hstatus : t.tn.status = s.tn.status :=
      of_exec_eq_next (P := fun t => t.tn.status = s.tn.status) rfl (by simp [verdict, leRank]) h
    simp [hstatus, hs] at ht
  | _ => exact absurd rfl hother

end Sys2Proof.Machine
end

section
/-! What the state is after reset (R52; O53, O54). -/

namespace Sys2Proof.Machine

theorem reset_pin {n i : Nat} (active : Bool) (h : i < n) :
    (EventTimer.reset (n := n) active).pin.getLsbD i = !active := by
  cases active <;> simp [EventTimer.reset, h]

theorem reset_cars (cfg : Config) (c : CarIdx) : (TimingNode.reset cfg).cars[c] = CarRecord.reset := by
  simp [TimingNode.reset]

/-- Settles O53. -/
theorem resetValues : Obligations.ResetValues := by
  intro cfg s
  refine ⟨fun i hi => reset_pin cfg.active0 hi, fun i hi => reset_pin cfg.active1 hi, fun c => ?_, fun _ => rfl, rfl,
    rfl, fun d => ?_, rfl⟩
  · have hc : s.tn.cars[c] = CarRecord.reset := reset_cars cfg c
    rw [hc]
    exact ⟨rfl, rfl, rfl, rfl, rfl, rfl, fun _ => rfl, rfl, rfl⟩
  · cases d <;> rfl

end Sys2Proof.Machine
end

section
/-! The parts of the invariant of Safety.lean: what each says, and the writes that keep it. -/

namespace Sys2Proof.Machine

/-! ## Records (R23, R53) -/

theorem CarRecord.wf_iff (r : CarRecord) : r.wf = true ↔
    r.hist.wf = true ∧ (∀ c ∈ r.hist, c.1 < r.lapCount.toNat) ∧ r.lapSum = r.histSum ∧ r.hist.read 0 = 0 ∧
    (r.lapCount = 0 ∨ r.lastTs ≠ 0) ∧ (r.lapCount ≠ 0 ∨ r.blank = true) ∧
    (r.prevTs = 0 ∨ r.lapTime = wsub32 r.lastTs r.prevTs) := by
  simp [CarRecord.wf, and_assoc]

theorem CarRecord.reset_wf : CarRecord.reset.wf = true := by decide

theorem CarRecord.blank_iff (r : CarRecord) : r.blank = true ↔
    r.lastTs = 0 ∧ r.prevTs = 0 ∧ r.lapTime = 0 ∧ r.prevLapTime = 0 ∧ r.improvement = 0 := by
  simp [CarRecord.blank, and_assoc]

section
variable {r : CarRecord} {ts : U32}

/-- Below 255 the count after a passing has not wrapped. -/
theorem CarRecord.pass_lapCount_toNat (hfull : r.lapCount ≠ 255) :
    (r.pass ts).lapCount.toNat = r.lapCount.toNat + 1 := by
  rw [CarRecord.pass_lapCount]
  bv_omega

/-- The lap appended is the one more summand. -/
theorem CarRecord.pass_histSum (hfull : r.lapCount ≠ 255) :
    (r.pass ts).histSum = r.histSum + (r.pass ts).lapTime.toNat := by
  have hbefore : ∀ i ∈ List.range r.lapCount.toNat, (r.pass ts).hist.read i = r.hist.read i := fun i hi => by
    rw [CarRecord.pass_hist, Mem.read_write_ne _ _ _ _ (Nat.ne_of_lt (List.mem_range.1 hi))]
  unfold CarRecord.histSum
  rw [CarRecord.pass_lapCount_toNat hfull, List.range_succ, List.map_append, List.sum_append]
  congr 1
  · rw [List.map_congr_left fun i hi => congrArg BitVec.toNat (hbefore i hi)]
  · simp [CarRecord.pass_hist]

/-- The first passing appends the unmeasured lap 0 (R213), every other one leaves the first entry alone. -/
theorem CarRecord.pass_hist_zero (h : r.wf = true) : (r.pass ts).hist.read 0 = 0 := by
  obtain ⟨-, -, -, hzero, -, hblank, -⟩ := (CarRecord.wf_iff r).1 h
  rw [CarRecord.pass_hist]
  by_cases hcount : r.lapCount = 0
  · obtain ⟨hlast, -, hlap, -, -⟩ := (CarRecord.blank_iff r).1 (hblank.resolve_left (not_not_intro hcount))
    simp [hcount, CarRecord.pass_lapTime, hlast, hlap]
  · rw [Mem.read_write_ne _ _ _ _ (by bv_omega), hzero]

/-- A counted passing at a time that is not zero keeps the invariants of its record. -/
theorem CarRecord.pass_wf (h : r.wf = true) (hfull : r.lapCount ≠ 255) (hts : ts ≠ 0) : (r.pass ts).wf = true := by
  obtain ⟨hhist, hbound, hsum, -, -, -, -⟩ := (CarRecord.wf_iff r).1 h
  refine (CarRecord.wf_iff _).2 ⟨CarRecord.pass_hist_wf r ts hhist, fun c hc => ?_, ?_, CarRecord.pass_hist_zero h,
    .inr ?_, .inl ?_, ?_⟩
  · rw [CarRecord.pass_lapCount_toNat hfull]
    rw [CarRecord.pass_hist] at hc
    obtain rfl | hold := Mem.mem_write hc
    · exact Nat.lt_succ_self _
    · exact (hbound c hold).trans (Nat.lt_succ_self _)
  · rw [CarRecord.pass_lapSum, CarRecord.pass_histSum hfull, hsum]
  · rwa [CarRecord.pass_lastTs]
  · have hcount := CarRecord.pass_lapCount_toNat (ts := ts) hfull
    bv_omega
  · rw [CarRecord.pass_prevTs, CarRecord.pass_lapTime, CarRecord.pass_lastTs]
    by_cases hlast : r.lastTs = 0
    · exact .inl hlast
    · exact .inr (if_neg hlast)

end

/-! ## The decoder (R30, R38) -/

theorem Decoder.wf_iff (td : Decoder) : td.wf = true ↔
    td.buf.wf = true ∧ (∀ c ∈ td.buf, c.1 < td.idx) ∧ td.idx ≤ bufLen ∧ (td.isDone = true ∨ td.idx < bufLen) ∧
    td.emptyCnt ≤ 11 ∧ td.fatal = (td.emptyCnt == 11) := by
  simp [Decoder.wf, and_assoc]

theorem Decoder.reset_wf : Decoder.reset.wf = true := by decide

section
variable {td : Decoder}

theorem Decoder.poll_wf (h : td.wf = true) :
    ({ td with buf := [], idx := 0, isDone := false, isOpen := true } : Decoder).wf = true := by
  obtain ⟨-, -, -, -, hcount⟩ := td.wf_iff.1 h
  exact (Decoder.wf_iff _).2 ⟨rfl, by simp, by simp, by simp, hcount⟩

theorem Decoder.receive_wf (b : Byte) (h : td.wf = true) (hroom : td.idx < bufLen) : (td.receive b).wf = true := by
  obtain ⟨hbuf, hbound, -, -, hcount⟩ := td.wf_iff.1 h
  refine (Decoder.wf_iff _).2 ⟨Decoder.receive_buf_wf td b hbuf, fun c hc => ?_, hroom, ?_, hcount⟩
  · obtain rfl | hold := Mem.mem_write hc
    · exact Nat.lt_succ_self _
    · exact (hbound c hold).trans (Nat.lt_succ_self _)
  · by_cases hlast : td.idx + 1 = bufLen
    · exact .inl (by simp [Decoder.receive, receptionDone, hlast])
    · exact .inr (Nat.lt_of_le_of_ne hroom hlast)

theorem Decoder.clear_wf (h : td.wf = true) (hrun : td.fatal = false) :
    ({ td with emptyCnt := 0 } : Decoder).wf = true := by
  obtain ⟨hbuf, hbound, hidx, hroom, -⟩ := td.wf_iff.1 h
  exact (Decoder.wf_iff _).2 ⟨hbuf, hbound, hidx, hroom, (by decide : (0 : Byte) ≤ 11), by simp [hrun]⟩

/-- One Empty telegram more, on a node that is not halted: the count stays at most 11, and 11 is the halt. -/
theorem Decoder.count_wf {halts : Bool} (h : td.wf = true) (hrun : td.fatal = false)
    (hhalts : emptyFatal (td.emptyCnt + 1) = halts) :
    ({ td with emptyCnt := td.emptyCnt + 1, fatal := halts } : Decoder).wf = true := by
  obtain ⟨hbuf, hbound, hidx, hroom, hle, hfatal⟩ := td.wf_iff.1 h
  have hbelow : td.emptyCnt ≠ 11 := by simpa [hrun] using hfatal.symm
  refine (Decoder.wf_iff _).2 ⟨hbuf, hbound, hidx, hroom, by bv_omega, ?_⟩
  rw [← hhalts, Bool.eq_iff_iff, emptyFatal, decide_eq_true_eq, beq_iff_eq]
  bv_omega

end

/-! ## The timer (R132, R134) -/

section
variable {n : Nat} {t : EventTimer n} {delay : U32}

theorem EventTimer.reset_wf (active : Bool) : (EventTimer.reset (n := n) active).wf delay = true := rfl

theorem EventTimer.edge_wf (i : Nat) (dir : Bool) (ts : U32) : (t.edge delay i dir ts).wf delay = true := by
  simp [EventTimer.wf, EventTimer.edge]

theorem EventTimer.disarm_wf : t.disarm.wf delay = true := rfl

end

/-! ## The winner and the lap target (R28, R32, R217) -/

/-- The deviation computed from a lap target that is held is the root of a number that is not negative. -/
theorem stats_exactRootWf (num : NumRep) (r : CarRecord) {target : Byte} (h : target ≠ 0) :
    exactRootWf (stats num r target).2 = true := by
  by_cases hone : target = 1
  · rw [hone, stats_one]
    rfl
  · rw [stats_of_two_le num r (by bv_omega)]
    cases num with
    | exactReal => simpa [CarRecord.numStats, exactRootWf] using r.variance_nonneg _
    | binary64 => rfl
    | other id => rfl

theorem raiseTarget_ne_zero (t : Byte) : raiseTarget t ≠ 0 := by
  have h := raiseTarget_toNat t
  bv_omega

theorem lowerTarget_ne_zero (t : Byte) : lowerTarget t ≠ 0 := by
  have h := lowerTarget_toNat t
  bv_omega

/-! ## The channel (R41, R99) -/

theorem Channel.wf_iff (ch : Channel) : ch.wf = true ↔ ch.sorted = true ∧ ∀ v ∈ ch.t2c, v ≤ 3 := by
  simp [Channel.wf, Channel.sorted]

theorem Channel.take_wf {ch : Channel} (dir : Dir) (v : Byte) (h : ch.wf = true) : (ch.take dir v).wf = true := by
  obtain ⟨hsorted, hsmall⟩ := ch.wf_iff.1 h
  refine (Channel.wf_iff _).2 ⟨Channel.sorted_take dir v hsorted, fun x hx => hsmall x ?_⟩
  cases dir with
  | t2c => exact Bag.mem_of_mem_remove hx
  | c2t => exact hx

/-- Toward the Car Node only 0 to 3 are sent; toward the Timing Node anything is. -/
theorem tx_ch_wf {dir : Dir} {v : Byte} {s : State} (h : s.ch.wf = true) (hv : dir = .t2c → v ≤ 3) :
    (tx dir v s).ch.wf = true := by
  obtain ⟨hsorted, hsmall⟩ := s.ch.wf_iff.1 h
  refine (Channel.wf_iff _).2 ⟨tx_sorted dir v s hsorted, fun x hx => ?_⟩
  obtain hold | ⟨hdir, rfl⟩ := tx_mem dir v s (d := .t2c) hx
  · exact hsmall x hold
  · exact hv hdir.symm

end Sys2Proof.Machine
end

section
/-! The invariant of the Timing Node along its operations (for O55). -/

namespace Sys2Proof.Machine

theorem TimingNode.interlocked_iff (tn : TimingNode) :
    tn.interlocked = true ↔ tn.td.fatal = true ∨ tn.status = .raceGoing ∨ tn.actOut = 0 := by
  simp [TimingNode.interlocked, or_assoc]

/-- The invariants of the Timing Node, with those of the channel it sends to and of the parameters it resets from. -/
structure TimingInv (s : State) : Prop where
  legal : s.cfg.legal = true
  et : s.tn.et.wf s.cfg.debounce0 = true
  td : s.tn.td.wf = true
  cars : ∀ c : CarIdx, s.tn.cars[c].wf = true
  lapTarget : s.tn.lapTarget ≠ 0
  winner : s.tn.winnerWf = true
  interlock : s.tn.interlocked = true
  ch : s.ch.wf = true

namespace TimingInv

/-! ## The state's operations -/

section
variable {s : State}

theorem reset (hlegal : s.cfg.legal = true) (hch : s.ch.wf = true) :
    TimingInv (s.withTn (TimingNode.reset s.cfg)) where
  legal := hlegal
  et := rfl
  td := Decoder.reset_wf
  cars c := by rw [State.withTn_tn, reset_cars, CarRecord.reset_wf]
  lapTarget := by
    obtain ⟨⟨-, htarget⟩, -⟩ := by simpa [Config.legal] using hlegal
    exact htarget
  winner := rfl
  interlock := rfl
  ch := hch

theorem emit (o : OutEvent) (h : TimingInv s) : TimingInv (s.emit o) := { h with }

theorem withCh {ch : Channel} (h : TimingInv s) (hch : ch.wf = true) : TimingInv (s.withCh ch) := { h with ch := hch }

theorem raise_recovered {e : ErrorClass} (h : TimingInv s) (he : e.code ≠ 8) : TimingInv (raise e s) := by
  rw [Machine.raise_recovered e s he]
  exact h.emit _

theorem tx {dir : Dir} {v : Byte} (h : TimingInv s) (hv : dir = .t2c → v ≤ 3) : TimingInv (tx dir v s) where
  legal := by rw [tx_cfg, h.legal]
  et := by rw [tx_tn, tx_cfg, h.et]
  td := by rw [tx_tn, h.td]
  cars c := by rw [tx_tn, h.cars]
  lapTarget := by rw [tx_tn]; exact h.lapTarget
  winner := by rw [tx_tn, h.winner]
  interlock := by rw [tx_tn, h.interlock]
  ch := tx_ch_wf h.ch hv

theorem withEt {et : EventTimer 3} (h : TimingInv s) (het : et.wf s.cfg.debounce0 = true) :
    TimingInv (s.withTn { s.tn with et := et }) := { h with et := het }

theorem withTarget {target : Byte} (h : TimingInv s) (htarget : target ≠ 0) :
    TimingInv (s.withTn { s.tn with lapTarget := target }) := { h with lapTarget := htarget }

/-- No invariant speaks of the comparator, of the received setpoint or of the overflow flag. -/
theorem withTc (tc : Comparator) (h : TimingInv s) : TimingInv (s.withTn { s.tn with tc := tc }) := { h with }

theorem withRxSp (v : Byte) (h : TimingInv s) : TimingInv (s.withTn { s.tn with rxSp := v }) := { h with }

theorem withLapOvf (b : Bool) (h : TimingInv s) : TimingInv (s.withTn { s.tn with lapOvf := b }) := { h with }

/-- The actuator may be driven while a race is going. -/
theorem withActOut (v : Byte) (h : TimingInv s) (hrace : s.tn.status = .raceGoing) :
    TimingInv (s.withTn { s.tn with actOut := v }) :=
  { h with interlock := (TimingNode.interlocked_iff _).2 (.inr (.inl hrace)) }

/-- The decoder may change as long as it does not end a halt. -/
theorem withTd {td : Decoder} (h : TimingInv s) (htd : td.wf = true)
    (hhalt : s.tn.td.fatal = true → td.fatal = true) : TimingInv (s.withTd td) :=
  { h with
    td := htd
    interlock := (TimingNode.interlocked_iff _).2 (((TimingNode.interlocked_iff _).1 h.interlock).imp_left hhalt) }

theorem withCar {c : CarIdx} {r : CarRecord} (h : TimingInv s) (hr : r.wf = true) : TimingInv (s.withCar c r) := by
  have hcars : ∀ d : CarIdx, (s.withCar c r).tn.cars[d].wf = true := fun d => by
    rw [State.withCar_tn, getElem_set_car]
    split
    · exact hr
    · exact h.cars d
  exact { h with cars := hcars }

end

/-! ## The lap engine -/

section
variable {s : State}

theorem notifyFinishLine (c : CarIdx) (h : TimingInv s) : TimingInv (notifyFinishLine c s) := by
  unfold Machine.notifyFinishLine
  split
  · exact h.tx fun _ => by decide
  · exact h

theorem win (c : CarIdx) (h : TimingInv s) : TimingInv (win c s) := by
  have hroot := stats_exactRootWf s.cfg.num s.tn.cars[c] h.lapTarget
  have hwon : TimingInv (s.withTn { s.tn with
      winnerValid := true, winnerCar := c, winMean := (stats s.cfg.num s.tn.cars[c] s.tn.lapTarget).1
      winSd := (stats s.cfg.num s.tn.cars[c] s.tn.lapTarget).2, actOut := 0, status := .noRaceGoing }) :=
    { h with
      winner := by simpa [TimingNode.winnerWf] using hroot
      interlock := (TimingNode.interlocked_iff _).2 (.inr (.inr rfl)) }
  exact (hwon.emit (.winner c)).tx fun _ => by decide

theorem countPassing {c : CarIdx} {ts : U32} (h : TimingInv s) (hfull : s.tn.cars[c].lapCount ≠ 255)
    (hts : ts ≠ 0) : TimingInv (countPassing c ts s) := by
  have hpassed := (h.withCar (c := c) (CarRecord.pass_wf (h.cars c) hfull hts)).notifyFinishLine c
  unfold Machine.countPassing testWin
  split
  · exact hpassed.win c
  · exact hpassed

theorem onCarPassing (c : CarIdx) (ts : U32) (h : TimingInv s) : (onCarPassing c ts s).All TimingInv := by
  obtain ⟨-, hv⟩ | ⟨-, -, hv⟩ | ⟨hts, hfull, hv⟩ := onCarPassing_cases c ts s <;> rw [hv]
  · exact h.emit _
  · exact (h.withLapOvf true).emit _
  · exact h.countPassing hfull hts

theorem stopRace (h : TimingInv s) : TimingInv (stopRace s) :=
  { h with interlock := (TimingNode.interlocked_iff _).2 (.inr (.inr rfl)) }

theorem startRace (h : TimingInv s) : TimingInv (startRace s) :=
  { h with interlock := (TimingNode.interlocked_iff _).2 (.inr (.inl rfl)) }

theorem recordReset (h : TimingInv s) : TimingInv (recordReset s) :=
  { h with
    cars := fun c => by simp [Machine.recordReset, CarRecord.reset_wf]
    winner := rfl }

theorem lightTransition (k : LightClass) (h : TimingInv s) : TimingInv (lightTransition k s) := by
  cases k with
  | allClear => exact h.startRace
  | ready => exact h.recordReset.stopRace.emit _
  | countdown => exact h.stopRace
  | earlyStart => exact h.stopRace
  | idle => exact h

theorem broadcastStatus (h : TimingInv s) : TimingInv (broadcastStatus s) :=
  h.tx fun _ => by cases s.tn.status <;> decide

theorem onLight (ls : Byte) (changed : Bool) (h : TimingInv s) : TimingInv (onLight ls changed s) := by
  have hlit : TimingInv (if changed then Machine.lightTransition (s.cfg.lightClass ls) s else s) := by
    split
    · exact h.lightTransition _
    · exact h
  unfold Machine.onLight
  simp only
  split
  · exact hlit.broadcastStatus
  · exact hlit

/-- No invariant reads a position. -/
theorem leRank (h : TimingInv s) : (leRank s).All TimingInv := by
  have hranked : ∀ c, (ranked s.tn.cars c).wf = true := fun c => h.cars c
  unfold Machine.leRank
  simp only [Verdict.all_ite, Verdict.all_drop, Verdict.all_step]
  exact ⟨fun _ => h, fun _ => { h with cars := fun c => by rw [State.withTn_tn, ranked_cars, hranked] }⟩

end

/-! ## The decoder -/

section
variable {s : State}

theorem clearEmpty (h : TimingInv s) (hrun : s.tn.td.fatal = false) : TimingInv (clearEmpty s) :=
  h.withTd (Decoder.clear_wf h.td hrun) id

/-- No invariant reads the light noted. -/
theorem noteLight (ls : Byte) (changed : Bool) (h : TimingInv s) : TimingInv (noteLight ls changed s) := by
  have hnoted : TimingInv (s.withTd { s.tn.td with prevLight := ls, prevLightValid := true }) := h.withTd h.td id
  cases changed with
  | false => exact hnoted
  | true => exact hnoted.emit _

theorem onHeartbeat (h : TimingInv s) (hrun : s.tn.td.fatal = false) : TimingInv (onHeartbeat s) :=
  ((h.clearEmpty hrun).noteLight _ _).onLight _ _

theorem onEmpty (h : TimingInv s) (hrun : s.tn.td.fatal = false) : TimingInv (onEmpty s) := by
  unfold Machine.onEmpty
  simp only
  split
  · rename_i hhalts
    have hcounted := h.withTd (Decoder.count_wf h.td hrun hhalts) fun _ => rfl
    exact (hcounted.emit _).emit _
  · rename_i hgoes
    exact h.withTd (Decoder.count_wf h.td hrun ((Bool.eq_false_iff.2 hgoes).trans hrun.symm)) id

theorem onCarPassingTelegram (h : TimingInv s) (hrun : s.tn.td.fatal = false) :
    (onCarPassingTelegram s).All TimingInv := by
  have hcleared := h.clearEmpty hrun
  unfold Machine.onCarPassingTelegram
  simp only
  split
  · exact hcleared.emit _
  · rename_i c _
    obtain ⟨k, -, hv⟩ | ⟨-, -, hv⟩ | ⟨-, -, hv⟩ := onCarTelegram_cases c (Machine.clearEmpty s) <;> rw [hv]
    · exact hcleared.emit _
    · exact hcleared.emit _
    · exact hcleared.onCarPassing c _

theorem decodeTelegram (h : TimingInv s) (hrun : s.tn.td.fatal = false) : (decodeTelegram s).All TimingInv := by
  obtain ⟨-, hv⟩ | ⟨-, hv⟩ | ⟨-, -, hv⟩ := decodeTelegram_cases s <;> rw [hv]
  · exact h.onHeartbeat hrun
  · exact h.onEmpty hrun
  · exact h.onCarPassingTelegram hrun

theorem tdPoll (h : TimingInv s) : (tdPoll s).All TimingInv := by
  simp [Machine.tdPoll, h, h.withTd (Decoder.poll_wf h.td) id]

theorem tdRxb (b : Byte) (h : TimingInv s) : (tdRxb b s).All TimingInv := by
  have hreceived := fun hroom => h.withTd (td := s.tn.td.receive b) (Decoder.receive_wf b h.td hroom) id
  simpa [Machine.tdRxb, h] using fun _ _ _ => hreceived

theorem tdDec (h : TimingInv s) : (tdDec s).All TimingInv := by
  have hclosed : TimingInv (s.withTd { s.tn.td with isOpen := false }) := h.withTd h.td id
  unfold Machine.tdDec
  simp only [Verdict.all_ite, Verdict.all_drop, Verdict.all_refuse]
  exact ⟨fun _ => h, fun hrun => ⟨fun _ => trivial, fun _ => hclosed.decodeTelegram (Bool.eq_false_iff.2 hrun)⟩⟩

end

/-! ## The controls -/

section
variable {s : State}

theorem takeSample0 (h : TimingInv s) : TimingInv (takeSample0 s) := (h.emit _).withEt h.et

theorem serveControls (levels : BitVec 3) (h : TimingInv s) : TimingInv (serveControls levels s) := by
  unfold Machine.serveControls
  split
  · exact h.emit _
  · split
    · exact h.withTarget (raiseTarget_ne_zero _)
    · split
      · exact h.withTarget (lowerTarget_ne_zero _)
      · exact h

theorem basicFire (h : TimingInv s) : (basicFire s).All TimingInv := by
  obtain ⟨-, hv⟩ | ⟨-, hv⟩ := basicFire_cases s <;> rw [hv]
  · exact h
  · exact h.withEt h.et

theorem tnRx (v : Byte) (h : TimingInv s) : (tnRx (.setpoint v) s).All TimingInv := by
  obtain ⟨-, hv⟩ | ⟨-, hrace, hv⟩ | ⟨-, -, hv⟩ := tnRx_cases v s <;> rw [hv]
  · exact h
  · exact (h.withRxSp v).withActOut v hrace
  · exact (h.withRxSp v).emit _

end

/-- Every operation of the Timing Node keeps its invariant. -/
theorem verdict {i : Instr} {s : State} (h : TimingInv s) (hi : i.node = .timing) : (verdict i s).All TimingInv := by
  cases i with
  | rst dom =>
    cases dom with
    | tn => exact (reset h.legal h.ch).emit _
    | cn | all => cases hi
  | tnRestart =>
    have hreset := (reset h.legal h.ch).emit (.reset .tn)
    simp [Machine.verdict, tnRestart, hreset, restartTimingNode, resetDomain]
  | etEdge u i dir ts =>
    cases u with
    | unit0 => simp [Machine.verdict, etEdge, h, h.withEt (EventTimer.edge_wf i dir ts)]
    | unit1 => cases hi
  | etFire u ts =>
    cases u with
    | unit0 => simp [Machine.verdict, etFire, h, (h.withEt (et := s.tn.et.disarm) EventTimer.disarm_wf).basicFire]
    | unit1 => cases hi
  | etTake u =>
    cases u with
    | unit0 => simp [Machine.verdict, etTake, h, h.takeSample0]
    | unit1 => cases hi
  | ocServe => simp [Machine.verdict, ocServe, h, h.takeSample0.serveControls]
  | tdPoll => exact h.tdPoll
  | tdRxb b => exact h.tdRxb b
  | tdDec => exact h.tdDec
  | lePass c ts => simp [Machine.verdict, lePass, h, h.onCarPassing]
  | leLight ls changed => simp [Machine.verdict, leLight, h, h.onLight]
  | leRank => exact h.leRank
  | kaFire =>
    have hraised := h.raise_recovered (e := .contention .actuator) (by decide)
    simp [Machine.verdict, kaFire, h, h.emit, hraised]
  | tcSub a b => simp [Machine.verdict, tcSub, h, h.withTc]
  | tcCmp a b => simp [Machine.verdict, tcCmp, h, h.withTc]
  | chDlv dir v =>
    cases dir with
    | t2c => cases hi
    | c2t => simp [Machine.verdict, chDlv, decodeC2t, (h.withCh (Channel.take_wf .c2t v h.ch)).tnRx]
  | tnLoop => simp [Machine.verdict, tnLoop, h, h.tx]
  | _ => cases hi

end TimingInv
end Sys2Proof.Machine
end

section
/-! The invariant of the Car Node along its operations (for O55). -/

namespace Sys2Proof.Machine

/-! ## Sides (R141, R142) -/

/-- The input of a side's sensor (R35). -/
def Side.input : Side → Nat
  | .left => 0
  | .right => 1

theorem sideOfInput_input {i : Nat} (h : i < 2) : (sideOfInput i).input = i := by
  match i with
  | 0 | 1 => rfl

theorem Side.input_lt (sd : Side) : sd.input < 2 := by cases sd <;> decide

theorem sideOfInput_of_input (sd : Side) : sideOfInput sd.input = sd := by cases sd <;> rfl

theorem OpticalSide.wf_iff (r : OpticalSide) (active : Bool) :
    r.wf active = true ↔ (active = false ∨ r.riseSeen = true) ∧ (r.hcurValid = false ∨ r.riseSeen = true) := by
  simp [OpticalSide.wf]

section
variable (r : OpticalSide) {active : Bool}

theorem OpticalSide.activate_wf (ts : U32) : (r.activate ts).wf active = true :=
  (OpticalSide.wf_iff _ _).2 ⟨.inr rfl, .inr rfl⟩

theorem OpticalSide.activate_val (ts : U32) : (r.activate ts).val = r.val := by
  unfold OpticalSide.activate
  cases r.riseSeen <;> rfl

/-- The invariant asks less of a side whose input is not active. -/
theorem OpticalSide.wf_inactive {r : OpticalSide} (h : r.wf active = true) : r.wf false = true :=
  (OpticalSide.wf_iff _ _).2 ⟨.inl rfl, ((r.wf_iff active).1 h).2⟩

end

/-! ## The invariant -/

/-- The invariants of the Car Node, side by side, with those of the channel it sends to. -/
structure CarInv (s : State) : Prop where
  et : s.cn.et.wf s.cfg.debounce1 = true
  sides : ∀ sd, (s.cn.opt.side sd).wf (s.cn.et.pin.getLsbD sd.input == s.cfg.active1) = true
  paired : s.cn.et.ready = true → ∀ sd, (s.cn.opt.side sd).val = true
  ch : s.ch.wf = true

theorem Side.forall_iff {p : Side → Prop} : (∀ sd, p sd) ↔ p .left ∧ p .right :=
  ⟨fun h => ⟨h .left, h .right⟩, fun h sd => by
    cases sd with
    | left => exact h.1
    | right => exact h.2⟩

theorem all_carIndices (p : CarIdx → Bool) : carIndices.all p = true ↔ ∀ c, p c = true := by
  simp [carIndices, Fin.forall_fin_succ]

theorem timingInv_iff (s : State) :
    TimingInv s ↔ s.cfg.legal = true ∧ s.tn.wf s.cfg = true ∧ s.ch.wf = true := by
  simp only [TimingNode.wf, Bool.and_eq_true, all_carIndices, bne_iff_ne]
  constructor
  · rintro ⟨hlegal, het, htd, hcars, htarget, hwinner, hinterlock, hch⟩
    exact ⟨hlegal, ⟨⟨⟨⟨⟨het, htd⟩, hcars⟩, htarget⟩, hwinner⟩, hinterlock⟩, hch⟩
  · rintro ⟨hlegal, ⟨⟨⟨⟨⟨het, htd⟩, hcars⟩, htarget⟩, hwinner⟩, hinterlock⟩, hch⟩
    exact ⟨hlegal, het, htd, hcars, htarget, hwinner, hinterlock, hch⟩

theorem carInv_iff (s : State) : CarInv s ↔ s.cn.wf s.cfg = true ∧ s.ch.wf = true := by
  have hpaired : (!s.cn.et.ready || (s.cn.opt.left.val && s.cn.opt.right.val)) = true ↔
      (s.cn.et.ready = true → ∀ sd, (s.cn.opt.side sd).val = true) := by
    rw [Side.forall_iff]
    cases s.cn.et.ready <;> simp [Optical.side]
  simp only [CarNode.wf, Bool.and_eq_true, hpaired]
  constructor
  · rintro ⟨het, hsides, hpaired, hch⟩
    exact ⟨⟨⟨⟨het, hsides .left⟩, hsides .right⟩, hpaired⟩, hch⟩
  · rintro ⟨⟨⟨⟨het, hleft⟩, hright⟩, hpaired⟩, hch⟩
    exact ⟨het, Side.forall_iff.2 ⟨hleft, hright⟩, hpaired, hch⟩

theorem State.wf_iff (s : State) : s.wf = true ↔ TimingInv s ∧ CarInv s := by
  rw [timingInv_iff, carInv_iff]
  simp only [State.wf, Bool.and_eq_true]
  tauto

namespace CarInv

section
variable {s : State}

theorem reset (hch : s.ch.wf = true) : CarInv (s.withCn (CarNode.reset s.cfg)) where
  et := rfl
  sides sd := by
    have hpin : (CarNode.reset s.cfg).et.pin.getLsbD sd.input = !s.cfg.active1 := reset_pin s.cfg.active1 sd.input_lt
    rw [State.withCn_cn, State.withCn_cfg, hpin]
    cases sd <;> cases s.cfg.active1 <;> rfl
  paired h := by cases h
  ch := hch

theorem emit (o : OutEvent) (h : CarInv s) : CarInv (s.emit o) := { h with }

theorem withCh {ch : Channel} (h : CarInv s) (hch : ch.wf = true) : CarInv (s.withCh ch) := { h with ch := hch }

theorem tx {dir : Dir} {v : Byte} (h : CarInv s) (hv : dir = .t2c → v ≤ 3) : CarInv (tx dir v s) where
  et := by rw [tx_cn, tx_cfg, h.et]
  sides := by rw [tx_cn, tx_cfg]; exact h.sides
  paired := by rw [tx_cn]; exact h.paired
  ch := tx_ch_wf h.ch hv

/-- The invariants speak of the timer and the sensors alone. -/
theorem withCn {cn : CarNode} (h : CarInv s) (het : cn.et = s.cn.et) (hopt : cn.opt = s.cn.opt) :
    CarInv (s.withCn cn) where
  et := by rw [State.withCn_cn, State.withCn_cfg, het, h.et]
  sides := by rw [State.withCn_cn, State.withCn_cfg, het, hopt]; exact h.sides
  paired := by rw [State.withCn_cn, het, hopt]; exact h.paired
  ch := h.ch

/-! ## The sensors -/

/-- An edge on input `i`, with what it makes of the input's side. -/
theorem edge {i : Nat} {dir : Bool} {ts : U32} {r : OpticalSide} (h : CarInv s) (hi : i < 2)
    (hwf : r.wf (dir == s.cfg.active1) = true)
    (hval : s.cn.et.ready = true → r.val = (s.cn.opt.side (sideOfInput i)).val) :
    CarInv (s.withCn { s.cn with
      et := s.cn.et.edge s.cfg.debounce1 i dir ts, opt := s.cn.opt.setSide (sideOfInput i) r }) where
  et := EventTimer.edge_wf i dir ts
  sides sd := by
    simp only [State.withCn_cn, State.withCn_cfg, EventTimer.edge, getLsbD_setBit]
    by_cases hsd : sd = sideOfInput i
    · rw [hsd, Optical.side_setSide, sideOfInput_input hi, if_pos ⟨rfl, hi⟩]
      exact hwf
    · have hother : ¬(i = sd.input ∧ i < 2) := fun he => hsd (by rw [he.1, sideOfInput_of_input])
      rw [Optical.side_setSide_ne _ _ hsd, if_neg hother]
      exact h.sides sd
  paired hready sd := by
    by_cases hsd : sd = sideOfInput i
    · rw [hsd, State.withCn_cn, Optical.side_setSide, hval hready]
      exact h.paired hready _
    · rw [State.withCn_cn, Optical.side_setSide_ne _ _ hsd]
      exact h.paired hready sd
  ch := h.ch

/-- An edge that leaves its side as it is. -/
theorem edge_keep {i : Nat} {dir : Bool} {ts : U32} (h : CarInv s) (hi : i < 2)
    (hwf : (s.cn.opt.side (sideOfInput i)).wf (dir == s.cfg.active1) = true) :
    CarInv (s.withCn { s.cn with et := s.cn.et.edge s.cfg.debounce1 i dir ts }) := by
  have hedge := h.edge (dir := dir) (ts := ts) hi hwf fun _ => rfl
  rwa [Optical.setSide_side] at hedge

theorem etEdge {i : Nat} {dir : Bool} {ts : U32} (h : CarInv s) : (etEdge .unit1 i dir ts s).All CarInv := by
  unfold Machine.etEdge
  simp only [Verdict.all_ite, Verdict.all_refuse, Verdict.all_step, nIn, implies_true, true_and,
    Nat.not_le]
  intro hi _
  have hside := h.sides (sideOfInput i)
  rw [sideOfInput_input hi] at hside
  refine ⟨fun _ => ?_, fun hsame => h.edge_keep hi ?_⟩
  · generalize hs' : s.withCn { s.cn with et := s.cn.et.edge s.cfg.debounce1 i dir ts } = s'
    have hinactive : dir ≠ s.cfg.active1 →
        (s.cn.opt.side (sideOfInput i)).wf (dir == s.cfg.active1) = true := fun hdir => by
      rw [beq_false_of_ne hdir]
      exact OpticalSide.wf_inactive hside
    obtain ⟨hdir, hv⟩ | ⟨hdir, -, hv⟩ | ⟨hdir, -, -, hv⟩ | ⟨hdir, -, hready, hv⟩ :=
      opticalEdge_cases (sideOfInput i) dir ts s' <;> rw [hv] <;> subst hs'
    · exact h.edge hi (OpticalSide.activate_wf _ ts) fun _ => OpticalSide.activate_val _ ts
    · exact (h.edge_keep hi (hinactive hdir)).emit _
    · exact h.edge_keep hi (hinactive hdir)
    · exact h.edge hi (hinactive hdir) fun hr => by cases hr.symm.trans hready
  · have hbit : dir = s.cn.et.pin.getLsbD i := by simpa using hsame
    rwa [hbit]

theorem opticalFire (h : CarInv s) : (opticalFire s).All CarInv := by
  obtain ⟨-, hl, hr, hv⟩ | ⟨-, hv⟩ := opticalFire_cases s <;> rw [hv]
  · exact { h with
      sides := fun sd => by cases sd <;> exact h.sides _
      paired := fun _ => Side.forall_iff.2 ⟨hl, hr⟩ }
  · exact h

theorem disarm (h : CarInv s) : CarInv (s.withCn { s.cn with et := s.cn.et.disarm }) :=
  { h with et := EventTimer.disarm_wf }

theorem takeSample1 (h : CarInv s) : CarInv (takeSample1 s) :=
  { h with
    sides := fun sd => by cases sd <;> exact h.sides _
    paired := fun hready => by cases hready }

/-! ## The wireless handler -/

theorem cnRx (m : CarMessage) (h : CarInv s) : CarInv (cnRx m s) := by
  cases m with
  | status st => cases st <;> exact h.withCn rfl rfl
  | finishLine => exact h.withCn rfl rfl
  | loopbackAck => exact h.withCn rfl rfl
  | reserved v => exact h.emit _

theorem sendSetpoint (v : Byte) (h : CarInv s) : CarInv (sendSetpoint v s) :=
  (h.tx (dir := .c2t) (v := v) (by simp)).withCn rfl rfl

theorem cnMeasdone (h : CarInv s) : (cnMeasdone s).All CarInv := by
  unfold Machine.cnMeasdone
  simp only
  split
  · trivial
  · split
    · exact (h.sendSetpoint 0).withCn rfl rfl
    · exact h.withCn rfl rfl

end

/-- Every operation of the Car Node keeps its invariant. -/
theorem verdict {i : Instr} {s : State} (h : CarInv s) (hi : i.node = .car) : (verdict i s).All CarInv := by
  cases i with
  | rst dom =>
    cases dom with
    | cn => exact (reset h.ch).emit _
    | tn | all => cases hi
  | etEdge u i dir ts =>
    cases u with
    | unit0 => cases hi
    | unit1 => exact h.etEdge
  | etFire u ts =>
    cases u with
    | unit0 => cases hi
    | unit1 => simp [Machine.verdict, etFire, h.disarm.opticalFire]
  | etTake u =>
    cases u with
    | unit0 => cases hi
    | unit1 => simp [Machine.verdict, etTake, h.takeSample1]
  | chDlv dir v =>
    cases dir with
    | t2c => simp [Machine.verdict, chDlv, (h.withCh (Channel.take_wf .t2c v h.ch)).cnRx]
    | c2t => cases hi
  | cnSetsp v => simp [Machine.verdict, cnSetsp, h, h.sendSetpoint]
  | cnFinack => exact h.withCn rfl rfl
  | cnMeasdone => exact h.cnMeasdone
  | cnMapset b => exact h.withCn rfl rfl
  | _ => cases hi

end CarInv
end Sys2Proof.Machine
end

section
/-! The invariant of the whole block: after reset, and along a step (O54, O55). -/

namespace Sys2Proof.Machine

/-- Settles O54. -/
theorem invariantHoldsAtReset : Obligations.InvariantHoldsAtReset := fun cfg hlegal =>
  let s := State.resetWith cfg
  s.wf_iff.2 ⟨TimingInv.reset (s := s) hlegal rfl, CarInv.reset (s := s) rfl⟩

/-- Each node's invariant is about the node, the parameters and the channel. -/
theorem TimingInv.of_tn {s t : State} (h : TimingInv s) (htn : t.tn = s.tn) (hcfg : t.cfg = s.cfg)
    (hch : t.ch.wf = true) : TimingInv t := by
  obtain ⟨hlegal, hwf, -⟩ := (timingInv_iff s).1 h
  exact (timingInv_iff t).2 ⟨hcfg ▸ hlegal, by rw [htn, hcfg, hwf], hch⟩

theorem CarInv.of_cn {s t : State} (h : CarInv s) (hcn : t.cn = s.cn) (hcfg : t.cfg = s.cfg) (hch : t.ch.wf = true) :
    CarInv t := by
  obtain ⟨hwf, -⟩ := (carInv_iff s).1 h
  exact (carInv_iff t).2 ⟨by rw [hcn, hcfg, hwf], hch⟩

/-- An operation is of one node, or resets both, or is a loss in the channel. -/
theorem instr_node_cases (i : Instr) :
    i.node = .timing ∨ i.node = .car ∨ i = .rst .all ∨ ∃ dir v, i = .chDrop dir v := by
  cases i with
  | rst dom => cases dom <;> simp [Instr.node]
  | etEdge u i dir ts => cases u <;> simp [Instr.node, TimerUnit.node]
  | etFire u ts => cases u <;> simp [Instr.node, TimerUnit.node]
  | etTake u => cases u <;> simp [Instr.node, TimerUnit.node]
  | chDlv dir v => cases dir <;> simp [Instr.node]
  | chDrop dir v => exact .inr (.inr (.inr ⟨dir, v, rfl⟩))
  | _ => simp [Instr.node]

/-- Every operation keeps the invariant: that of its own node by its rule, that of the other by isolation. -/
theorem exec_keeps_wf {i : Instr} {s t : State} (hs : s.wf = true) (h : exec i s = .next t) : t.wf = true := by
  obtain ⟨htn, hcn⟩ := s.wf_iff.1 hs
  have hcfg := (exec_appends h).cfg
  obtain hi | hi | rfl | ⟨dir, v, rfl⟩ := instr_node_cases i
  · have htn' := of_exec_eq_next htn (htn.verdict hi) h
    exact t.wf_iff.2 ⟨htn', hcn.of_cn (exec_timing_cn hi h) hcfg htn'.ch⟩
  · have hcn' := of_exec_eq_next hcn (hcn.verdict hi) h
    exact t.wf_iff.2 ⟨htn.of_tn (exec_car_tn hi h) hcfg hcn'.ch, hcn'⟩
  · cases h
    exact (State.wf_iff _).2
      ⟨(TimingInv.reset htn.legal htn.ch).of_tn rfl rfl rfl, (CarInv.reset hcn.ch).of_cn rfl rfl rfl⟩
  · have htaken := Channel.take_wf dir v htn.ch
    exact of_exec_eq_next (P := fun t => t.wf = true) hs
      (by simp [verdict, chDrop, State.wf_iff, htn.withCh htaken, hcn.withCh htaken]) h

/-- Settles O55. -/
theorem stepKeepsInvariant : Obligations.StepKeepsInvariant := by
  intro s t hs h
  obtain ⟨-, rfl⟩ | ⟨w, ws, i, -, -, hi⟩ := step_eq_next h
  · exact hs
  · exact exec_keeps_wf (s := s.withStimulus ws) hs hi

end Sys2Proof.Machine
end

section
/-! The timestamp a telegram's nibble bytes stand for (R63, R95; O25). -/

namespace Sys2Proof.Machine

/-- A nibble appended is one hexadecimal digit more. -/
theorem append_nibble_toNat {n : Nat} (x : BitVec n) (d : BitVec 4) :
    (x ++ d).toNat = x.toNat * 2 ^ 4 + d.toNat := by
  rw [BitVec.toNat_append, ← Nat.shiftLeft_add_eq_or_of_lt d.isLt, Nat.shiftLeft_eq]

/-- Settles O25: each nibble byte is its byte less `'0'`, and the eight are the digits of the timestamp. -/
theorem timestampNibbleLayout : Obligations.TimestampNibbleLayout := by
  intro td n hbytes
  have hdigit : ∀ k, 2 ≤ k → k ≤ 9 → (nibble (td.byteAt k)).toNat = n k := fun k hlo hhi =>
    nibble_toNat ((nibbleValid_iff _).2 (hbytes k hlo hhi))
  simp (disch := decide) only [Decoder.telegramTs, append_nibble_toNat, hdigit]
  ring

end Sys2Proof.Machine
end

section
/-! The one fault of the model, and why no step reaches it (R60, R61; O56).

Every rule but `TD.RXB` ends in a step, a drop, a hold or a refusal. `TD.RXB` faults when it receives a byte into a
full buffer, and the decoder's invariant says that with the buffer full the reception is done. -/

namespace Sys2Proof.Machine

/-- The operation faults. -/
def Verdict.isFault : Verdict → Bool
  | .fault _ => true
  | .step _ | .drop _ | .hold | .refuse _ => false

@[simp] theorem Verdict.isFault_step (t : State) : (Verdict.step t).isFault = false := rfl
@[simp] theorem Verdict.isFault_drop (t : State) : (Verdict.drop t).isFault = false := rfl
@[simp] theorem Verdict.isFault_hold : Verdict.hold.isFault = false := rfl
@[simp] theorem Verdict.isFault_refuse (r : Refusal) : (Verdict.refuse r).isFault = false := rfl
@[simp] theorem Verdict.isFault_fault (f : Fault) : (Verdict.fault f).isFault = true := rfl

@[simp] theorem Verdict.isFault_ite {p : Prop} [Decidable p] {v w : Verdict} :
    (if p then v else w).isFault = if p then v.isFault else w.isFault := apply_ite Verdict.isFault p v w

theorem Verdict.isFault_of_outcome {v : Verdict} {s : State} {f : Fault} (h : v.outcome s = .fault f) :
    v.isFault = true := by
  cases v with
  | fault why => rfl
  | step t | drop t | hold | refuse why => cases h

/-! ## The shared rules -/

section
variable (s : State)

@[simp] theorem opticalEdge_isFault (sd : Side) (dir : Bool) (ts : U32) :
    (opticalEdge sd dir ts s).isFault = false := by
  obtain ⟨-, h⟩ | ⟨-, -, h⟩ | ⟨-, -, -, h⟩ | ⟨-, -, -, h⟩ := opticalEdge_cases sd dir ts s <;> simp [h]

@[simp] theorem basicFire_isFault : (basicFire s).isFault = false := by
  obtain ⟨-, h⟩ | ⟨-, h⟩ := basicFire_cases s <;> simp [h]

@[simp] theorem opticalFire_isFault : (opticalFire s).isFault = false := by
  obtain ⟨-, -, -, h⟩ | ⟨-, h⟩ := opticalFire_cases s <;> simp [h]

@[simp] theorem onCarPassing_isFault (c : CarIdx) (ts : U32) : (onCarPassing c ts s).isFault = false := by
  obtain ⟨-, h⟩ | ⟨-, -, h⟩ | ⟨-, -, h⟩ := onCarPassing_cases c ts s <;> simp [h]

@[simp] theorem onCarTelegram_isFault (c : CarIdx) : (onCarTelegram c s).isFault = false := by
  obtain ⟨k, -, h⟩ | ⟨-, -, h⟩ | ⟨-, -, h⟩ := onCarTelegram_cases c s <;> simp [h]

@[simp] theorem onCarPassingTelegram_isFault : (onCarPassingTelegram s).isFault = false := by
  unfold onCarPassingTelegram
  simp only
  split <;> simp

@[simp] theorem decodeTelegram_isFault : (decodeTelegram s).isFault = false := by
  obtain ⟨-, h⟩ | ⟨-, h⟩ | ⟨-, -, h⟩ := decodeTelegram_cases s <;> simp [h]

@[simp] theorem tnRx_isFault (v : Byte) : (tnRx (.setpoint v) s).isFault = false := by
  obtain ⟨-, h⟩ | ⟨-, -, h⟩ | ⟨-, -, h⟩ := tnRx_cases v s <;> simp [h]

/-! ## The operations -/

/-- `TD.RXB` faults exactly when it would store a byte past the buffer. -/
theorem tdRxb_isFault_iff (b : Byte) : (tdRxb b s).isFault = true ↔
    s.tn.td.fatal = false ∧ s.tn.td.isOpen = true ∧ s.tn.td.isDone = false ∧ bufLen ≤ s.tn.td.idx := by
  simp [tdRxb]

/-- No other operation faults. -/
theorem verdict_isFault_eq_false {i : Instr} (hi : ∀ b, i ≠ .tdRxb b) : (verdict i s).isFault = false := by
  cases i with
  | rst dom => rfl
  | tnRestart => simp [verdict, tnRestart]
  | etEdge u n dir ts => cases u <;> simp [verdict, etEdge]
  | etFire u ts => cases u <;> simp [verdict, etFire]
  | etTake u => cases u <;> simp [verdict, etTake]
  | ocServe => simp [verdict, ocServe]
  | tdPoll => simp [verdict, tdPoll]
  | tdRxb b => exact absurd rfl (hi b)
  | tdDec => simp [verdict, tdDec]
  | lePass c ts => simp [verdict, lePass]
  | leLight ls changed => simp [verdict, leLight]
  | leRank => simp [verdict, leRank]
  | kaFire => simp [verdict, kaFire]
  | tcSub a b => simp [verdict, tcSub]
  | tcCmp a b => simp [verdict, tcCmp]
  | chDlv dir v => cases dir <;> simp [verdict, chDlv, decodeC2t]
  | chDrop dir v => simp [verdict, chDrop]
  | cnSetsp v => simp [verdict, cnSetsp]
  | cnFinack => rfl
  | cnMeasdone => simp [verdict, cnMeasdone]
  | cnMapset b => rfl
  | tnLoop => simp [verdict, tnLoop]

end

/-! ## The invariant excludes it -/

/-- While reception goes on, the next free address lies in the buffer (R38). -/
theorem Decoder.idx_lt_of_wf {td : Decoder} (h : td.wf = true) (hgoes : td.isDone = false) : td.idx < bufLen := by
  obtain ⟨-, -, -, hroom, -⟩ := td.wf_iff.1 h
  exact hroom.resolve_left (by simp [hgoes])

theorem exec_ne_fault {s : State} (i : Instr) (f : Fault) (h : s.wf = true) : exec i s ≠ .fault f := by
  intro hf
  rw [exec_eq_outcome] at hf
  have hfault := Verdict.isFault_of_outcome hf
  by_cases hi : ∃ b, i = .tdRxb b
  · obtain ⟨b, rfl⟩ := hi
    obtain ⟨-, -, hgoes, hfull⟩ := (tdRxb_isFault_iff s b).1 hfault
    obtain ⟨htn, -⟩ := s.wf_iff.1 h
    exact absurd hfull (Nat.not_le_of_lt (Decoder.idx_lt_of_wf htn.td hgoes))
  · rw [verdict_isFault_eq_false s (not_exists.1 hi)] at hfault
    cases hfault

/-- Settles O56: a step waits, refuses an illegal word, or runs an operation, and none of these faults. -/
theorem noStepFaults : Obligations.NoStepFaults := by
  intro s f hs hf
  cases hws : s.stimulus with
  | nil => simp [step_of_nil hws] at hf
  | cons w ws =>
    cases hw : decode w with
    | error why => simp [step_of_error hws hw] at hf
    | ok i =>
      rw [step_of_ok hws hw] at hf
      exact exec_ne_fault (s := s.withStimulus ws) i f hs hf

end Sys2Proof.Machine
end

section
/-! Decoding and encoding are inverse to each other (R100 to R104; O2, O3), and the words the spec writes out (O1). -/

namespace Sys2Proof

open Laws in
/-- Settles O2, by the round trip of each operation. -/
theorem decodeOfEncode : Obligations.DecodeOfEncode := by
  intro i
  cases i with
  | rst dom => exact RoundTrip.rst dom
  | tnRestart => exact RoundTrip.tnRestart
  | etEdge u i dir ts => exact RoundTrip.etEdge u i dir ts
  | etFire u ts => exact RoundTrip.etFire u ts
  | etTake u => exact RoundTrip.etTake u
  | ocServe => exact RoundTrip.ocServe
  | tdPoll => exact RoundTrip.tdPoll
  | tdRxb b => exact RoundTrip.tdRxb b
  | tdDec => exact RoundTrip.tdDec
  | lePass c ts => exact RoundTrip.lePass c ts
  | leLight ls changed => exact RoundTrip.leLight ls changed
  | leRank => exact RoundTrip.leRank
  | kaFire => exact RoundTrip.kaFire
  | tcSub a b => exact RoundTrip.tcSub a b
  | tcCmp a b => exact RoundTrip.tcCmp a b
  | chDlv dir v => exact RoundTrip.chDlv dir v
  | chDrop dir v => exact RoundTrip.chDrop dir v
  | cnSetsp v => exact RoundTrip.cnSetsp v
  | cnFinack => exact RoundTrip.cnFinack
  | cnMeasdone => exact RoundTrip.cnMeasdone
  | cnMapset b => exact RoundTrip.cnMapset b
  | tnLoop => exact RoundTrip.tnLoop

/-! ## What each operand reader accepts (R104) -/

section
variable {op sel b : Byte}

theorem code_of_readDomain {dom : Domain} (h : readDomain op sel = .ok dom) : dom.code = sel := by
  unfold readDomain at h
  split at h <;> cases h <;> exact (BitVec.eq_of_toNat_eq ‹_›).symm

theorem code_of_readUnit {u : TimerUnit} (h : readUnit op sel = .ok u) : u.code = sel.extractLsb' 4 4 := by
  unfold readUnit at h
  split at h <;> cases h <;> exact (BitVec.eq_of_toNat_eq ‹_›).symm

theorem code_of_readDir {dir : Dir} (h : readDir op sel = .ok dir) : dir.code = sel := by
  unfold readDir at h
  split at h <;> cases h <;> exact (BitVec.eq_of_toNat_eq ‹_›).symm

theorem bitCode_of_readChanged {changed : Bool} (h : readChanged op sel = .ok changed) : bitCode changed = sel := by
  unfold readChanged at h
  split at h <;> cases h <;> exact (BitVec.eq_of_toNat_eq ‹_›).symm

theorem bitCode_of_readFlag {flag : Bool} (h : readFlag op b = .ok flag) : bitCode flag = b := by
  unfold readFlag at h
  split at h <;> cases h <;> exact (BitVec.eq_of_toNat_eq ‹_›).symm

theorem ofNat_of_readCar {c : CarIdx} (h : readCar op sel = .ok c) : BitVec.ofNat 8 c.val = sel := by
  unfold readCar at h
  split at h <;> cases h
  simp only [BitVec.ofNat_toNat, BitVec.setWidth_eq]

theorem unitSel_extract {u : TimerUnit} (hu : u.code = sel.extractLsb' 4 4) :
    unitSel u (sel.extractLsb' 0 4).toNat = sel := by
  rw [unitSel, hu, BitVec.ofNat_toNat, BitVec.setWidth_eq]
  exact (BitVec.extractLsb'_append_extractLsb'_eq_extractLsb' rfl).trans (BitVec.extractLsb'_eq_self ..)

theorem unitSel_of_readInput {u : TimerUnit} {i : Nat} (hu : readUnit op sel = .ok u)
    (hi : readInput op sel u = .ok i) : i < nIn u ∧ unitSel u i = sel := by
  unfold readInput at hi
  split at hi <;> cases hi
  exact ⟨‹_›, unitSel_extract (code_of_readUnit hu)⟩

theorem unitSel_of_readUnitOnly {u : TimerUnit} (h : readUnitOnly op sel = .ok u) : unitSel u 0 = sel := by
  unfold readUnitOnly at h
  split at h
  · rename_i hzero
    have hsel := unitSel_extract (code_of_readUnit h)
    rwa [eq_of_beq hzero] at hsel
  · cases h

end

/-! ## What the decoder accepts -/

/-- The word with the given `OP` whose other fields are those of `w` that the format uses (R101). -/
def Format.pack (f : Format) (op : Byte) (w : EventWord) : EventWord :=
  match f with
  | .fN => packWord op 0 0 0 0
  | .fS => packWord op (selField w) 0 0 0
  | .fB => packWord op 0 (bField w) 0 0
  | .fSB => packWord op (selField w) (bField w) 0 0
  | .fST => packWord op (selField w) 0 0 (tField w)
  | .fSBT => packWord op (selField w) (bField w) 0 (tField w)
  | .fAT => packWord op 0 0 (aField w) (tField w)

/-- A word whose unused fields are zero is made of the fields its format uses. -/
theorem Format.pack_opField {f : Format} {w : EventWord} (h : f.unusedZero w = true) : f.pack (opField w) w = w := by
  obtain ⟨hz, hunused⟩ := Bool.and_eq_true_iff.1 h
  have hpack := packWord_fields w (eq_of_beq hz)
  cases f <;> simp_all [Format.pack]

theorem checked_eq_ok {f : Format} {w : EventWord} {k : Except DecodeError Instr} {i : Instr} {op : Nat}
    (hop : (opField w).toNat = op) (h : checked f w k = .ok i) : f.pack (BitVec.ofNat 8 op) w = w ∧ k = .ok i := by
  unfold checked at h
  split at h
  · rename_i hunused
    rw [← hop, BitVec.ofNat_toNat, BitVec.setWidth_eq]
    exact ⟨Format.pack_opField hunused, h⟩
  · cases h

theorem exists_of_map_eq_ok {ε α β : Type} {f : α → β} {x : Except ε α} {b : β} (h : x.map f = .ok b) :
    ∃ a, x = .ok a ∧ f a = b := by
  cases x with
  | error e => cases h
  | ok a => cases h; exact ⟨a, rfl, rfl⟩

theorem decodeEdge_eq_ok {w : EventWord} {i : Instr} (h : decodeEdge w = .ok i) : ∃ u n dir,
    i = .etEdge u n dir (tField w) ∧ n < nIn u ∧ unitSel u n = selField w ∧ bitCode dir = bField w := by
  unfold decodeEdge at h
  cases hu : readUnit (opField w) (selField w) with
  | error e => simp [hu, bind, Except.bind] at h
  | ok u =>
    cases hn : readInput (opField w) (selField w) u with
    | error e => simp [hu, hn, bind, Except.bind] at h
    | ok n =>
      cases hdir : readFlag (opField w) (bField w) with
      | error e => simp [hu, hn, hdir, bind, Except.bind] at h
      | ok dir =>
        simp only [hu, hn, hdir, bind, Except.bind] at h
        cases h
        obtain ⟨hlt, hsel⟩ := unitSel_of_readInput hu hn
        exact ⟨u, n, dir, rfl, hlt, hsel, bitCode_of_readFlag hdir⟩

/-- Settles O3: in each arm of the decoder, a word that passes the format's check is made of the fields the format
uses, and each of these is the code of the operand read from it. -/
theorem encodeOfDecode : Obligations.EncodeOfDecode := by
  intro w i h
  unfold decode at h
  split at h
  case h_23 => cases h -- an unlisted `OP`
  all_goals
    obtain ⟨hpack, h⟩ := checked_eq_ok ‹_› h
    rw [← hpack]
  case h_1 => -- `RST`
    obtain ⟨dom, hdom, rfl⟩ := exists_of_map_eq_ok h
    exact ⟨rfl, by rw [encode, code_of_readDomain hdom]; rfl⟩
  case h_3 => -- `ET.EDGE`
    obtain ⟨u, n, dir, rfl, hlt, hsel, hdir⟩ := decodeEdge_eq_ok h
    exact ⟨decide_eq_true hlt, by rw [encode, hsel, hdir]; rfl⟩
  case h_4 | h_5 => -- `ET.FIRE`, `ET.TAKE`
    obtain ⟨u, hu, rfl⟩ := exists_of_map_eq_ok h
    exact ⟨rfl, by rw [encode, unitSel_of_readUnitOnly hu]; rfl⟩
  case h_10 => -- `LE.PASS`
    obtain ⟨c, hc, rfl⟩ := exists_of_map_eq_ok h
    exact ⟨rfl, by rw [encode, ofNat_of_readCar hc]; rfl⟩
  case h_11 => -- `LE.LIGHT`
    obtain ⟨changed, hchanged, rfl⟩ := exists_of_map_eq_ok h
    exact ⟨rfl, by rw [encode, bitCode_of_readChanged hchanged]; rfl⟩
  case h_16 | h_17 => -- `CH.DLV`, `CH.DROP`
    obtain ⟨dir, hdir, rfl⟩ := exists_of_map_eq_ok h
    exact ⟨rfl, by rw [encode, code_of_readDir hdir]; rfl⟩
  case h_21 => -- `CN.MAPSET`
    obtain ⟨b, hb, rfl⟩ := exists_of_map_eq_ok h
    exact ⟨rfl, by rw [encode, bitCode_of_readFlag hb]; rfl⟩
  all_goals -- no operand, or fields that are operands as they stand
    cases h
    exact ⟨rfl, rfl⟩

/-- Settles O1: each word is the encoding of its operation. -/
theorem specWordsDecode : Obligations.SpecWordsDecode :=
  ⟨decodeOfEncode (.rst .all) rfl, decodeOfEncode (.etEdge .unit1 1 true 8000) rfl,
    decodeOfEncode (.etFire .unit0 11000) rfl, decodeOfEncode (.tdRxb 0x3A) rfl,
    decodeOfEncode (.lePass 3 0x12345678) rfl, decodeOfEncode (.leLight 0x07 true) rfl,
    decodeOfEncode (.tcCmp 0xFFFFFFF0 0x00000005) rfl, decodeOfEncode (.chDrop .c2t 44) rfl⟩

end Sys2Proof
end

section
/-! Illegal words are refused (R103; O4), and accepted words lie in their row of the opcode table (O5). Both follow
from what the fields of an encoded operation are, since every accepted word is an encoded operation. -/

namespace Sys2Proof

/-! ## The ranges of the selectors and flags (R103, R104) -/

theorem Domain.code_toNat_le (dom : Domain) : dom.code.toNat ≤ 2 := by cases dom <;> decide

theorem Dir.code_toNat_le (dir : Dir) : dir.code.toNat ≤ 1 := by cases dir <;> decide

theorem bitCode_toNat_le (b : Bool) : (bitCode b).toNat ≤ 1 := by cases b <;> decide

theorem unitSel_toNat (u : TimerUnit) {i : Nat} (hi : i < 16) : (unitSel u i).toNat = u.code.toNat * 16 + i := by
  rw [unitSel, BitVec.toNat_append, ← Nat.shiftLeft_add_eq_or_of_lt (BitVec.isLt _), Nat.shiftLeft_eq,
    BitVec.toNat_ofNat, Nat.mod_eq_of_lt hi]

/-- The unit and the input of an EventTimer selector, as the rule of R103 reads them. -/
theorem unitSel_in_range {u : TimerUnit} {i : Nat} (hi : i < nIn u) :
    (unitSel u i).toNat % 16 = i ∧
      ((unitSel u i).toNat / 16 = 0 ∧ i < 3 ∨ (unitSel u i).toNat / 16 = 1 ∧ i < 2) := by
  cases u with
  | unit0 =>
    have hlt : i < 3 := hi
    have hsel : (unitSel .unit0 i).toNat = 0 * 16 + i := unitSel_toNat _ (by omega)
    omega
  | unit1 =>
    have hlt : i < 2 := hi
    have hsel : (unitSel .unit1 i).toNat = 1 * 16 + i := unitSel_toNat _ (by omega)
    omega

/-- Settles O4: the fields of an accepted word are those of a well-formed operation, in the unused fields zero and
in the used ones in range. -/
theorem illegalWordsRefused : Obligations.IllegalWordsRefused := by
  intro w op sel b z a t hill
  cases hw : decode w with
  | error why => exact ⟨why, rfl, fun s ws hs => Machine.step_of_error hs hw⟩
  | ok i =>
    exfalso
    obtain ⟨hwf, rfl⟩ := encodeOfDecode w i hw
    simp only [op, sel, b, z, a, t] at hill
    cases i <;> simp [encode] at hill -- the ranges of selectors and flags are left
    case rst dom => exact absurd dom.code_toNat_le (by omega)
    case etEdge u n dir ts =>
      have hsel := unitSel_in_range (of_decide_eq_true hwf : n < nIn u)
      have hdir := bitCode_toNat_le dir
      omega
    case etFire u _ | etTake u =>
      have hsel := unitSel_in_range (show 0 < nIn u by cases u <;> decide)
      omega
    case lePass c ts => omega
    case leLight _ flag | cnMapset flag => exact absurd (bitCode_toNat_le flag) (by omega)
    case chDlv dir v | chDrop dir v => exact absurd dir.code_toNat_le (by omega)

/-! ## The opcode table -/

section
variable (v w : EventWord)

@[simp] theorem opField_and : opField (v &&& w) = opField v &&& opField w := BitVec.extractLsb'_and ..
@[simp] theorem selField_and : selField (v &&& w) = selField v &&& selField w := BitVec.extractLsb'_and ..
@[simp] theorem bField_and : bField (v &&& w) = bField v &&& bField w := BitVec.extractLsb'_and ..
@[simp] theorem zField_and : zField (v &&& w) = zField v &&& zField w := BitVec.extractLsb'_and ..
@[simp] theorem aField_and : aField (v &&& w) = aField v &&& aField w := BitVec.extractLsb'_and ..
@[simp] theorem tField_and : tField (v &&& w) = tField v &&& tField w := BitVec.extractLsb'_and ..

end

section
variable {op sel b : Byte} {a t : U32}

theorem packWord_eq_iff {w : EventWord} : packWord op sel b a t = w ↔
    op = opField w ∧ sel = selField w ∧ b = bField w ∧ 0 = zField w ∧ a = aField w ∧ t = tField w := by
  constructor
  · rintro rfl
    simp
  · rintro ⟨rfl, rfl, rfl, hz, rfl, rfl⟩
    exact packWord_fields w hz.symm

/-- The bits of a packed word under a mask, field by field. -/
theorem packWord_and (m : EventWord) : packWord op sel b a t &&& m =
    packWord (op &&& opField m) (sel &&& selField m) (b &&& bField m) (a &&& aField m) (t &&& tField m) :=
  (packWord_eq_iff.2 (by simp)).symm

theorem covers_packWord_iff {r : OpcodeRow} : r.covers (packWord op sel b a t) = true ↔
    op &&& opField r.mask = opField r.pattern ∧ sel &&& selField r.mask = selField r.pattern ∧
      b &&& bField r.mask = bField r.pattern ∧ 0 = zField r.pattern ∧
      a &&& aField r.mask = aField r.pattern ∧ t &&& tField r.mask = tField r.pattern := by
  rw [OpcodeRow.covers, beq_iff_eq, packWord_and, packWord_eq_iff]

end

/-- No input and no unit sets a selector bit that the row of `ET.EDGE` fixes. -/
theorem unitSel_and_edge_mask (u : TimerUnit) {i : Nat} (hi : i < nIn u) : unitSel u i &&& 0xEC = 0 := by
  have hinputs : ∀ n, n < 4 → unitSel u n &&& 0xEC = 0 := by cases u <;> decide
  exact hinputs i (by cases u <;> simp only [nIn] at hi <;> omega)

theorem carCode_and_mask : ∀ c : CarIdx, BitVec.ofNat 8 c.val &&& 0xFC = 0 := by decide

theorem bitCode_and_mask (b : Bool) : bitCode b &&& 0xFE = 0 := by cases b <;> decide

/-- The word of a well-formed operation is covered by the row of its mnemonic: the row's numbers settle every field but
selectors and flags, whose high bits are zero. -/
theorem exists_row_covers_encode {i : Instr} (hwf : i.wellFormed = true) :
    ∃ r ∈ opcodeRows, r.mnemonic = i.mnemonic ∧ r.covers (encode i) = true := by
  cases i <;> simp [opcodeRows, Instr.mnemonic, encode, covers_packWord_iff] <;>
    simp [opField, selField, bField, zField, aField, tField]
  case rst dom => cases dom <;> decide
  case etEdge u n dir ts => exact ⟨unitSel_and_edge_mask u (of_decide_eq_true hwf), bitCode_and_mask dir⟩
  case etFire u _ | etTake u => cases u <;> decide
  case lePass c ts => exact carCode_and_mask c
  case leLight _ flag | cnMapset flag => exact bitCode_and_mask flag
  case chDlv dir v | chDrop dir v => cases dir <;> decide

/-- Every row fixes the whole `OP` byte. -/
theorem opcodeRows_op_mask : ∀ r ∈ opcodeRows, opField r.mask = 0xFF := by decide

theorem opcodeRows_op_distinct : opcodeRows.Pairwise fun r q => opField r.pattern ≠ opField q.pattern := by decide

theorem opField_of_covers {r : OpcodeRow} {w : EventWord} (hr : r ∈ opcodeRows) (h : r.covers w = true) :
    opField w = opField r.pattern := by
  have hbits : w &&& r.mask = r.pattern := eq_of_beq h
  rw [← hbits, opField_and, opcodeRows_op_mask r hr]
  exact BitVec.and_allOnes.symm

/-- Settles O5: an accepted word is an encoded operation, and two rows differ in the `OP` byte, which both fix. -/
theorem decodeKeepsOpcodeTable : Obligations.DecodeKeepsOpcodeTable := by
  constructor
  · intro w i h
    obtain ⟨hwf, rfl⟩ := encodeOfDecode w i h
    exact exists_row_covers_encode hwf
  · refine opcodeRows_op_distinct.imp_of_mem fun hr hq hne w hcovers => ?_
    exact hne ((opField_of_covers hr hcovers.1).symm.trans (opField_of_covers hq hcovers.2))

end Sys2Proof
end

section
/-! A word stored as twelve bytes (R100; O6). -/

namespace Sys2Proof

theorem wordBytes_eq_map_range (w : EventWord) :
    wordBytes w = (List.range 12).map fun k => w.extractLsb' (88 - 8 * k) 8 := rfl

/-- The bytes of the lowest `8 * n` bits, most significant first. -/
def lowBytes (w : EventWord) (n : Nat) : List Byte := (List.range n).reverse.map fun k => w.extractLsb' (8 * k) 8

theorem wordBytes_eq_lowBytes (w : EventWord) : wordBytes w = lowBytes w 12 := rfl

theorem lowBytes_succ (w : EventWord) (n : Nat) : lowBytes w (n + 1) = w.extractLsb' (8 * n) 8 :: lowBytes w n := by
  simp [lowBytes, List.range_succ]

/-- Shifting in the byte at `lo` gives the bits from `lo` on. -/
theorem shift_in_byte (w : EventWord) (lo : Nat) :
    (w >>> (lo + 8)) <<< 8 ||| (w.extractLsb' lo 8).setWidth 96 = w >>> lo := by
  apply BitVec.eq_of_getLsbD_eq
  intro i hi
  simp only [BitVec.getLsbD_or, BitVec.getLsbD_shiftLeft, BitVec.getLsbD_ushiftRight, BitVec.getLsbD_setWidth,
    BitVec.getLsbD_extractLsb']
  by_cases h : i < 8
  · simp [h, hi]
  · simp [h, hi, show lo + 8 + (i - 8) = lo + i by omega]

theorem foldl_lowBytes (w : EventWord) (n : Nat) :
    (lowBytes w n).foldl (fun (v : EventWord) b => (v <<< 8) ||| b.setWidth 96) (w >>> (8 * n)) = w := by
  induction n with
  | zero => simp [lowBytes]
  | succ n ih => rw [lowBytes_succ, List.foldl_cons, Nat.mul_succ, shift_in_byte, ih]

theorem wordOfBytes_wordBytes (w : EventWord) : wordOfBytes (wordBytes w) = w := by
  have hstart : w >>> (8 * 12) = 0 := BitVec.ushiftRight_eq_zero (Nat.le_refl _)
  rw [wordOfBytes, wordBytes_eq_lowBytes, ← hstart]
  exact foldl_lowBytes w 12

/-- Settles O6: the twelve stored bytes shifted in, from the most significant on, rebuild the word. -/
theorem storedBytesDecode : Obligations.StoredBytesDecode := by
  intro w rest
  have hlen : (wordBytes w).length = 12 := rfl
  refine ⟨hlen, fun k hk => ?_, ?_⟩
  · simp [wordBytes_eq_map_range, hk]
  · rw [decodeBytes, if_neg (by simp [hlen]), List.take_left' hlen, List.drop_left' hlen, wordOfBytes_wordBytes]

end Sys2Proof
end

section
/-! A good CarPassing telegram does what `LE.PASS` does (R94, R175, R176; O26). -/

namespace Sys2Proof.Machine

section
variable {c : CarIdx} {ts : U32} {s : State}

theorem tdDec_of_open (hrun : s.tn.td.fatal = false) (hopen : s.tn.td.isOpen = true) :
    tdDec s = decodeTelegram (s.withTd { s.tn.td with isOpen := false }) := by
  simp [tdDec, hrun, hopen]

/-- The digit of a car selects the class CarPassing and that car. -/
theorem decodeTelegram_of_digit (hdigit : s.tn.td.buf.read 1 = BitVec.ofNat 8 (0x31 + c.val)) :
    decodeTelegram s = onCarTelegram c (clearEmpty s) := by
  obtain ⟨hcar, hclass⟩ := carOfDigit_digit c
  rw [← hdigit] at hcar hclass
  simp [decodeTelegram, onCarPassingTelegram, clearEmpty, Decoder.byteAt, hcar, hclass]

theorem onCarTelegram_of_good (hbytes : s.tn.td.badNibble = none) (hts : s.tn.td.telegramTs ≠ 0) :
    onCarTelegram c s = onCarPassing c s.tn.td.telegramTs s := by
  simp only [onCarTelegram, hbytes, if_neg hts]

theorem lePass_of_running (hrun : s.tn.td.fatal = false) : lePass c ts s = onCarPassing c ts s := by
  simp [lePass, hrun]

/-- A passing always goes on, to a state of its own. -/
theorem lePass_outcome_eq_next (c : CarIdx) (ts : U32) (s : State) :
    ∃ t, ∀ r, (lePass c ts s).outcome r = .next t := by
  unfold lePass
  split
  · exact ⟨s, fun _ => rfl⟩
  · obtain ⟨-, h⟩ | ⟨-, -, h⟩ | ⟨-, -, h⟩ := onCarPassing_cases c ts s <;> rw [h] <;> exact ⟨_, fun _ => rfl⟩

/-- A good CarPassing telegram, decoded, is `LE.PASS` on the decoder closed and its empty counter cleared. -/
theorem tdDec_of_carTelegram (hrun : s.tn.td.fatal = false) (hopen : s.tn.td.isOpen = true)
    (hdigit : s.tn.td.buf.read 1 = BitVec.ofNat 8 (0x31 + c.val)) (hbytes : s.tn.td.badNibble = none)
    (hts : s.tn.td.telegramTs ≠ 0) :
    tdDec s = lePass c s.tn.td.telegramTs (s.withTd { s.tn.td with isOpen := false, emptyCnt := 0 }) :=
  calc
    tdDec s = decodeTelegram (s.withTd { s.tn.td with isOpen := false }) := tdDec_of_open hrun hopen
    _ = onCarTelegram c (s.withTd { s.tn.td with isOpen := false, emptyCnt := 0 }) := decodeTelegram_of_digit hdigit
    _ = onCarPassing c s.tn.td.telegramTs (s.withTd { s.tn.td with isOpen := false, emptyCnt := 0 }) :=
      onCarTelegram_of_good hbytes hts
    _ = _ := (lePass_of_running (by exact hrun)).symm

end

/-- Settles O26: the bytes are those of a good telegram of car `c` at `ts`, by R63 and R95. -/
theorem carTelegramRunsPass : Obligations.CarTelegramRunsPass := by
  intro s c ts hrun hopen hdigit hbytes hts hne
  have hbyte : s.tn.td.buf.read 1 = BitVec.ofNat 8 (0x31 + c.val) := by
    apply BitVec.eq_of_toNat_eq
    rw [hdigit, BitVec.toNat_ofNat]
    omega
  have hgood : s.tn.td.badNibble = none :=
    (badNibble_eq_none _).2 fun k h2 h9 => (nibbleValid_iff _).2 (hbytes k h2 h9)
  obtain rfl : s.tn.td.telegramTs = ts :=
    BitVec.eq_of_toNat_eq ((timestampNibbleLayout s.tn.td hbytes).trans hts.symm)
  obtain ⟨t, ht⟩ := lePass_outcome_eq_next c s.tn.td.telegramTs
    (s.withTd { s.tn.td with isOpen := false, emptyCnt := 0 })
  have hdec : exec .tdDec s = .next t := by
    rw [exec_eq_outcome, verdict, tdDec_of_carTelegram hrun hopen hbyte hgood hne, ht]
  exact ⟨t, hdec, (exec_eq_outcome _ _).trans (ht _)⟩

end Sys2Proof.Machine
end

section
/-! An edge of each unit, inside its window and past it (R132, R133, R141, R142, R144; O10 to O12). -/

namespace Sys2Proof.Machine

/-! ## From the rule to the dispatch -/

section
variable {i : Instr} {s t : State}

theorem exec_of_step (h : verdict i s = .step t) : exec i s = .next t := by
  rw [exec_eq_outcome, h, Verdict.outcome_step]

theorem exec_of_drop (h : verdict i s = .drop t) : exec i s = .next t := by
  rw [exec_eq_outcome, h, Verdict.outcome_drop]

theorem exec_of_hold (h : verdict i s = .hold) : exec i s = .next s := by
  rw [exec_eq_outcome, h, Verdict.outcome_hold]

theorem exec_of_refuse {why : Refusal} (h : verdict i s = .refuse why) : exec i s = .refused why := by
  rw [exec_eq_outcome, h, Verdict.outcome_refuse]

end

/-! ## The timer of an edge (R132, R133) -/

section
variable {n : Nat} (t : EventTimer n) (delay : U32) {i j : Nat} (dir : Bool) (ts : U32)

/-- An edge lies in the window when the timer is stopped or the delay has not passed. -/
theorem edgePast_eq_false_iff :
    t.edgePast delay ts = false ↔
      (t.armed = true → (ts.toNat + 2 ^ 32 - t.lastEdgeTs.toNat) % 2 ^ 32 < delay.toNat) := by
  rw [← Bool.not_eq_true, edgePast_iff, not_and, Nat.not_le]

theorem EventTimer.edge_pin_self (hi : i < n) : (t.edge delay i dir ts).pin.getLsbD i = dir := by
  rw [EventTimer.edge, getLsbD_setBit, if_pos ⟨rfl, hi⟩]

theorem EventTimer.edge_pin_of_ne (hj : j ≠ i) : (t.edge delay i dir ts).pin.getLsbD j = t.pin.getLsbD j := by
  rw [EventTimer.edge, getLsbD_setBit, if_neg fun h => hj h.1.symm]

theorem EventTimer.edge_deadline_toNat :
    (t.edge delay i dir ts).deadline.toNat = (ts.toNat + delay.toNat) % 2 ^ 32 := wadd32_toNat ts delay

end

/-! ## `ET.EDGE` on unit 0 -/

/-- The state after an accepted edge of unit 0. -/
def State.timingEdge (s : State) (i : Nat) (dir : Bool) (ts : U32) : State :=
  s.withTn { s.tn with et := s.tn.et.edge s.cfg.debounce0 i dir ts }

section
variable {s t : State} {i : Nat} {dir : Bool} {ts : U32}

theorem etEdge_unit0 (hi : i < nIn .unit0) (hrun : s.tn.td.fatal = false) : etEdge .unit0 i dir ts s =
    if s.tn.et.edgePast s.cfg.debounce0 ts then .refuse (.edgePastWindow .unit0)
    else .step (s.timingEdge i dir ts) := by
  rw [etEdge, if_neg (Nat.not_le_of_lt hi)]
  simp only [hrun, Bool.false_eq_true, if_false, State.timingEdge]

/-- A running node goes on from an edge of unit 0 only when it accepts it. -/
theorem exec_etEdge_unit0_eq_next (hrun : s.tn.td.fatal = false) (h : exec (.etEdge .unit0 i dir ts) s = .next t) :
    i < nIn .unit0 ∧ t = s.timingEdge i dir ts := by
  rw [exec_eq_outcome, verdict] at h
  by_cases hi : i < nIn .unit0
  · rw [etEdge_unit0 hi hrun] at h
    split at h <;> cases h
    exact ⟨hi, rfl⟩
  · rw [etEdge, if_pos (Nat.le_of_not_lt hi)] at h
    cases h

end

/-- Settles O10. -/
theorem edgeRestartsTimerUnit0 : Obligations.EdgeRestartsTimerUnit0 := by
  intro s i dir ts hi hrun hwindow
  have hin := (edgePast_eq_false_iff ..).2 hwindow
  have hstep : etEdge .unit0 i dir ts s = .step (s.timingEdge i dir ts) :=
    (etEdge_unit0 hi hrun).trans (if_neg (Bool.eq_false_iff.1 hin))
  exact ⟨_, exec_of_step hstep, EventTimer.edge_pin_self _ _ _ _ hi,
    fun j hj => EventTimer.edge_pin_of_ne _ _ _ _ hj, EventTimer.edge_deadline_toNat .., rfl⟩

/-! ## `ET.EDGE` on unit 1 -/

@[simp] theorem Optical.setSide_setSide (o : Optical) (sd : Side) (r r' : OpticalSide) :
    (o.setSide sd r).setSide sd r' = o.setSide sd r' := by cases sd <;> rfl

/-- The state after an accepted edge of unit 1 that leaves its side as `r`. -/
def State.carEdge (s : State) (i : Nat) (dir : Bool) (ts : U32) (r : OpticalSide) : State :=
  s.withCn { s.cn with
    et := s.cn.et.edge s.cfg.debounce1 i dir ts, opt := s.cn.opt.setSide (sideOfInput i) r }

section
variable {s : State} {i : Nat} {dir : Bool} {ts : U32}

theorem State.carEdge_side (r : OpticalSide) : (s.carEdge i dir ts r).cn.opt.side (sideOfInput i) = r :=
  Optical.side_setSide ..

/-- What the optical rule makes of the side after the edge. -/
theorem State.carEdge_setSide (r r' : OpticalSide) : s.carEdge i dir ts r' =
    (s.carEdge i dir ts r).withCn { (s.carEdge i dir ts r).cn with
      opt := (s.carEdge i dir ts r).cn.opt.setSide (sideOfInput i) r' } := by
  simp [State.carEdge]

/-- R132 on unit 1, with everything an accepted edge leaves as it is. -/
theorem State.carEdge_frame (hi : i < nIn .unit1) (r : OpticalSide) :
    let t := s.carEdge i dir ts r
    t.cn.et.pin.getLsbD i = dir ∧ (∀ j, j ≠ i → t.cn.et.pin.getLsbD j = s.cn.et.pin.getLsbD j) ∧
    t.cn.et.deadline.toNat = (ts.toNat + s.cfg.debounce1.toNat) % 2 ^ 32 ∧
    t = { s with cn := { s.cn with
      et := { s.cn.et with pin := t.cn.et.pin, lastEdgeTs := ts, armed := true, deadline := t.cn.et.deadline }
      opt := s.cn.opt.setSide (sideOfInput i) (t.cn.opt.side (sideOfInput i)) } } :=
  ⟨EventTimer.edge_pin_self _ _ _ _ hi, fun _ hj => EventTimer.edge_pin_of_ne _ _ _ _ hj,
    EventTimer.edge_deadline_toNat .., by rw [State.carEdge_side]; rfl⟩

/-- An edge that keeps its side touches the timer alone. -/
theorem State.carEdge_keep : s.carEdge i dir ts (s.cn.opt.side (sideOfInput i)) =
    s.withCn { s.cn with et := s.cn.et.edge s.cfg.debounce1 i dir ts } := by
  rw [State.carEdge, Optical.setSide_side]

theorem etEdge_unit1_past (hi : i < nIn .unit1) (hpast : s.cn.et.edgePast s.cfg.debounce1 ts = true) :
    etEdge .unit1 i dir ts s = .refuse (.edgePastWindow .unit1) := by
  rw [etEdge, if_neg (Nat.not_le_of_lt hi)]
  simp only [hpast, if_true]

section
variable (hi : i < nIn .unit1) (hwindow : s.cn.et.edgePast s.cfg.debounce1 ts = false)
include hi hwindow

theorem etEdge_unit1_same (hsame : dir = s.cn.et.pin.getLsbD i) :
    etEdge .unit1 i dir ts s = .step (s.carEdge i dir ts (s.cn.opt.side (sideOfInput i))) := by
  rw [etEdge, if_neg (Nat.not_le_of_lt hi), State.carEdge_keep]
  simp only [hwindow, ← hsame, bne_self_eq_false, Bool.false_eq_true, if_false]

/-- A changed level runs the optical rule on the state whose timer has restarted. -/
theorem etEdge_unit1_changed (hchanged : dir ≠ s.cn.et.pin.getLsbD i) : etEdge .unit1 i dir ts s =
    opticalEdge (sideOfInput i) dir ts (s.carEdge i dir ts (s.cn.opt.side (sideOfInput i))) := by
  rw [etEdge, if_neg (Nat.not_le_of_lt hi), State.carEdge_keep]
  simp only [hwindow, bne_iff_ne.2 hchanged, Bool.false_eq_true, if_false, if_true]

theorem etEdge_unit1_activates (hchanged : dir ≠ s.cn.et.pin.getLsbD i) (hactive : dir = s.cfg.active1) :
    etEdge .unit1 i dir ts s = .step (s.carEdge i dir ts ((s.cn.opt.side (sideOfInput i)).activate ts)) := by
  rw [etEdge_unit1_changed hi hwindow hchanged, State.carEdge_keep]
  exact if_pos hactive

end
end

/-- R141 in numbers: the history duration from the start before this one, when one was known. -/
theorem OpticalSide.activate_hcur_toNat (r : OpticalSide) (ts : U32) : (r.activate ts).hcur.toNat =
    if r.riseSeen then (ts.toNat + 2 ^ 32 - r.riseTs.toNat) % 2 ^ 32 else r.hcur.toNat := by
  rw [← wsub32_toNat]
  cases h : r.riseSeen <;> simp [OpticalSide.activate, h]

theorem OpticalSide.activate_eq (r : OpticalSide) (ts : U32) : r.activate ts = { r with
    riseSeen := true, riseTs := ts, hcur := (r.activate ts).hcur, hcurValid := r.riseSeen || r.hcurValid } := by
  cases h : r.riseSeen <;> simp [OpticalSide.activate, h]

/-- Settles O11. -/
theorem edgeActivatesUnit1 : Obligations.EdgeActivatesUnit1 := by
  intro s i dir ts hi hwindow hlevel sd r
  have hin := (edgePast_eq_false_iff ..).2 hwindow
  by_cases hsame : dir = s.cn.et.pin.getLsbD i
  · obtain ⟨hpin, hothers, hdeadline, hframe⟩ := State.carEdge_frame (s := s) (dir := dir) (ts := ts) hi r
    exact ⟨_, exec_of_step (etEdge_unit1_same hi hin hsame), hpin, hothers, hdeadline,
      fun _ => State.carEdge_side r, fun hne => absurd hsame hne, hframe⟩
  · obtain ⟨hpin, hothers, hdeadline, hframe⟩ :=
      State.carEdge_frame (s := s) (dir := dir) (ts := ts) hi (r.activate ts)
    have hside : (s.carEdge i dir ts (r.activate ts)).cn.opt.side sd = r.activate ts := State.carEdge_side _
    refine ⟨s.carEdge i dir ts (r.activate ts),
      exec_of_step (etEdge_unit1_activates hi hin hsame (hlevel.resolve_left hsame)), hpin, hothers, hdeadline,
      fun he => absurd he hsame, fun _ => ?_, hframe⟩
    rw [hside]
    exact ⟨r.activate_hcur_toNat ts, r.activate_eq ts⟩

/-- What a side becomes at the end of a pulse of duration `p` (R142, R144): noise and a pending sample keep it. -/
def OpticalSide.endPulse (r : OpticalSide) (minPass p : U32) (pending : Bool) : OpticalSide :=
  if p.toNat < minPass.toNat ∨ pending = true then r else r.capture p

/-- What the end of a pulse of duration `p` logs (R142). -/
def noiseLog (sd : Side) (minPass p : U32) : List OutEvent :=
  if p.toNat < minPass.toNat then [.err (.sensorNoise sd p)] else []

/-- The end of a pulse restarts the timer, logs a duration below `MIN_PASS`, and otherwise captures the pulse unless a
sample is pending. -/
theorem exec_etEdge_unit1_ends {s : State} {i : Nat} {dir : Bool} {ts p : U32} {r : OpticalSide}
    (hi : i < nIn .unit1) (hwindow : s.cn.et.edgePast s.cfg.debounce1 ts = false)
    (hchanged : dir ≠ s.cn.et.pin.getLsbD i) (hinactive : dir ≠ s.cfg.active1)
    (hr : s.cn.opt.side (sideOfInput i) = r) (hp : wsub32 ts r.riseTs = p) :
    exec (.etEdge .unit1 i dir ts) s = .next
      (State.carEdge { s with out := s.out ++ noiseLog (sideOfInput i) s.cfg.minPass p } i dir ts
        (r.endPulse s.cfg.minPass p s.cn.et.ready)) := by
  have hedge : verdict (.etEdge .unit1 i dir ts) s = _ := etEdge_unit1_changed hi hwindow hchanged
  have hcases := opticalEdge_cases (sideOfInput i) dir ts (s.carEdge i dir ts r)
  rw [hr] at hedge
  rw [State.carEdge_side, hp] at hcases
  obtain ⟨hactive, -⟩ | ⟨-, hshort, hv⟩ | ⟨-, hlong, hready, hv⟩ | ⟨-, hlong, hready, hv⟩ := hcases
  · exact absurd hactive hinactive
  · have hlt : p.toNat < s.cfg.minPass.toNat := hshort
    rw [noiseLog, if_pos hlt, OpticalSide.endPulse, if_pos (.inl hlt)]
    exact exec_of_step (hedge.trans hv)
  · have hge : ¬p.toNat < s.cfg.minPass.toNat := hlong
    rw [noiseLog, if_neg hge, List.append_nil, OpticalSide.endPulse, if_pos (.inr hready)]
    exact exec_of_drop (hedge.trans hv)
  · have hge : ¬p.toNat < s.cfg.minPass.toNat := hlong
    have hcaptured : ¬(p.toNat < s.cfg.minPass.toNat ∨ s.cn.et.ready = true) :=
      not_or.2 ⟨hge, Bool.eq_false_iff.1 hready⟩
    rw [noiseLog, if_neg hge, List.append_nil, OpticalSide.endPulse, if_neg hcaptured]
    rw [← State.carEdge_setSide] at hv
    exact exec_of_step (hedge.trans hv)

/-- Settles O12. -/
theorem edgeEndsPulseUnit1 : Obligations.EdgeEndsPulseUnit1 := by
  intro s i dir ts hi hwindow hchanged hinactive sd r d
  have hd : (wsub32 ts r.riseTs).toNat = d := wsub32_toNat ..
  obtain ⟨hpin, hothers, hdeadline, hframe⟩ := State.carEdge_frame
    (s := { s with out := s.out ++ noiseLog sd s.cfg.minPass (wsub32 ts r.riseTs) }) (dir := dir) (ts := ts) hi
    (r.endPulse s.cfg.minPass (wsub32 ts r.riseTs) s.cn.et.ready)
  rw [← hd]
  exact ⟨_, wsub32 ts r.riseTs, rfl,
    exec_etEdge_unit1_ends hi ((edgePast_eq_false_iff ..).2 hwindow) hchanged hinactive rfl rfl,
    hpin, hothers, hdeadline, State.carEdge_side _, hframe⟩

end Sys2Proof.Machine
end

section
/-! The expiry of each unit's timer (R133, R135 to R137, R145; O13 to O15), and that any number of edges before it end
in one sample (R138; O19). -/

namespace Sys2Proof.Machine

/-! ## `ET.FIRE` -/

section
variable {s : State} {ts : U32}

theorem etFire_unit0_stopped (hrun : s.tn.td.fatal = false) (hstopped : s.tn.et.armed = false) :
    etFire .unit0 ts s = .refuse (.timerNotArmed .unit0) := by
  simp [etFire, hrun, hstopped]

theorem etFire_unit0_off (hrun : s.tn.td.fatal = false) (harmed : s.tn.et.armed = true)
    (hoff : ts ≠ s.tn.et.deadline) : etFire .unit0 ts s = .refuse (.fireOffDeadline .unit0) := by
  simp [etFire, hrun, harmed, hoff]

theorem etFire_unit0_due (hrun : s.tn.td.fatal = false) (harmed : s.tn.et.armed = true) :
    etFire .unit0 s.tn.et.deadline s = basicFire (s.withTn { s.tn with et := s.tn.et.disarm }) := by
  simp [etFire, hrun, harmed]

theorem etFire_unit1_stopped (hstopped : s.cn.et.armed = false) :
    etFire .unit1 ts s = .refuse (.timerNotArmed .unit1) := by
  simp [etFire, hstopped]

theorem etFire_unit1_off (harmed : s.cn.et.armed = true) (hoff : ts ≠ s.cn.et.deadline) :
    etFire .unit1 ts s = .refuse (.fireOffDeadline .unit1) := by
  simp [etFire, harmed, hoff]

theorem etFire_unit1_due (harmed : s.cn.et.armed = true) :
    etFire .unit1 s.cn.et.deadline s = opticalFire (s.withCn { s.cn with et := s.cn.et.disarm }) := by
  simp [etFire, harmed]

/-- With no sample pending, the expiry of unit 0 stores one. -/
theorem exec_etFire_unit0_samples (hrun : s.tn.td.fatal = false) (harmed : s.tn.et.armed = true)
    (hready : s.tn.et.ready = false) : exec (.etFire .unit0 s.tn.et.deadline) s =
      .next (s.withTn { s.tn with et := s.tn.et.disarm.sample }) := by
  have hfire : verdict (.etFire .unit0 s.tn.et.deadline) s = _ := etFire_unit0_due hrun harmed
  obtain ⟨hpending, -⟩ | ⟨-, hv⟩ := basicFire_cases (s.withTn { s.tn with et := s.tn.et.disarm })
  · cases hready.symm.trans hpending
  · exact exec_of_step (hfire.trans hv)

/-- A pending sample is kept by the expiry of unit 0. -/
theorem exec_etFire_unit0_pending (hrun : s.tn.td.fatal = false) (harmed : s.tn.et.armed = true)
    (hready : s.tn.et.ready = true) : exec (.etFire .unit0 s.tn.et.deadline) s =
      .next (s.withTn { s.tn with et := s.tn.et.disarm }) := by
  have hfire : verdict (.etFire .unit0 s.tn.et.deadline) s = _ := etFire_unit0_due hrun harmed
  obtain ⟨-, hv⟩ | ⟨hlowered, -⟩ := basicFire_cases (s.withTn { s.tn with et := s.tn.et.disarm })
  · exact exec_of_drop (hfire.trans hv)
  · cases hready.symm.trans hlowered

end

/-- Settles O13. -/
theorem illTimedEventsRefused : Obligations.IllTimedEventsRefused := by
  intro s i dir ts
  refine ⟨fun hrun hi harmed hlate => exec_of_refuse ?_, fun hi harmed hlate => exec_of_refuse ?_,
    fun hrun hstopped => exec_of_refuse (etFire_unit0_stopped hrun hstopped),
    fun hstopped => exec_of_refuse (etFire_unit1_stopped hstopped),
    fun hrun harmed hoff => exec_of_refuse (etFire_unit0_off hrun harmed hoff),
    fun harmed hoff => exec_of_refuse (etFire_unit1_off harmed hoff)⟩
  · have hpast := (edgePast_iff s.tn.et s.cfg.debounce0 ts).2 ⟨harmed, hlate⟩
    exact (etEdge_unit0 hi hrun).trans (if_pos hpast)
  · exact etEdge_unit1_past hi ((edgePast_iff ..).2 ⟨harmed, hlate⟩)

/-- Settles O14. -/
theorem fireStoresSampleUnit0 : Obligations.FireStoresSampleUnit0 := by
  intro s hrun harmed
  cases hready : s.tn.et.ready with
  | true => exact ⟨_, exec_etFire_unit0_pending hrun harmed hready, by rw [if_pos rfl]; rfl⟩
  | false => exact ⟨_, exec_etFire_unit0_samples hrun harmed hready, by rw [if_neg (by decide)]; rfl⟩

/-- Settles O15. -/
theorem firePairsSensorsUnit1 : Obligations.FirePairsSensorsUnit1 := by
  intro s harmed
  have hfire : verdict (.etFire .unit1 s.cn.et.deadline) s = _ := etFire_unit1_due harmed
  obtain ⟨hready, hleft, hright, hv⟩ | ⟨hunpaired, hv⟩ :=
    opticalFire_cases (s.withCn { s.cn with et := s.cn.et.disarm })
  · exact ⟨_, exec_of_step (hfire.trans hv), fun hunpaired => absurd ⟨hready, hleft, hright⟩ hunpaired,
      fun _ _ _ => ⟨wsub32_toNat .., rfl⟩⟩
  · exact ⟨_, exec_of_drop (hfire.trans hv), fun _ => rfl,
      fun hready hleft hright => absurd ⟨hready, hleft, hright⟩ hunpaired⟩

/-! ## Coalescing (R138) -/

/-- The state an outcome goes on in. -/
def nextState? : Host.Outcome State Fault Refusal → Option State
  | .next t => some t
  | .fault _ => none
  | .refused _ => none

theorem nextState?_eq_some {o : Host.Outcome State Fault Refusal} {t : State} :
    nextState? o = some t ↔ o = .next t := by
  cases o <;> simp [nextState?]

/-- An edge of unit 0, as input, level and timestamp, if it is admitted. -/
def edge0? (s : State) (e : Nat × Bool × U32) : Option State := nextState? (exec (.etEdge .unit0 e.1 e.2.1 e.2.2) s)

theorem edge0?_eq_some {s t : State} {e : Nat × Bool × U32} (hrun : s.tn.td.fatal = false) (h : edge0? s e = some t) :
    e.1 < nIn .unit0 ∧ t = s.timingEdge e.1 e.2.1 e.2.2 :=
  exec_etEdge_unit0_eq_next hrun (nextState?_eq_some.1 h)

/-- Edges of unit 0 leave alone whether the node is halted, whether a sample is pending, and the parameters. -/
theorem edges0_keep {edges : List (Nat × Bool × U32)} {s r : State} (hrun : s.tn.td.fatal = false)
    (h : edges.foldlM edge0? s = some r) :
    r.tn.td.fatal = false ∧ r.tn.et.ready = s.tn.et.ready ∧ r.cfg = s.cfg := by
  induction edges generalizing s with
  | nil => cases h; exact ⟨hrun, rfl, rfl⟩
  | cons e edges ih =>
    rw [List.foldlM_cons] at h
    obtain ⟨s', he, hrest⟩ := Option.bind_eq_some_iff.1 h
    obtain ⟨-, rfl⟩ := edge0?_eq_some hrun he
    exact ih (s := s.timingEdge e.1 e.2.1 e.2.2) hrun hrest

/-- After a list of admitted edges the timer is the one the last of them restarted, on a node that no edge before it
halted or gave a sample. -/
theorem last_of_edges0 {edges : List (Nat × Bool × U32)} {last : Nat × Bool × U32} {s t : State}
    (hrun : s.tn.td.fatal = false) (h : (edges ++ [last]).foldlM edge0? s = some t) :
    ∃ r : State, r.tn.td.fatal = false ∧ r.tn.et.ready = s.tn.et.ready ∧ r.cfg = s.cfg ∧
      last.1 < nIn .unit0 ∧ t = r.timingEdge last.1 last.2.1 last.2.2 := by
  rw [List.foldlM_append] at h
  obtain ⟨r, hedges, hlast⟩ := Option.bind_eq_some_iff.1 h
  simp only [List.foldlM_cons, List.foldlM_nil, bind_pure] at hlast
  obtain ⟨hrun', hready, hcfg⟩ := edges0_keep hrun hedges
  exact ⟨r, hrun', hready, hcfg, edge0?_eq_some hrun' hlast⟩

/-- Settles O19: the state before the last edge is, but for the timer, the one before all edges. -/
theorem edgesCoalesceIntoOneSample : Obligations.EdgesCoalesceIntoOneSample := by
  intro edges last s t hrun hready h
  obtain ⟨r, hrun', hready', hcfg, hinput, rfl⟩ := last_of_edges0 hrun h
  have hlowered := hready'.trans hready
  have hsamples := exec_etFire_unit0_samples (s := r.timingEdge last.1 last.2.1 last.2.2) hrun' rfl hlowered
  rw [← hcfg]
  exact ⟨hlowered, fun ts hoff => exec_of_refuse (etFire_unit0_off hrun' rfl hoff), _, hsamples, rfl, rfl,
    EventTimer.edge_pin_self r.tn.et r.cfg.debounce0 last.2.1 last.2.2 hinput, rfl,
    fun ts => exec_of_refuse (etFire_unit0_stopped hrun' rfl)⟩

end Sys2Proof.Machine
end

section
/-! Taking a sample, and the operator controls (R147 to R150; O16 to O18). -/

namespace Sys2Proof.Machine

/-! ## `ET.TAKE` and `OC.SERVE` by the node and the signal -/

section
variable {s : State}

theorem etTake_unit0_halted (hhalt : s.tn.td.fatal = true) : etTake .unit0 s = .drop s := by
  simp [etTake, hhalt]

theorem etTake_unit0_lowered (hrun : s.tn.td.fatal = false) (hready : s.tn.et.ready = false) :
    etTake .unit0 s = .hold := by
  simp [etTake, hrun, hready]

theorem etTake_unit0_ready (hrun : s.tn.td.fatal = false) (hready : s.tn.et.ready = true) :
    etTake .unit0 s = .step (takeSample0 s) := by
  simp [etTake, hrun, hready]

theorem etTake_unit1_lowered (hready : s.cn.et.ready = false) : etTake .unit1 s = .hold := by
  simp [etTake, hready]

theorem etTake_unit1_ready (hready : s.cn.et.ready = true) : etTake .unit1 s = .step (takeSample1 s) := by
  simp [etTake, hready]

theorem ocServe_halted (hhalt : s.tn.td.fatal = true) : ocServe s = .drop s := by
  simp [ocServe, hhalt]

theorem ocServe_lowered (hrun : s.tn.td.fatal = false) (hready : s.tn.et.ready = false) : ocServe s = .hold := by
  simp [ocServe, hrun, hready]

theorem ocServe_ready (hrun : s.tn.td.fatal = false) (hready : s.tn.et.ready = true) :
    ocServe s = .step (serveControls s.tn.et.smpLevels (takeSample0 s)) := by
  simp [ocServe, hrun, hready]

end

/-- Settles O16. -/
theorem takeHandsOutSample : Obligations.TakeHandsOutSample := fun _ =>
  ⟨fun hhalt => exec_of_drop (etTake_unit0_halted hhalt), etTake_unit0_lowered, etTake_unit1_lowered,
    fun hrun hready => exec_of_step (etTake_unit0_ready hrun hready),
    fun hready => exec_of_step (etTake_unit1_ready hready)⟩

/-- Settles O17. -/
theorem takeHoldsOnLoweredSignal : Obligations.TakeHoldsOnLoweredSignal := by
  intro s
  constructor
  · intro hrun hready
    have htake : verdict (.etTake .unit0) s = .hold := etTake_unit0_lowered hrun hready
    have hserve : verdict .ocServe s = .hold := ocServe_lowered hrun hready
    exact ⟨htake, exec_of_hold htake, hserve, exec_of_hold hserve⟩
  · intro hready
    have htake : verdict (.etTake .unit1) s = .hold := etTake_unit1_lowered hready
    exact ⟨htake, exec_of_hold htake⟩

/-! ## The controls (R150) -/

theorem pressed_iff (cfg : Config) (levels : BitVec 3) (i : Nat) :
    pressed cfg levels i = true ↔ levels.getLsbD i = cfg.active0 := beq_iff_eq

/-- The lap target after the controls are served. -/
def servedTarget (cfg : Config) (levels : BitVec 3) (target : Byte) : Byte :=
  if pressed cfg levels 0 then target
  else if pressed cfg levels 1 then raiseTarget target
  else if pressed cfg levels 2 then lowerTarget target
  else target

theorem servedTarget_toNat (cfg : Config) (levels : BitVec 3) (target : Byte) :
    (servedTarget cfg levels target).toNat =
      if levels.getLsbD 0 = cfg.active0 then target.toNat
      else if levels.getLsbD 1 = cfg.active0 then min 255 (target.toNat + 1)
      else if levels.getLsbD 2 = cfg.active0 then max 1 (target.toNat - 1)
      else target.toNat := by
  simp only [servedTarget, pressed_iff, apply_ite BitVec.toNat, raiseTarget_toNat, lowerTarget_toNat]

/-- Start has the highest priority and leaves the target; the others log nothing. -/
theorem serveControls_eq_servedTarget (levels : BitVec 3) (s : State) : serveControls levels s = { s with
    out := s.out ++ if levels.getLsbD 0 = s.cfg.active0 then [.startReq] else []
    tn := { s.tn with lapTarget := servedTarget s.cfg levels s.tn.lapTarget } } := by
  by_cases hstart : levels.getLsbD 0 = s.cfg.active0
  · have hpressed := (pressed_iff s.cfg levels 0).2 hstart
    rw [serveControls, servedTarget, if_pos hpressed, if_pos hpressed, if_pos hstart]
    rfl
  · have hreleased := mt (pressed_iff s.cfg levels 0).1 hstart
    rw [serveControls, servedTarget, if_neg hreleased, if_neg hreleased, if_neg hstart, List.append_nil]
    split
    · rfl
    · split <;> rfl

/-- Settles O18. -/
theorem serveActsOnHighestPriority : Obligations.ServeActsOnHighestPriority := by
  refine fun s => ⟨fun hhalt => exec_of_drop (ocServe_halted hhalt), ocServe_lowered, fun hrun hready => ?_⟩
  refine ⟨_, exec_of_step (ocServe_ready hrun hready), ?_, ?_⟩ <;> rw [serveControls_eq_servedTarget]
  · exact servedTarget_toNat s.cfg s.tn.et.smpLevels s.tn.lapTarget
  · rfl

end Sys2Proof.Machine
end

section
/-! The exchange of a telegram: its poll, its bytes and its close, each in its order (R171 to R173; O20 to O22). -/

namespace Sys2Proof.Machine

/-! ## `TD.POLL`, `TD.RXB` and a closed `TD.DEC`, by the node and the exchange -/

section
variable {s : State} {b : Byte}

theorem tdPoll_halted (hhalt : s.tn.td.fatal = true) : tdPoll s = .drop s := by
  simp [tdPoll, hhalt]

theorem tdPoll_open (hrun : s.tn.td.fatal = false) (hopen : s.tn.td.isOpen = true) :
    tdPoll s = .refuse .exchangeOpen := by
  simp [tdPoll, hrun, hopen]

theorem tdPoll_closed (hrun : s.tn.td.fatal = false) (hclosed : s.tn.td.isOpen = false) :
    tdPoll s = .step (s.withTd { s.tn.td with buf := [], idx := 0, isDone := false, isOpen := true }) := by
  simp [tdPoll, hrun, hclosed]

theorem tdRxb_halted (hhalt : s.tn.td.fatal = true) : tdRxb b s = .drop s := by
  simp [tdRxb, hhalt]

theorem tdRxb_closed (hrun : s.tn.td.fatal = false) (hclosed : s.tn.td.isOpen = false) :
    tdRxb b s = .refuse .noExchangeOpen := by
  simp [tdRxb, hrun, hclosed]

theorem tdRxb_done (hrun : s.tn.td.fatal = false) (hopen : s.tn.td.isOpen = true) (hdone : s.tn.td.isDone = true) :
    tdRxb b s = .drop s := by
  simp [tdRxb, hrun, hopen, hdone]

theorem tdRxb_receiving (hrun : s.tn.td.fatal = false) (hopen : s.tn.td.isOpen = true)
    (hgoes : s.tn.td.isDone = false) (hroom : s.tn.td.idx < bufLen) :
    tdRxb b s = .step (s.withTd (s.tn.td.receive b)) := by
  simp [tdRxb, hrun, hopen, hgoes, hroom]

theorem tdDec_closed (hrun : s.tn.td.fatal = false) (hclosed : s.tn.td.isOpen = false) :
    tdDec s = .refuse .noExchangeOpen := by
  simp [tdDec, hrun, hclosed]

end

/-! ## A byte received (R172) -/

section
variable (td : Decoder) (b : Byte)

theorem Decoder.receive_read_idx : (td.receive b).buf.read td.idx = b := Mem.read_write_self td.buf td.idx b

theorem Decoder.receive_read_of_ne {a : Nat} (ha : a ≠ td.idx) : (td.receive b).buf.read a = td.buf.read a :=
  Mem.read_write_ne td.buf td.idx a b ha

theorem Decoder.receive_isDone_iff (hgoes : td.isDone = false) :
    (td.receive b).isDone = true ↔ b = endMarker ∨ td.idx + 1 = bufLen := by
  simp [Decoder.receive, receptionDone, hgoes]

end

/-! ## The statements -/

/-- Settles O20. -/
theorem pollOpensExchange : Obligations.PollOpensExchange := fun _ =>
  ⟨fun hhalt => exec_of_drop (tdPoll_halted hhalt), fun hrun hopen => exec_of_refuse (tdPoll_open hrun hopen),
    fun hrun hclosed => ⟨_, exec_of_step (tdPoll_closed hrun hclosed), Mem.read_nil, rfl⟩⟩

/-- Settles O21. -/
theorem receivedByteIsStored : Obligations.ReceivedByteIsStored := by
  refine fun s b => ⟨fun hhalt => exec_of_drop (tdRxb_halted hhalt),
    fun hrun hclosed => exec_of_refuse (tdRxb_closed hrun hclosed),
    fun hrun hopen hdone => exec_of_drop (tdRxb_done hrun hopen hdone), fun hrun hopen hgoes hroom => ?_⟩
  exact ⟨_, exec_of_step (tdRxb_receiving hrun hopen hgoes hroom), s.tn.td.receive_read_idx b,
    fun _ => s.tn.td.receive_read_of_ne b, s.tn.td.receive_isDone_iff b hgoes, rfl⟩

/-- Settles O22. -/
theorem exchangeOrderRefused : Obligations.ExchangeOrderRefused := fun _ _ hrun =>
  ⟨fun hopen => exec_of_refuse (tdPoll_open hrun hopen), fun hclosed => exec_of_refuse (tdRxb_closed hrun hclosed),
    fun hclosed => exec_of_refuse (tdDec_closed hrun hclosed)⟩

end Sys2Proof.Machine
end

section
/-! What the decode of an open exchange does with an Empty telegram, a Heartbeat and a CarPassing telegram that is
dropped (R175 to R179, R297; O23, O24, O27). -/

namespace Sys2Proof.Machine

/-! ## The decode by the class of the telegram (R174) -/

section
variable {s : State}

theorem decodeTelegram_of_heartbeat (hclass : s.tn.td.buf.read 1 = 0x3A) :
    decodeTelegram s = .step (onHeartbeat s) := by
  simp [decodeTelegram, classify, Decoder.byteAt, hclass]

theorem decodeTelegram_of_empty (hclass : s.tn.td.buf.read 1 = 0) : decodeTelegram s = .step (onEmpty s) := by
  simp [decodeTelegram, classify, Decoder.byteAt, hclass]

theorem decodeTelegram_of_badDigit (hbeat : s.tn.td.buf.read 1 ≠ 0x3A) (hempty : s.tn.td.buf.read 1 ≠ 0)
    (hdigit : ¬(0x31 ≤ (s.tn.td.buf.read 1).toNat ∧ (s.tn.td.buf.read 1).toNat ≤ 0x34)) :
    decodeTelegram s = .drop ((clearEmpty s).emit (.err (.decodeNoise (.badCarDigit (s.tn.td.buf.read 1))))) := by
  have hclass : classify (s.tn.td.byteAt 1) = .carPassing := (if_neg hbeat).trans (if_neg hempty)
  have hcar : carOfDigit ((clearEmpty s).tn.td.byteAt 1) = none := (carOfDigit_eq_none _).2 hdigit
  simp only [decodeTelegram, hclass, onCarPassingTelegram, hcar]
  rfl

end

/-! ## An Empty telegram (R178, R300) -/

/-- What an Empty telegram does to a running node: past the bound it is announced and halts. -/
theorem onEmpty_eq {s : State} (hrun : s.tn.td.fatal = false) : onEmpty s = { s with
    out := s.out ++ (if emptyFatal (s.tn.td.emptyCnt + 1)
      then [.err (.linkSilence (s.tn.td.emptyCnt + 1)), .fatalNotice] else [])
    tn := { s.tn with td := { s.tn.td with
      emptyCnt := s.tn.td.emptyCnt + 1, fatal := emptyFatal (s.tn.td.emptyCnt + 1) } } } := by
  cases hsilent : emptyFatal (s.tn.td.emptyCnt + 1) with
  | true => exact (if_pos hsilent).trans (raise_linkSilence _ _)
  | false =>
    rw [if_neg Bool.false_ne_true, List.append_nil, ← hrun]
    exact if_neg (Bool.eq_false_iff.1 hsilent)

/-- Settles O23: under the bound of R30 the count does not wrap. -/
theorem emptyTelegramCounts : Obligations.EmptyTelegramCounts := by
  intro s hrun hopen hbound hclass
  have hcount : (s.tn.td.emptyCnt + 1).toNat = s.tn.td.emptyCnt.toNat + 1 := by bv_omega
  have hfatal : emptyFatal (s.tn.td.emptyCnt + 1) = decide (10 < s.tn.td.emptyCnt.toNat + 1) := by
    rw [← hcount]; rfl
  have hdec : tdDec s = .step (onEmpty (s.withTd { s.tn.td with isOpen := false })) :=
    (tdDec_of_open hrun hopen).trans (decodeTelegram_of_empty hclass)
  refine ⟨_, exec_of_step hdec, ?_⟩
  rw [onEmpty_eq (by exact hrun)]
  refine ⟨hcount, ?_⟩
  simp only [State.withTd_tn, State.withTd_out, hfatal, decide_eq_true_eq]
  rfl

/-! ## A Heartbeat (R179) -/

/-- The light noted and its change announced; nothing else is written. -/
theorem noteLight_eq (ls : Byte) (changed : Bool) (s : State) : noteLight ls changed s = { s with
    out := s.out ++ (if changed then [.lightChanged ls] else [])
    tn := { s.tn with td := { s.tn.td with prevLight := ls, prevLightValid := true } } } := by
  cases changed with
  | false => simp [noteLight, State.withTd, State.withTn]
  | true => rfl

theorem leLight_of_running {ls : Byte} {changed : Bool} {s : State} (hrun : s.tn.td.fatal = false) :
    leLight ls changed s = .step (onLight ls changed s) := by
  simp [leLight, hrun]

/-- Settles O24: the decode of a Heartbeat and `LE.LIGHT` run the same rule on the noted light. -/
theorem heartbeatRunsLight : Obligations.HeartbeatRunsLight := by
  intro s hrun hopen hclass ls changed
  have hdec : tdDec s = .step (onLight ls changed
      (noteLight ls changed (s.withTd { s.tn.td with isOpen := false, emptyCnt := 0 }))) :=
    (tdDec_of_open hrun hopen).trans (decodeTelegram_of_heartbeat hclass)
  rw [noteLight_eq] at hdec
  exact ⟨_, exec_of_step hdec, exec_of_step (leLight_of_running hrun)⟩

/-! ## A CarPassing telegram that is dropped (R175, R176, R297) -/

section
variable {c : CarIdx} {s : State}

/-- The digit byte of a car, from its number (R94). -/
theorem byte_eq_digit {b : Byte} (hdigit : b.toNat = 0x31 + c.val) : b = BitVec.ofNat 8 (0x31 + c.val) := by
  rw [← hdigit, BitVec.ofNat_toNat, BitVec.setWidth_eq]

/-- With a good digit the rest of the telegram is read by a decoder closed and its empty counter cleared. -/
theorem tdDec_of_digit (hrun : s.tn.td.fatal = false) (hopen : s.tn.td.isOpen = true)
    (hdigit : (s.tn.td.buf.read 1).toNat = 0x31 + c.val) :
    tdDec s = onCarTelegram c (s.withTd { s.tn.td with isOpen := false, emptyCnt := 0 }) :=
  (tdDec_of_open hrun hopen).trans (decodeTelegram_of_digit (byte_eq_digit hdigit))

theorem onCarTelegram_of_badNibble {k : Nat} (hbad : s.tn.td.badNibble = some k) :
    onCarTelegram c s = .drop (s.emit (.err (.decodeNoise (.badNibble k)))) := by
  simp only [onCarTelegram, hbad]
  rfl

theorem onCarTelegram_of_zeroTs (hgood : s.tn.td.badNibble = none) (hzero : s.tn.td.telegramTs = 0) :
    onCarTelegram c s = .drop (s.emit (.err (.decodeNoise (.zeroTimestamp c)))) := by
  simp only [onCarTelegram, hgood, if_pos hzero]
  rfl

end

section
variable {td : Decoder} (hzeros : ∀ k, 2 ≤ k → k ≤ 9 → td.buf.read k = 0x30)
include hzeros

/-- The byte `'0'` is a nibble byte. -/
theorem badNibble_of_zeros : td.badNibble = none :=
  (badNibble_eq_none td).2 fun k h2 h9 => by rw [hzeros k h2 h9]; rfl

theorem telegramTs_of_zeros : td.telegramTs = 0 := by
  simp (disch := decide) only [Decoder.telegramTs, Decoder.byteAt, hzeros]
  rfl

end

/-- Settles O27. -/
theorem badCarTelegramDropped : Obligations.BadCarTelegramDropped := by
  intro s hrun hopen failed nibbleByte
  refine ⟨fun hbeat hempty hdigit => ?_, fun c hdigit => ⟨fun k h2 h9 hbad hbefore => ?_, fun hzeros => ?_⟩⟩
  · exact exec_of_drop ((tdDec_of_open hrun hopen).trans (decodeTelegram_of_badDigit hbeat hempty hdigit))
  · have hfirst : s.tn.td.badNibble = some k :=
      badNibble_eq_some s.tn.td k h2 h9 (Bool.eq_false_iff.2 (mt (nibbleValid_iff _).1 hbad))
        fun j hj hjk => (nibbleValid_iff _).2 (hbefore j hj hjk)
    exact exec_of_drop ((tdDec_of_digit hrun hopen hdigit).trans (onCarTelegram_of_badNibble hfirst))
  · exact exec_of_drop ((tdDec_of_digit hrun hopen hdigit).trans
      (onCarTelegram_of_zeroTs (badNibble_of_zeros hzeros) (telegramTs_of_zeros hzeros)))

end Sys2Proof.Machine
end

section
/-! What the stand-alone operations of the timestamp comparator latch (spec/42_timestamp_comparator.md R205, R206; O30,
O31). -/

namespace Sys2Proof.Machine

/-! ## The comparator's operations by the halt of the node -/

section
variable {a b : U32} {s : State}

theorem tcSub_halted (hhalt : s.tn.td.fatal = true) : tcSub a b s = .drop s := by
  simp [tcSub, hhalt]

theorem tcSub_running (hrun : s.tn.td.fatal = false) :
    tcSub a b s = .step (s.withTn { s.tn with tc := { s.tn.tc with diff := wsub32 a b } }) := by
  simp [tcSub, hrun]

theorem tcCmp_halted (hhalt : s.tn.td.fatal = true) : tcCmp a b s = .drop s := by
  simp [tcCmp, hhalt]

theorem tcCmp_running (hrun : s.tn.td.fatal = false) :
    tcCmp a b s = .step (s.withTn { s.tn with tc := { diff := wsub32 a b, before := tsBefore a b } }) := by
  simp [tcCmp, hrun]

end

/-- Settles O30: the latched difference is the wrapping subtraction of R201. -/
theorem subLatchesDifference : Obligations.SubLatchesDifference := by
  refine fun s a b => ⟨fun hhalt => exec_of_drop (tcSub_halted hhalt), fun hrun => ?_⟩
  exact ⟨_, exec_of_step (tcSub_running hrun), wsub32_toNat a b, rfl⟩

/-- Settles O31: the latched flag is the sign test of R203. -/
theorem cmpLatchesDifferenceAndSign : Obligations.CmpLatchesDifferenceAndSign := by
  refine fun s a b => ⟨fun hhalt => exec_of_drop (tcCmp_halted hhalt), fun hrun => ?_⟩
  exact ⟨_, exec_of_step (tcCmp_running hrun), wsub32_toNat a b, tsBefore_iff a b, rfl⟩

end Sys2Proof.Machine
end

section
/-! A passing on a running node: what it drops, what it writes in the record, what it announces, and the winner
(R211 to R216, R220; O32, O33, O35). -/

namespace Sys2Proof.Machine

/-! ## The guards of a passing (R211, R215) -/

section
variable {c : CarIdx} {ts : U32} {s : State}

theorem lePass_halted (hhalt : s.tn.td.fatal = true) : lePass c ts s = .drop s := by
  simp [lePass, hhalt]

theorem lePass_zeroTs (hrun : s.tn.td.fatal = false) :
    lePass c 0 s = .drop (s.emit (.err (.decodeNoise (.zeroTimestamp c)))) := by
  obtain ⟨-, h⟩ | ⟨hts, -⟩ | ⟨hts, -⟩ := onCarPassing_cases c 0 s
  · exact (lePass_of_running hrun).trans h
  · exact absurd rfl hts
  · exact absurd rfl hts

theorem lePass_full (hrun : s.tn.td.fatal = false) (hts : ts ≠ 0) (hfull : s.tn.cars[c].lapCount = 255) :
    lePass c ts s = .drop { s with
      out := s.out ++ [.err (.lapOverflow c)], tn := { s.tn with lapOvf := true } } := by
  obtain ⟨h0, -⟩ | ⟨-, -, h⟩ | ⟨-, hcount, -⟩ := onCarPassing_cases c ts s
  · exact absurd h0 hts
  · exact (lePass_of_running hrun).trans h
  · exact absurd hfull hcount

theorem lePass_counted (hrun : s.tn.td.fatal = false) (hts : ts ≠ 0) (hcount : s.tn.cars[c].lapCount ≠ 255) :
    lePass c ts s = .step (countPassing c ts s) := by
  obtain ⟨h0, -⟩ | ⟨-, hfull, -⟩ | ⟨-, -, h⟩ := onCarPassing_cases c ts s
  · exact absurd h0 hts
  · exact absurd hfull hcount
  · exact (lePass_of_running hrun).trans h

end

/-- Settles O35. -/
theorem passGuardsDrop : Obligations.PassGuardsDrop := fun _ _ _ =>
  ⟨fun hhalt => exec_of_drop (lePass_halted hhalt), fun hrun => exec_of_drop (lePass_zeroTs hrun),
    fun hrun hts hfull => exec_of_drop (lePass_full hrun hts hfull)⟩

/-! ## The win test of a counted passing (R220) -/

/-- The next counted passing of car `c` wins: a race is going and its count reaches the lap target. -/
def Wins (c : CarIdx) (s : State) : Prop :=
  s.tn.status = .raceGoing ∧ s.tn.lapTarget.toNat ≤ s.tn.cars[c].lapCount.toNat + 1

/-- The state a counted passing tests for the win: items 1 to 4 done. -/
def passedLine (c : CarIdx) (ts : U32) (s : State) : State :=
  notifyFinishLine c (s.withCar c (s.tn.cars[c].pass ts))

section
variable {c : CarIdx} (ts : U32) {s : State}

theorem winReached_iff (hcount : s.tn.cars[c].lapCount ≠ 255) :
    winReached s.tn.status (s.tn.cars[c].lapCount + 1) s.tn.lapTarget = true ↔ Wins c s := by
  have hsucc : (s.tn.cars[c].lapCount + 1).toNat = s.tn.cars[c].lapCount.toNat + 1 := by bv_omega
  rw [winReached, Bool.and_eq_true, beq_iff_eq, decide_eq_true_eq, BitVec.le_def, hsucc, Wins]

theorem countPassing_of_wins (hcount : s.tn.cars[c].lapCount ≠ 255) (hwon : Wins c s) :
    countPassing c ts s = win c (passedLine c ts s) := by
  rw [countPassing_eq]
  exact if_pos ((winReached_iff hcount).2 hwon)

theorem countPassing_of_not_wins (hcount : s.tn.cars[c].lapCount ≠ 255) (hnot : ¬Wins c s) :
    countPassing c ts s = passedLine c ts s := by
  rw [countPassing_eq]
  exact if_neg (mt (winReached_iff hcount).1 hnot)

theorem passedLine_tn : (passedLine c ts s).tn = { s.tn with cars := s.tn.cars.set c (s.tn.cars[c].pass ts) } :=
  notifyFinishLine_tn ..

theorem passedLine_cfg : (passedLine c ts s).cfg = s.cfg := notifyFinishLine_cfg ..

theorem passedLine_out : (passedLine c ts s).out =
    s.out ++ if c = 0 then List.replicate s.cfg.resend (.tx .t2c 2) else [] := notifyFinishLine_out ..

theorem passedLine_count (d : Dir) (x : Byte) : List.count x ((passedLine c ts s).ch.inFlight d) =
    List.count x (s.ch.inFlight d) + if d = .t2c ∧ x = 2 ∧ c = 0 then s.cfg.resend else 0 :=
  notifyFinishLine_count ..

/-- A counted passing writes the records, the winner registers, the actuator, the status, the channel and the log
alone. -/
theorem countPassing_frame (hcount : s.tn.cars[c].lapCount ≠ 255) : let t := countPassing c ts s; t = { s with
    out := t.out, ch := t.ch
    tn := { s.tn with
      cars := t.tn.cars, winnerValid := t.tn.winnerValid, winnerCar := t.tn.winnerCar
      winMean := t.tn.winMean, winSd := t.tn.winSd, actOut := t.tn.actOut, status := t.tn.status } } := by
  refine State.ext_parts ?_ (countPassing_cn ..) rfl rfl (countPassing_cfg ..) (countPassing_stimulus ..)
  by_cases hwon : Wins c s
  · simp only [countPassing_of_wins ts hcount hwon, win_tn, passedLine_tn]
  · simp only [countPassing_of_not_wins ts hcount hwon, passedLine_tn]

theorem countPassing_car_self : (countPassing c ts s).tn.cars[c] = s.tn.cars[c].pass ts := by
  rw [countPassing_cars, getElem_set_car, if_pos rfl]

theorem countPassing_car_ne {d : CarIdx} (hd : d ≠ c) : (countPassing c ts s).tn.cars[d] = s.tn.cars[d] := by
  rw [countPassing_cars, getElem_set_car, if_neg hd]

end

/-! ## The record (R212, R213) -/

section
variable {r : CarRecord} (ts : U32)

/-- The first passing leaves the lap times and the improvement. -/
theorem pass_first (h : r.lastTs = 0) : (r.pass ts).lapTime = r.lapTime ∧
    (r.pass ts).prevLapTime = r.prevLapTime ∧ (r.pass ts).improvement = r.improvement := by
  rw [CarRecord.pass_eq]
  exact ⟨if_pos h, if_pos h, if_pos (.inl h)⟩

/-- A later passing has a lap time, and an improvement when it is not the first lap time. -/
theorem pass_later (h : r.lastTs ≠ 0) : (r.pass ts).lapTime = wsub32 ts r.lastTs ∧
    (r.pass ts).prevLapTime = r.lapTime ∧ (r.lapTime = 0 → (r.pass ts).improvement = r.improvement) ∧
    (r.lapTime ≠ 0 → (r.pass ts).improvement = ssub64 (r.pass ts).lapTime r.lapTime) := by
  rw [CarRecord.pass_eq]
  exact ⟨if_neg h, if_neg h, fun hlap => if_pos (.inr hlap), fun hlap => if_neg (not_or.2 ⟨h, hlap⟩)⟩

theorem pass_hist_read_self : (r.pass ts).hist.read r.lapCount.toNat = (r.pass ts).lapTime := by
  rw [CarRecord.pass_hist, Mem.read_write_self]

theorem pass_hist_read_ne {a : Nat} (ha : a ≠ r.lapCount.toNat) : (r.pass ts).hist.read a = r.hist.read a := by
  rw [CarRecord.pass_hist, Mem.read_write_ne _ _ _ _ ha]

end

/-- Settles O32. -/
theorem passUpdatesRecord : Obligations.PassUpdatesRecord := by
  intro s c ts hrun hts hcount r
  refine ⟨_, exec_of_step (lePass_counted hrun hts hcount), ?_, fun d hd => countPassing_car_ne ts hd,
    countPassing_frame ts hcount⟩
  rw [countPassing_car_self]
  refine ⟨r.pass_lastTs ts, r.pass_prevTs ts, fun hfirst => pass_first ts hfirst, fun hlater => ?_,
    pass_hist_read_self ts, fun a ha => pass_hist_read_ne ts ha, r.pass_lapSum ts,
    CarRecord.pass_lapCount_toNat hcount, r.pass_position ts⟩
  obtain ⟨hlap, hprev, hkept, himproved⟩ := pass_later ts hlater
  refine ⟨?_, hprev, hkept, fun hne => ?_⟩
  · rw [hlap, wsub32_toNat]
  · rw [himproved hne, ssub64_toInt]

/-- Settles O33: a win adds its writes to what the notification has sent. -/
theorem passNotifiesAndWins : Obligations.PassNotifiesAndWins := by
  intro s c ts hrun hts hcount won
  refine ⟨_, exec_of_step (lePass_counted hrun hts hcount), ?_⟩
  by_cases hwon : Wins c s
  · have hdone : won = True := eq_true hwon
    simp [countPassing_of_wins ts hcount hwon, win_tn, win_out, win_count, passedLine_out, passedLine_count,
      passedLine_cfg, hdone]
  · have hlost : won = False := eq_false hwon
    simp [countPassing_of_not_wins ts hcount hwon, passedLine_tn, passedLine_out, passedLine_count, hlost]

end Sys2Proof.Machine
end

section
/-! The statistics of the winner, in exact reals and in a representation that rounds (R217 to R219; O34). -/

namespace Sys2Proof.Machine

/-! ## Exact reals (R217) -/

/-- A sum along a list of indices, as a sum over the laps `1..n`. -/
theorem sum_map_range_eq_sum_Icc (f : ℕ → ℚ) (n : ℕ) :
    ((List.range n).map fun i => f (i + 1)).sum = ∑ i ∈ Finset.Icc 1 n, f i := by
  induction n with
  | zero => rfl
  | succ n ih => rw [List.sum_range_succ, ih, Finset.sum_Icc_succ_top (by omega)]

section
variable (r : CarRecord) {target : Nat}

theorem cast_pred_target (ht : 2 ≤ target) : ((target - 1 : Nat) : ℝ) = (target : ℝ) - 1 := by
  rw [Nat.cast_sub (by omega), Nat.cast_one]

theorem mean_real (ht : 2 ≤ target) : ((r.mean target : ℚ) : ℝ) = (r.lapSum : ℝ) / ((target : ℝ) - 1) := by
  rw [CarRecord.mean, Rat.cast_div, Rat.cast_natCast, Rat.cast_natCast, cast_pred_target ht]

theorem variance_eq_sum_Icc : r.variance target =
    (∑ i ∈ Finset.Icc 1 (target - 1), (((r.hist.read i).toNat : ℚ) - r.mean target) ^ 2) /
      ((target - 1 : Nat) : ℚ) := by
  rw [← sum_map_range_eq_sum_Icc]
  simp only [CarRecord.variance, CarRecord.measuredLaps, List.map_map, pow_two]
  rfl

theorem variance_real (ht : 2 ≤ target) : ((r.variance target : ℚ) : ℝ) =
    (∑ i ∈ Finset.Icc 1 (target - 1), (((r.hist.read i).toNat : ℝ) - ((r.mean target : ℚ) : ℝ)) ^ 2) /
      ((target : ℝ) - 1) := by
  rw [variance_eq_sum_Icc, ← cast_pred_target ht]
  push_cast
  rfl

end

/-! ## A representation that rounds (R219) -/

/-- The bound of a representation (log 6) is large enough for the example of R219. -/
theorem two_pow_15_le_bound (num : NumRep) : 2 ^ 15 ≤ if num = .binary64 then 2 ^ 53 else 2 ^ 15 := by
  split <;> omega

/-- The bound of a representation is small enough for the integer root to be exact. -/
theorem bound_le_two_pow_53 (num : NumRep) : (if num = .binary64 then 2 ^ 53 else 2 ^ 15) ≤ 2 ^ 53 := by
  split <;> omega

section
variable (r : CarRecord) (num : NumRep) (bound target : Nat)

/-- The mean's division is exact on integers below the bound, with result `m`. -/
def MeanIs (m : Nat) : Prop := r.lapSum < bound ∧ r.lapSum = m * (target - 1)

/-- Every step of the standard deviation is exact on integers below the bound, with result `d`. -/
def SdIs (d : Nat) : Prop := ∃ m, MeanIs r bound target m ∧ (∀ h ∈ r.measuredLaps target, h.toNat < bound) ∧
  r.squares target m < bound ∧ r.squares target m = d ^ 2 * (target - 1)

variable {r num bound target}

theorem roundedStats_mean_of_exact {m : Nat} (ht : 2 ≤ target) (hm : MeanIs r bound target m) :
    (r.roundedStats num bound target).1 = m := by
  rw [CarRecord.roundedStats, (r.exactMean_eq_some ht).2 hm]
  rfl

theorem roundedStats_mean_of_free (ht : 2 ≤ target) (hno : ∀ m, ¬MeanIs r bound target m) :
    (r.roundedStats num bound target).1 = (Config.roundedStats num r.lapSum (r.measuredLaps target)).1 := by
  have hnone : r.exactMean bound target = none :=
    Option.eq_none_iff_forall_ne_some.2 fun m => mt (r.exactMean_eq_some ht).1 (hno m)
  rw [CarRecord.roundedStats, hnone]
  rfl

theorem exactSd_eq_some_iff {d : Nat} (ht : 2 ≤ target) (hb : bound ≤ 2 ^ 53) :
    r.exactSd bound target = some d ↔ SdIs r bound target d := by
  simp only [r.exactSd_eq_some ht hb, r.exactMean_eq_some ht, SdIs, MeanIs]

theorem roundedStats_sd_of_exact {d : Nat} (ht : 2 ≤ target) (hb : bound ≤ 2 ^ 53) (hd : SdIs r bound target d) :
    (r.roundedStats num bound target).2 = .rat d := by
  rw [CarRecord.roundedStats, (exactSd_eq_some_iff ht hb).2 hd]
  rfl

theorem roundedStats_sd_of_free (ht : 2 ≤ target) (hb : bound ≤ 2 ^ 53) (hno : ∀ d, ¬SdIs r bound target d) :
    (r.roundedStats num bound target).2 =
      .rat (Config.roundedStats num r.lapSum (r.measuredLaps target)).2 := by
  have hnone : r.exactSd bound target = none :=
    Option.eq_none_iff_forall_ne_some.2 fun d => mt (exactSd_eq_some_iff ht hb).1 (hno d)
  rw [CarRecord.roundedStats, hnone]
  rfl

end

/-! ## The worked example (R219) -/

section
variable {r : CarRecord}

theorem measuredLaps_example (hfirst : r.hist.read 1 = 4000) (hsecond : r.hist.read 2 = 4200) :
    r.measuredLaps 3 = [4000, 4200] := by
  rw [← hfirst, ← hsecond]
  rfl

theorem mean_example (hsum : r.lapSum = 8200) : r.mean 3 = 4100 := by
  rw [CarRecord.mean, hsum]
  norm_num

theorem variance_example (hsum : r.lapSum = 8200) (hlaps : r.measuredLaps 3 = [4000, 4200]) :
    r.variance 3 = 10000 := by
  have hfirst : (4000 : U32).toNat = 4000 := rfl
  have hsecond : (4200 : U32).toNat = 4200 := rfl
  rw [CarRecord.variance, hlaps, mean_example hsum]
  norm_num [hfirst, hsecond]

/-- Every step of the example is exact: the greatest number in it is the sum of squares, 20000. -/
theorem sdIs_example {bound : Nat} (hsum : r.lapSum = 8200) (hlaps : r.measuredLaps 3 = [4000, 4200])
    (hb : 2 ^ 15 ≤ bound) : SdIs r bound 3 100 := by
  have hsquares : r.squares 3 4100 = 20000 := by
    rw [CarRecord.squares, hlaps]
    rfl
  refine ⟨4100, ⟨by omega, by omega⟩, fun h hmem => lt_of_lt_of_le ?_ hb, by omega, by omega⟩
  rw [hlaps] at hmem
  obtain rfl | rfl : h = 4000 ∨ h = 4200 := by simpa using hmem
  · decide
  · decide

/-- 4100 and 100, the latter as the root of 10000 in exact reals. -/
theorem numStats_example (num : NumRep) (hsum : r.lapSum = 8200) (hlaps : r.measuredLaps 3 = [4000, 4200]) :
    r.numStats num 3 = (4100, if num = .exactReal then .root 10000 else .rat 100) := by
  by_cases hnum : num = .exactReal
  · rw [if_pos hnum, hnum, CarRecord.numStats_exactReal, mean_example hsum, variance_example hsum hlaps]
  · have hlow := two_pow_15_le_bound num
    rw [if_neg hnum, CarRecord.numStats_rounded r 3 hnum]
    exact Prod.ext (roundedStats_mean_of_exact (m := 4100) (by omega) ⟨by omega, by omega⟩)
      (roundedStats_sd_of_exact (by omega) (bound_le_two_pow_53 num) (sdIs_example hsum hlaps hlow))

end

/-! ## The winner's statistics after the passing that wins -/

/-- The winner's mean and deviation are those of its record after the passing. -/
theorem countPassing_stats {c : CarIdx} (ts : U32) {s : State} (hcount : s.tn.cars[c].lapCount ≠ 255)
    (hwon : Wins c s) : ((countPassing c ts s).tn.winMean, (countPassing c ts s).tn.winSd) =
      stats s.cfg.num (countPassing c ts s).tn.cars[c] s.tn.lapTarget := by
  simp only [countPassing_of_wins ts hcount hwon, win_tn, passedLine_tn, passedLine_cfg]

/-- Settles O34: with the statistics of the record after the passing, each clause is one of the cases of `stats`. -/
theorem winnerStatistics : Obligations.WinnerStatistics := by
  intro s c ts hrun hts hcount hrace hreached T
  refine ⟨_, exec_of_step (lePass_counted hrun hts hcount), ?_⟩
  have hstats := countPassing_stats ts hcount ⟨hrace, hreached⟩
  generalize countPassing c ts s = t at hstats ⊢
  have htwo (hT : 2 ≤ T) : (t.tn.winMean, t.tn.winSd) = t.tn.cars[c].numStats s.cfg.num T :=
    hstats.trans (stats_of_two_le _ _ hT)
  refine ⟨fun hT => ?_, fun hT hnum => ?_, fun hT hnum => ?_, fun hT hsum hfirst hsecond => ?_⟩
  · have hone : s.tn.lapTarget = 1 := BitVec.eq_of_toNat_eq hT
    rw [hone, stats_one] at hstats
    exact Prod.mk.inj hstats
  · have hexact := htwo hT
    rw [hnum, CarRecord.numStats_exactReal] at hexact
    obtain ⟨hmean, hsd⟩ := Prod.mk.inj hexact
    refine ⟨_, hsd, ?_, ?_⟩
    · rw [hmean, mean_real _ hT]
    · rw [hmean, variance_real _ hT]
  · have hrounded := htwo hT
    rw [CarRecord.numStats_rounded _ _ hnum] at hrounded
    obtain ⟨hmean, hsd⟩ := Prod.ext_iff.1 hrounded
    exact ⟨fun m hm => hmean.trans (roundedStats_mean_of_exact hT hm),
      fun hno => hmean.trans (roundedStats_mean_of_free hT hno),
      fun d hd => hsd.trans (roundedStats_sd_of_exact hT (bound_le_two_pow_53 _) hd),
      fun hno => hsd.trans (roundedStats_sd_of_free hT (bound_le_two_pow_53 _) hno)⟩
  · have hexample := htwo (by omega)
    rw [hT, numStats_example _ hsum (measuredLaps_example hfirst hsecond)] at hexample
    exact Prod.mk.inj hexample

end Sys2Proof.Machine
end

section
/-! What a light does to a running node: the transition when it changed, then the broadcast of the status (R221 to
R226; O36). -/

namespace Sys2Proof.Machine

/-! ## The transition (R222 to R225) -/

section
variable (k : LightClass) (s : State)

theorem lightTransition_actOut : (lightTransition k s).tn.actOut =
    if k = .ready ∨ k = .countdown ∨ k = .earlyStart then 0 else s.tn.actOut := by
  cases k <;> rfl

theorem lightTransition_status_ite : (lightTransition k s).tn.status =
    if k = .allClear then .raceGoing
    else if k = .ready ∨ k = .countdown ∨ k = .earlyStart then .noRaceGoing else s.tn.status := by
  cases k <;> rfl

theorem lightTransition_out : (lightTransition k s).out = s.out ++ if k = .ready then [.readyAnn] else [] := by
  cases k with
  | ready => rfl
  | allClear | countdown | earlyStart | idle => exact (List.append_nil _).symm

/-- Ready clears the records, the winner registers and `lap_ovf`, and stops the race. -/
theorem lightTransition_ready_tn : (lightTransition .ready s).tn = { s.tn with
    cars := Vector.replicate 4 CarRecord.reset, winnerValid := false, winnerCar := 0, winMean := 0
    winSd := .rat 0, lapOvf := false, actOut := 0, status := .noRaceGoing } := rfl

/-- Every other class writes the actuator and the status alone. -/
theorem lightTransition_tn_of_ne_ready {k : LightClass} (hk : k ≠ .ready) : (lightTransition k s).tn =
    { s.tn with actOut := (lightTransition k s).tn.actOut, status := (lightTransition k s).tn.status } := by
  cases k with
  | ready => exact absurd rfl hk
  | allClear | countdown | earlyStart | idle => rfl

end

/-! ## The transition on a change (R221) -/

/-- The state a light of class `k` leaves before the broadcast: the transition runs only on a change. -/
def afterLight (k : LightClass) (changed : Bool) (s : State) : State :=
  if changed then lightTransition k s else s

section
variable (k : LightClass) (changed : Bool) (s : State)

@[simp] theorem afterLight_false : afterLight k false s = s := rfl
@[simp] theorem afterLight_true : afterLight k true s = lightTransition k s := rfl

theorem afterLight_ch : (afterLight k changed s).ch = s.ch := by
  cases changed with
  | false => rfl
  | true => exact lightTransition_ch k s

theorem afterLight_cfg : (afterLight k changed s).cfg = s.cfg := by
  cases changed with
  | false => rfl
  | true => exact lightTransition_cfg k s

theorem afterLight_status : (afterLight k changed s).tn.status =
    if changed = true ∧ k = .allClear then .raceGoing
    else if changed = true ∧ (k = .ready ∨ k = .countdown ∨ k = .earlyStart) then .noRaceGoing
    else s.tn.status := by
  cases changed with
  | false => simp
  | true => simpa using lightTransition_status_ite k s

theorem afterLight_actOut : (afterLight k changed s).tn.actOut =
    if changed = true ∧ (k = .ready ∨ k = .countdown ∨ k = .earlyStart) then 0 else s.tn.actOut := by
  cases changed with
  | false => simp
  | true => simpa using lightTransition_actOut k s

theorem afterLight_out : (afterLight k changed s).out =
    s.out ++ if changed = true ∧ k = .ready then [.readyAnn] else [] := by
  cases changed with
  | false => simp
  | true => simpa using lightTransition_out k s

/-- A change to Ready clears the records, the winner registers and `lap_ovf`. -/
theorem afterLight_clears {k : LightClass} {changed : Bool} (h : changed = true ∧ k = .ready) :
    (afterLight k changed s).tn = { s.tn with
      cars := Vector.replicate 4 CarRecord.reset, winnerValid := false, winnerCar := 0, winMean := 0
      winSd := .rat 0, lapOvf := false, actOut := 0, status := .noRaceGoing } := by
  obtain ⟨rfl, rfl⟩ := h
  exact lightTransition_ready_tn s

/-- Without one only the actuator and the status are written. -/
theorem afterLight_keeps {k : LightClass} {changed : Bool} (h : ¬(changed = true ∧ k = .ready)) :
    (afterLight k changed s).tn = { s.tn with
      actOut := (afterLight k changed s).tn.actOut, status := (afterLight k changed s).tn.status } := by
  cases changed with
  | false => rfl
  | true => exact lightTransition_tn_of_ne_ready s fun hk => h ⟨rfl, hk⟩

end

/-! ## The broadcast (R226) -/

section
variable (ls : Byte) (changed : Bool) (s : State)

/-- A race status on the wire (R97). -/
theorem code_eq_ite (st : RaceStatus) : st.code = if st = .raceGoing then 1 else 0 := by cases st <;> rfl

/-- The transition on a change, then the broadcast of the status it leaves. -/
theorem onLight_eq : onLight ls changed s =
    let u := afterLight (s.cfg.lightClass ls) changed s
    if s.cfg.lightClass ls ≠ .idle then tx .t2c u.tn.status.code u else u := rfl

/-- The broadcast touches the channel and the log alone. -/
theorem onLight_tn : (onLight ls changed s).tn = (afterLight (s.cfg.lightClass ls) changed s).tn := by
  rw [onLight_eq]
  dsimp only
  split
  · exact tx_tn ..
  · rfl

theorem onLight_out : (onLight ls changed s).out = (afterLight (s.cfg.lightClass ls) changed s).out ++
    if s.cfg.lightClass ls = .idle then []
    else List.replicate s.cfg.resend (.tx .t2c (onLight ls changed s).tn.status.code) := by
  rw [onLight_tn, onLight_eq]
  by_cases hidle : s.cfg.lightClass ls = .idle
  · simp [hidle]
  · simp [hidle, afterLight_cfg]

theorem onLight_count (d : Dir) (x : Byte) : List.count x ((onLight ls changed s).ch.inFlight d) =
    List.count x (s.ch.inFlight d) +
      if d = .t2c ∧ s.cfg.lightClass ls ≠ .idle ∧ x = (onLight ls changed s).tn.status.code
      then s.cfg.resend else 0 := by
  rw [onLight_tn, onLight_eq]
  by_cases hidle : s.cfg.lightClass ls = .idle
  · simp [hidle, afterLight_ch]
  · simp [hidle, tx_count, afterLight_ch, afterLight_cfg]

/-- A light writes what Ready clears, the actuator, the status, the channel and the log alone. -/
theorem onLight_frame : let t := onLight ls changed s; t = { s with
    out := t.out, ch := t.ch
    tn := { s.tn with
      cars := t.tn.cars, winnerValid := t.tn.winnerValid, winnerCar := t.tn.winnerCar
      winMean := t.tn.winMean, winSd := t.tn.winSd, lapOvf := t.tn.lapOvf
      actOut := t.tn.actOut, status := t.tn.status } } := by
  refine State.ext_parts ?_ (onLight_cn ..) rfl rfl (onLight_cfg ..) (onLight_stimulus ..)
  by_cases hclear : changed = true ∧ s.cfg.lightClass ls = .ready
  · simp only [onLight_tn, afterLight_clears s hclear]
  · rw [onLight_tn, afterLight_keeps s hclear]

theorem leLight_halted {ls : Byte} {changed : Bool} {s : State} (hhalt : s.tn.td.fatal = true) :
    leLight ls changed s = .drop s := by
  simp [leLight, hhalt]

end

/-- Settles O36. -/
theorem lightDrivesRaceStatus : Obligations.LightDrivesRaceStatus := by
  refine fun s ls changed => ⟨fun hhalt => exec_of_drop (leLight_halted hhalt), fun hrun => ?_⟩
  intro k stops clears
  refine ⟨_, exec_of_step (leLight_of_running hrun), ?_, ?_, fun hclear => ?_, fun hkeep => ?_, ?_, fun d x => ?_,
    onLight_frame ls changed s⟩
  · rw [onLight_tn, afterLight_status]
  · rw [onLight_tn, afterLight_actOut]
  · rw [onLight_tn, afterLight_clears s hclear]
    exact ⟨fun c => by simp, rfl, rfl, rfl, rfl, rfl⟩
  · rw [onLight_tn, afterLight_keeps s hkeep]
    exact ⟨rfl, rfl, rfl, rfl, rfl, rfl⟩
  · rw [onLight_out, afterLight_out, code_eq_ite]
  · rw [onLight_count, code_eq_ite]

end Sys2Proof.Machine
end

section
/-! The ranking: one more than the number of cars ahead (R230; O37). -/

namespace Sys2Proof.Machine

/-! ## The order of two cars in numbers -/

section
variable (cars : Vector CarRecord 4) (c d : CarIdx)

theorem earlier_iff (r q : CarRecord) : r.earlier q = true ↔
    0 < r.lapCount.toNat ∧ 2 ^ 31 ≤ (r.lastTs.toNat + 2 ^ 32 - q.lastTs.toNat) % 2 ^ 32 ∧
      ¬2 ^ 31 ≤ (q.lastTs.toNat + 2 ^ 32 - r.lastTs.toNat) % 2 ^ 32 := by
  rw [CarRecord.earlier, Bool.and_eq_true, Bool.and_eq_true, Bool.not_eq_true', ← Bool.not_eq_true, tsBefore_iff,
    tsBefore_iff, decide_eq_true_eq, BitVec.lt_def, and_assoc]
  rfl

theorem ahead_iff : ahead cars d c = true ↔
    cars[c].lapCount.toNat < cars[d].lapCount.toNat ∨
    (cars[d].lapCount.toNat = cars[c].lapCount.toNat ∧ cars[d].earlier cars[c] = true) ∨
    (cars[d].lapCount.toNat = cars[c].lapCount.toNat ∧ ¬cars[d].earlier cars[c] = true ∧
      ¬cars[c].earlier cars[d] = true ∧ d < c) := by
  simp only [ahead, Bool.or_eq_true, Bool.and_eq_true, Bool.not_eq_true', ← Bool.not_eq_true, decide_eq_true_eq,
    beq_iff_eq, BitVec.lt_def, ← BitVec.toNat_inj, and_or_left, and_assoc]

/-! ## The rank -/

theorem mem_carIndices : ∀ d, d ∈ carIndices := by decide

theorem nodup_carIndices : carIndices.Nodup := by decide

/-- Counting along the four indices counts the set of cars. -/
theorem length_filter_carIndices (p : CarIdx → Bool) :
    (carIndices.filter p).length = Set.ncard { d : CarIdx | p d = true } := by
  rw [← List.toFinset_card_of_nodup (nodup_carIndices.filter p), ← Set.ncard_coe_finset]
  congr 1
  ext d
  simp [mem_carIndices]

/-- The rank is at most 4, so the byte holds it. -/
theorem rankOf_toNat : (rankOf cars c).toNat = 1 + Set.ncard { d : CarIdx | d ≠ c ∧ ahead cars d c = true } := by
  have hle : (carIndices.filter fun d => d != c && ahead cars d c).length ≤ 4 := List.length_filter_le ..
  rw [rankOf, BitVec.toNat_ofNat, Nat.mod_eq_of_lt (by omega), length_filter_carIndices]
  simp

/-! ## `LE.RANK` -/

/-- The four records, each with its rank. -/
theorem getElem_ranked :
    #v[ranked cars 0, ranked cars 1, ranked cars 2, ranked cars 3][c] = ranked cars c := by
  fin_cases c <;> rfl

end

section
variable {s : State}

theorem leRank_halted (hhalt : s.tn.td.fatal = true) : leRank s = .drop s := by
  simp [leRank, hhalt]

theorem leRank_running (hrun : s.tn.td.fatal = false) : leRank s = .step (s.withTn { s.tn with
    cars := #v[ranked s.tn.cars 0, ranked s.tn.cars 1, ranked s.tn.cars 2, ranked s.tn.cars 3] }) := by
  simp [leRank, hrun]

end

/-- Settles O37. -/
theorem rankCountsCarsAhead : Obligations.RankCountsCarsAhead := by
  refine fun s => ⟨fun hhalt => exec_of_drop (leRank_halted hhalt), fun hrun => ?_⟩
  intro lc before earlier ahead
  refine ⟨_, exec_of_step (leRank_running hrun), fun c => ?_, rfl⟩
  have hahead (d : CarIdx) : Machine.ahead s.tn.cars d c = true ↔ ahead d c := by
    rw [ahead_iff, earlier_iff, earlier_iff]
  simp only [State.withTn_tn, getElem_ranked]
  refine ⟨rfl, (rankOf_toNat s.tn.cars c).trans ?_⟩
  simp only [hahead]

end Sys2Proof.Machine
end

section
/-! The keepalive, by who holds the actuator token (R233; O39). -/

namespace Sys2Proof.Machine

section
variable {s : State}

theorem kaFire_halted (hhalt : s.tn.td.fatal = true) : kaFire s = .drop s := by
  simp [kaFire, hhalt]

theorem kaFire_running (hrun : s.tn.td.fatal = false) : kaFire s = .step (s.emit
    (if s.tn.status = .raceGoing then .kaPulse else .err (.contention .actuator))) := by
  cases hstatus : s.tn.status with
  | raceGoing => simp [kaFire, hrun, actuatorGranted, hstatus]
  | noRaceGoing => simp [kaFire, hrun, actuatorGranted, hstatus, raise]

end

/-- Settles O39. -/
theorem keepaliveNeedsToken : Obligations.KeepaliveNeedsToken := fun _ =>
  ⟨fun hhalt => exec_of_drop (kaFire_halted hhalt), fun hrun => exec_of_step (kaFire_running hrun)⟩

end Sys2Proof.Machine
end

section
/-! Transmission by the wireless handler: a LoopbackAck, a setpoint sent on change, and the operations that write the
Car Node's flags (R252, R258, R266 to R268; O40, O45, O46). -/

namespace Sys2Proof.Machine

/-- A transmission writes the channel and the log alone. -/
theorem tx_frame (dir : Dir) (v : Byte) (s : State) : tx dir v s = { s with
    ch := (tx dir v s).ch, out := s.out ++ List.replicate s.cfg.resend (.tx dir v) } :=
  State.ext_parts (tx_tn ..) (tx_cn ..) rfl (tx_out ..) (tx_cfg ..) (tx_stimulus ..)

/-! ## `TN.LOOP` (R258) -/

section
variable {s : State}

theorem tnLoop_halted (hhalt : s.tn.td.fatal = true) : tnLoop s = .drop s := by
  simp [tnLoop, hhalt]

theorem tnLoop_running (hrun : s.tn.td.fatal = false) : tnLoop s = .step (tx .t2c 3 s) := by
  simp [tnLoop, hrun]

end

/-- Settles O40. -/
theorem loopSendsAck : Obligations.LoopSendsAck := fun s =>
  ⟨fun hhalt => exec_of_drop (tnLoop_halted hhalt),
    fun hrun => ⟨_, exec_of_step (tnLoop_running hrun), tx_count .t2c 3 s, tx_frame .t2c 3 s⟩⟩

/-! ## Send-on-change (R266) -/

theorem setpointSends_iff (cn : CarNode) (v : Byte) :
    setpointSends cn v = true ↔ cn.lastValid = false ∨ cn.lastSent ≠ v := by
  simp [setpointSends]

theorem setpointSends_eq_false_iff (cn : CarNode) (v : Byte) :
    setpointSends cn v = false ↔ cn.lastValid = true ∧ cn.lastSent = v := by
  simp [setpointSends]

/-- The rule of R266, which `CN.SETSP` and `CN.MEASDONE` share. -/
def sendOnChange (v : Byte) (s : State) : State := if setpointSends s.cn v then sendSetpoint v s else s

section
variable {v : Byte} {s : State}

theorem sendOnChange_of_sends (hsends : setpointSends s.cn v = true) : sendOnChange v s = sendSetpoint v s :=
  if_pos hsends

theorem sendOnChange_of_kept (hkept : setpointSends s.cn v = false) : sendOnChange v s = s :=
  if_neg (Bool.eq_false_iff.1 hkept)

theorem sendSetpoint_count (v : Byte) (s : State) (d : Dir) (x : Byte) :
    List.count x ((sendSetpoint v s).ch.inFlight d) =
      List.count x (s.ch.inFlight d) + if d = .c2t ∧ x = v then s.cfg.resend else 0 :=
  tx_count ..

/-- A setpoint sent writes the channel, the log and what was last sent. -/
theorem sendSetpoint_frame (v : Byte) (s : State) : sendSetpoint v s = { s with
    ch := (sendSetpoint v s).ch, out := s.out ++ List.replicate s.cfg.resend (.tx .c2t v)
    cn := { s.cn with lastSent := v, lastValid := true } } := by
  obtain ⟨htn, hcn, -, hout, hcfg, hstimulus⟩ := sendSetpoint_parts v s
  exact State.ext_parts htn hcn rfl hout hcfg hstimulus

theorem sendOnChange_count (v : Byte) (s : State) (d : Dir) (x : Byte) :
    List.count x ((sendOnChange v s).ch.inFlight d) = List.count x (s.ch.inFlight d) +
      if d = .c2t ∧ x = v ∧ setpointSends s.cn v = true then s.cfg.resend else 0 := by
  cases hsends : setpointSends s.cn v with
  | true => simp only [sendOnChange_of_sends hsends, sendSetpoint_count, and_true]
  | false => simp [sendOnChange_of_kept hsends]

/-- Sent or not, the setpoint is afterwards the last one sent. -/
theorem sendOnChange_frame (v : Byte) (s : State) : sendOnChange v s = { s with
    ch := (sendOnChange v s).ch
    out := s.out ++ if setpointSends s.cn v then List.replicate s.cfg.resend (.tx .c2t v) else []
    cn := { s.cn with lastSent := v, lastValid := true } } := by
  cases hsends : setpointSends s.cn v with
  | true => rw [sendOnChange_of_sends hsends, if_pos rfl]; exact sendSetpoint_frame v s
  | false =>
    obtain ⟨hvalid, hlast⟩ := (setpointSends_eq_false_iff ..).1 hsends
    rw [sendOnChange_of_kept hsends, if_neg Bool.false_ne_true, List.append_nil, ← hvalid, ← hlast]

theorem exec_cnSetsp : exec (.cnSetsp v) s = .next (sendOnChange v s) := by
  rw [exec_eq_outcome, verdict, cnSetsp, sendOnChange]
  split <;> rfl

end

/-- Settles O45. -/
theorem setpointSentOnChange : Obligations.SetpointSentOnChange := by
  refine fun s v => ⟨fun hchange => ?_, fun hvalid hlast => ?_⟩
  · have hsends := (setpointSends_iff ..).2 hchange
    exact ⟨_, exec_cnSetsp.trans (congrArg _ (sendOnChange_of_sends hsends)), sendSetpoint_count v s,
      sendSetpoint_frame v s⟩
  · have hkept := (setpointSends_eq_false_iff ..).2 ⟨hvalid, hlast⟩
    exact exec_cnSetsp.trans (congrArg _ (sendOnChange_of_kept hkept))

/-! ## The flags (R267, R268) -/

theorem exec_cnFinack (s : State) : exec .cnFinack s = .next (s.withCn { s.cn with finish := false }) := rfl

theorem exec_cnMapset (b : Bool) (s : State) :
    exec (.cnMapset b) s = .next (s.withCn { s.cn with mapComplete := b }) := rfl

/-- Settles O46. -/
theorem carNodeFlagWrites : Obligations.CarNodeFlagWrites := fun s b => ⟨exec_cnFinack s, exec_cnMapset b s⟩

end Sys2Proof.Machine
end

section
/-! Delivery and loss of a byte in flight: what is consumed, and what each node makes of a byte it receives (R255,
R256, R260 to R265, R74; O41 to O44, O48). -/

namespace Sys2Proof.Machine

/-! ## What is in flight (R255, R256) -/

/-- Taking one byte leaves every other byte in flight. -/
theorem Channel.mem_take_of_ne {ch : Channel} {dir : Dir} {v x : Byte} (hx : x ∈ ch.inFlight dir) (hne : x ≠ v) :
    x ∈ (ch.take dir v).inFlight dir := by
  rw [← List.count_pos_iff, Channel.count_take, if_neg fun h => hne h.2, Nat.sub_zero]
  exact List.count_pos_iff.2 hx

section
variable {dir : Dir} {v : Byte} {s : State}

theorem chDlv_absent (habsent : v ∉ s.ch.inFlight dir) : chDlv dir v s = .refuse (.notInFlight dir v) :=
  if_pos habsent

theorem chDrop_absent (habsent : v ∉ s.ch.inFlight dir) : chDrop dir v s = .refuse (.notInFlight dir v) :=
  if_pos habsent

theorem chDrop_inFlight (hflight : v ∈ s.ch.inFlight dir) :
    chDrop dir v s = .step (s.withCh (s.ch.take dir v)) :=
  if_neg (not_not_intro hflight)

theorem exec_chDlv_t2c (hflight : v ∈ s.ch.inFlight .t2c) :
    exec (.chDlv .t2c v) s = .next (cnRx (decodeT2c v) (s.withCh (s.ch.take .t2c v))) := by
  have hstep : chDlv .t2c v s = .step (cnRx (decodeT2c v) (s.withCh (s.ch.take .t2c v))) :=
    if_neg (not_not_intro hflight)
  exact exec_of_step hstep

/-- Only what is in flight arrives. -/
theorem inFlight_of_exec_chDlv {t : State} (h : exec (.chDlv dir v) s = .next t) : v ∈ s.ch.inFlight dir := by
  by_contra habsent
  have hrefused : exec (.chDlv dir v) s = .refused _ := exec_of_refuse (chDlv_absent habsent)
  rw [hrefused] at h
  cases h

end

/-- Settles O43. -/
theorem dropLosesOneCopy : Obligations.DropLosesOneCopy := fun s dir v =>
  ⟨fun habsent => exec_of_refuse (chDrop_absent habsent), fun hflight =>
    ⟨_, exec_of_step (chDrop_inFlight hflight), fun d x => s.ch.count_take dir d v x, rfl⟩⟩

/-- Settles O44. -/
theorem onlyInFlightArrives : Obligations.OnlyInFlightArrives := fun _ _ _ habsent =>
  ⟨exec_of_refuse (chDlv_absent habsent), exec_of_refuse (chDrop_absent habsent)⟩

/-! ## The Car Node's byte by its value (R251, R97, R99) -/

section
variable {v : Byte}

theorem decodeT2c_of_zero (hv : v.toNat = 0) : decodeT2c v = .status .noRaceGoing := by simp [decodeT2c, hv]

theorem decodeT2c_of_one (hv : v.toNat = 1) : decodeT2c v = .status .raceGoing := by simp [decodeT2c, hv]

theorem decodeT2c_of_two (hv : v.toNat = 2) : decodeT2c v = .finishLine := by simp [decodeT2c, hv]

theorem decodeT2c_of_three (hv : v.toNat = 3) : decodeT2c v = .loopbackAck := by simp [decodeT2c, hv]

theorem decodeT2c_of_four_le (hv : 4 ≤ v.toNat) : decodeT2c v = .reserved v := by
  unfold decodeT2c
  split
  case h_5 => rfl
  all_goals omega

end

/-! ## The Car Node's state on a `RaceGoing` (R261, R269, R270) -/

theorem firstState_eq_ite (p : FirstState) :
    firstState p = if p = .trackMapping then .trackMapping else .measurement := by cases p <;> rfl

theorem CarNode.raceState_eq (cn : CarNode) (cfg : Config) : cn.raceState cfg =
    if cn.state = .idle ∧ (cfg.restart = .anyRaceGoing ∨ cn.status = .noRaceGoing) then
      (if cn.mapComplete then .racing else if cfg.policyFirst = .trackMapping then .trackMapping else .measurement)
    else cn.state := by
  simp only [raceState, starts_iff, firstState_eq_ite]

/-- Settles O41. -/
theorem deliveryDrivesCarNode : Obligations.DeliveryDrivesCarNode := by
  intro s v hflight
  refine ⟨_, exec_chDlv_t2c hflight, fun d x => ?_, fun hv => ?_, fun hv => ?_, fun hv => ?_, fun hv => ?_,
    fun hv => ?_⟩
  · rw [cnRx_ch]
    exact s.ch.count_take .t2c d v x
  · rw [decodeT2c_of_zero hv]; rfl
  · rw [decodeT2c_of_one hv, ← CarNode.raceState_eq]; rfl
  · rw [decodeT2c_of_two hv]; rfl
  · rw [decodeT2c_of_three hv]; rfl
  · rw [decodeT2c_of_four_le hv]; rfl

/-! ## A setpoint received (R264) -/

/-- The state after a setpoint is received: dropped in the halt, driven while a race is going, contention otherwise. -/
def State.receiveSetpoint (v : Byte) (s : State) : State :=
  if s.tn.td.fatal then s
  else if s.tn.status = .raceGoing then s.withTn { s.tn with rxSp := v, actOut := v }
  else (s.withTn { s.tn with rxSp := v }).emit (.err (.contention .actuator))

section
variable {v : Byte} {s : State}

theorem receiveSetpoint_halted (hhalt : s.tn.td.fatal = true) : s.receiveSetpoint v = s := if_pos hhalt

theorem receiveSetpoint_racing (hrun : s.tn.td.fatal = false) (hrace : s.tn.status = .raceGoing) :
    s.receiveSetpoint v = s.withTn { s.tn with rxSp := v, actOut := v } := by
  simp [State.receiveSetpoint, hrun, hrace]

theorem receiveSetpoint_stopped (hrun : s.tn.td.fatal = false) (hstop : s.tn.status = .noRaceGoing) :
    s.receiveSetpoint v = (s.withTn { s.tn with rxSp := v }).emit (.err (.contention .actuator)) := by
  simp [State.receiveSetpoint, hrun, hstop]

theorem exec_chDlv_c2t (hflight : v ∈ s.ch.inFlight .c2t) :
    exec (.chDlv .c2t v) s = .next ((s.withCh (s.ch.take .c2t v)).receiveSetpoint v) := by
  have hrule : chDlv .c2t v s = tnRx (.setpoint v) (s.withCh (s.ch.take .c2t v)) :=
    if_neg (not_not_intro hflight)
  obtain ⟨hhalt, hrx⟩ | ⟨hrun, hrace, hrx⟩ | ⟨hrun, hstop, hrx⟩ := tnRx_cases v (s.withCh (s.ch.take .c2t v))
  · rw [receiveSetpoint_halted hhalt]
    exact exec_of_drop (hrule.trans hrx)
  · rw [receiveSetpoint_racing hrun hrace]
    exact exec_of_step (hrule.trans hrx)
  · rw [receiveSetpoint_stopped hrun hstop]
    exact exec_of_step (hrule.trans hrx)

theorem receiveSetpoint_ch : (s.receiveSetpoint v).ch = s.ch := by
  unfold State.receiveSetpoint
  split
  · rfl
  · split <;> rfl

end

/-- Settles O42. -/
theorem deliveryDrivesActuator : Obligations.DeliveryDrivesActuator := by
  refine fun s v hflight => ⟨_, exec_chDlv_c2t hflight, fun d x => ?_, fun hhalt => ?_, fun hrun hrace => ?_,
    fun hrun hstop => ?_⟩
  · rw [receiveSetpoint_ch]
    exact s.ch.count_take .c2t d v x
  · rw [receiveSetpoint_halted (by exact hhalt)]; rfl
  · rw [receiveSetpoint_racing (by exact hrun) (by exact hrace)]; rfl
  · rw [receiveSetpoint_stopped (by exact hrun) (by exact hstop)]; rfl

/-! ## A second copy (R74) -/

/-- A node that a `RaceGoing` started has left Idle, and one it did not start keeps its state and has noted the status:
in neither reading of R269 and R261 does a second copy start it. -/
theorem CarNode.raceState_raceState (cn : CarNode) (cfg : Config) :
    { cn with status := .raceGoing, state := cn.raceState cfg }.raceState cfg = cn.raceState cfg := by
  obtain ⟨-, hidle⟩ | ⟨hkept, hstate⟩ := cn.raceState_cases cfg
  · rw [raceState_eq, if_neg fun hstarts => hidle hstarts.1]
  · rw [hstate, raceState_eq, if_neg]
    rintro ⟨hidle, hany | hstop⟩
    · exact Bool.eq_false_iff.1 hkept ((cn.starts_iff _).2 ⟨hidle, .inl hany⟩)
    · cases hstop

/-- The message that left the Car Node as it is, received once more, changes nothing there. -/
theorem cnRx_cn_of_received {m : CarMessage} {s t : State} (hcn : t.cn = (cnRx m s).cn) (hcfg : t.cfg = s.cfg) :
    (cnRx m t).cn = t.cn := by
  cases m with
  | status st =>
    cases st with
    | noRaceGoing => simp [cnRx, hcn]
    | raceGoing => simp [cnRx, hcn, hcfg, CarNode.raceState_raceState]
  | finishLine => simp [cnRx, hcn]
  | loopbackAck => simp [cnRx, hcn]
  | reserved v => exact raise_cn ..

/-- The setpoint that left the Timing Node as it is, received once more, changes nothing there. -/
theorem receiveSetpoint_tn_of_received {v : Byte} {s t : State} (htn : t.tn = (s.receiveSetpoint v).tn) :
    (t.receiveSetpoint v).tn = t.tn := by
  cases hfatal : s.tn.td.fatal with
  | true =>
    rw [receiveSetpoint_halted hfatal] at htn
    rw [receiveSetpoint_halted (htn ▸ hfatal)]
  | false =>
    cases hstatus : s.tn.status with
    | raceGoing =>
      rw [receiveSetpoint_racing hfatal hstatus, State.withTn_tn] at htn
      rw [receiveSetpoint_racing (by rw [htn]; exact hfatal) (by rw [htn]; exact hstatus), State.withTn_tn, htn]
    | noRaceGoing =>
      rw [receiveSetpoint_stopped hfatal hstatus, State.emit_tn, State.withTn_tn] at htn
      rw [receiveSetpoint_stopped (by rw [htn]; exact hfatal) (by rw [htn]; exact hstatus), State.emit_tn,
        State.withTn_tn, htn]

/-- Settles O48: a delivery touches one node, and there the second copy writes what the first one wrote. -/
theorem secondDeliveryChangesNothing : Obligations.SecondDeliveryChangesNothing := by
  intro s t u dir v ht hu
  have hfirst := inFlight_of_exec_chDlv ht
  have hsecond := inFlight_of_exec_chDlv hu
  cases dir with
  | t2c =>
    refine ⟨exec_car_tn rfl hu, ?_⟩
    rw [exec_chDlv_t2c hfirst] at ht
    rw [exec_chDlv_t2c hsecond] at hu
    cases ht
    cases hu
    exact cnRx_cn_of_received rfl (cnRx_cfg ..)
  | c2t =>
    refine ⟨?_, exec_timing_cn rfl hu⟩
    rw [exec_chDlv_c2t hfirst] at ht
    rw [exec_chDlv_c2t hsecond] at hu
    cases ht
    cases hu
    exact receiveSetpoint_tn_of_received rfl

end Sys2Proof.Machine
end

section
/-! The end of a measurement, and what starts the Car Node after it (R269, R270, log 30; O47). -/

namespace Sys2Proof.Machine

/-! ## `CN.MEASDONE` -/

/-- The state after a finished measurement: the zero has gone through send-on-change, and the node is in Idle. -/
def State.measured (s : State) : State :=
  (sendOnChange 0 s).withCn { (sendOnChange 0 s).cn with state := .idle }

section
variable {s : State}

theorem cnMeasdone_refused (hstate : s.cn.state ≠ .measurement) : cnMeasdone s = .refuse .notMeasuring :=
  if_pos hstate

theorem cnMeasdone_measuring (hstate : s.cn.state = .measurement) : cnMeasdone s = .step s.measured :=
  if_neg (not_not_intro hstate)

/-- The end of a measurement writes the channel, the log, what was last sent and the state. -/
theorem State.measured_frame (s : State) : s.measured = { s with
    ch := s.measured.ch
    out := s.out ++ if setpointSends s.cn 0 then List.replicate s.cfg.resend (.tx .c2t 0) else []
    cn := { s.cn with lastSent := 0, lastValid := true, state := .idle } } :=
  congrArg (fun t : State => t.withCn { t.cn with state := .idle }) (sendOnChange_frame 0 s)

theorem State.measured_status (s : State) : s.measured.cn.status = s.cn.status := by rw [measured_frame]

theorem State.measured_cfg (s : State) : s.measured.cfg = s.cfg := by rw [measured_frame]

/-! ## A start from Idle (R261, R269) -/

/-- A node in Idle stays there on a `RaceGoing` exactly when nothing starts it. -/
theorem CarNode.raceState_eq_idle_iff {cn : CarNode} (cfg : Config) (hidle : cn.state = .idle) :
    cn.raceState cfg = .idle ↔ ¬(cfg.restart = .anyRaceGoing ∨ cn.status = .noRaceGoing) := by
  obtain ⟨hstarts, hleft⟩ | ⟨hkept, hstate⟩ := cn.raceState_cases cfg
  · exact iff_of_false hleft (not_not_intro ((cn.starts_iff _).1 hstarts).2)
  · refine iff_of_true (hstate.trans hidle) fun hstart => ?_
    exact Bool.eq_false_iff.1 hkept ((cn.starts_iff _).2 ⟨hidle, hstart⟩)

theorem exec_chDlv_raceGoing (hone : 1 ∈ s.ch.t2c) :
    ∃ t, exec (.chDlv .t2c 1) s = .next t ∧ t.cn.state = s.cn.raceState s.cfg :=
  ⟨_, exec_chDlv_t2c hone, rfl⟩

/-- Left in Idle during a race, a node stays there on a `RaceGoing` where a stop must come first. -/
theorem restart_of_idle_racing (hidle : s.cn.state = .idle) (hrace : s.cn.status = .raceGoing)
    (hone : 1 ∈ s.ch.t2c) :
    ∃ t, exec (.chDlv .t2c 1) s = .next t ∧ (t.cn.state = .idle ↔ s.cfg.restart = .stopFirst) := by
  obtain ⟨t, ht, hstate⟩ := exec_chDlv_raceGoing hone
  refine ⟨t, ht, ?_⟩
  rw [hstate, CarNode.raceState_eq_idle_iff s.cfg hidle, hrace]
  cases s.cfg.restart <;> simp

/-- A stop puts a node in Idle with the status `NoRaceGoing`, and from there a `RaceGoing` starts it. -/
theorem restart_of_stopped (hzero : 0 ∈ s.ch.t2c) (hone : 1 ∈ s.ch.t2c) :
    ∃ t u, exec (.chDlv .t2c 0) s = .next t ∧ exec (.chDlv .t2c 1) t = .next u ∧ u.cn.state ≠ .idle := by
  have hleft : 1 ∈ (s.ch.take .t2c 0).inFlight .t2c := Channel.mem_take_of_ne hone (by decide)
  refine ⟨_, _, exec_chDlv_t2c hzero, exec_chDlv_t2c hleft, ?_⟩
  exact fun hidle => (CarNode.raceState_eq_idle_iff s.cfg rfl).1 hidle (.inr rfl)

end

/-- Settles O47. -/
theorem measurementEndsInIdle : Obligations.MeasurementEndsInIdle := by
  refine fun s => ⟨fun hstate => ?_, fun hstate => exec_of_refuse (cnMeasdone_refused hstate)⟩
  intro sends
  have hsends : setpointSends s.cn 0 = true ↔ sends := setpointSends_iff s.cn 0
  refine ⟨_, exec_of_step (cnMeasdone_measuring hstate), fun d x => ?_, ?_, fun hrace hone => ?_, restart_of_stopped⟩
  · exact (sendOnChange_count 0 s d x).trans (by simp only [hsends])
  · exact s.measured_frame.trans (by simp only [hsends])
  · rw [← s.measured_cfg]
    exact restart_of_idle_racing rfl (s.measured_status.trans hrace) hone

end Sys2Proof.Machine
end

section
/-! What a halted Timing Node drops, what halts it, and what ends the halt (R300, R301; O49 to O51). -/

namespace Sys2Proof.Machine

/-! ## The operations on a halted node (R300) -/

section
variable {s : State}

theorem etEdge_unit0_halted {i : Nat} {dir : Bool} {ts : U32} (hi : i < nIn .unit0) (hhalt : s.tn.td.fatal = true) :
    etEdge .unit0 i dir ts s = .drop s := by
  simp [etEdge, hi, hhalt]

theorem etFire_unit0_halted {ts : U32} (hhalt : s.tn.td.fatal = true) : etFire .unit0 ts s = .drop s := by
  simp [etFire, hhalt]

theorem tdDec_halted (hhalt : s.tn.td.fatal = true) : tdDec s = .drop s := by
  simp [tdDec, hhalt]

/-- The list of R300, operation by operation. -/
theorem verdict_halted {i : Instr} (hhalt : s.tn.td.fatal = true) (hwf : i.wellFormed = true)
    (hdrops : haltDrops i = true) : verdict i s = .drop s := by
  cases i with
  | etEdge u i dir ts =>
    cases u with
    | unit0 => exact etEdge_unit0_halted (of_decide_eq_true hwf) hhalt
    | unit1 => cases hdrops
  | etFire u ts =>
    cases u with
    | unit0 => exact etFire_unit0_halted hhalt
    | unit1 => cases hdrops
  | etTake u =>
    cases u with
    | unit0 => exact etTake_unit0_halted hhalt
    | unit1 => cases hdrops
  | ocServe => exact ocServe_halted hhalt
  | tdPoll => exact tdPoll_halted hhalt
  | tdRxb b => exact tdRxb_halted hhalt
  | tdDec => exact tdDec_halted hhalt
  | lePass c ts => exact lePass_halted hhalt
  | leLight ls changed => exact leLight_halted hhalt
  | leRank => exact leRank_halted hhalt
  | kaFire => exact kaFire_halted hhalt
  | tcSub a b => exact tcSub_halted hhalt
  | tcCmp a b => exact tcCmp_halted hhalt
  | tnLoop => exact tnLoop_halted hhalt
  | _ => cases hdrops

end

/-- Settles O49. -/
theorem haltedNodeDropsOperations : Obligations.HaltedNodeDropsOperations :=
  fun _ _ hhalt hwf hdrops => exec_of_drop (verdict_halted hhalt hwf hdrops)

/-! ## The restart (R301) -/

section
variable {s : State}

theorem tnRestart_halted (hhalt : s.tn.td.fatal = true) : tnRestart s = .step (restartTimingNode s) := by
  simp [tnRestart, hhalt]

theorem tnRestart_running (hrun : s.tn.td.fatal = false) : tnRestart s = .refuse .notHalted := by
  simp [tnRestart, hrun]

end

/-- Settles O51. -/
theorem restartResetsHaltedNode : Obligations.RestartResetsHaltedNode := fun s =>
  ⟨fun hhalt => restartTimingNode_eq s ▸ exec_of_step (tnRestart_halted hhalt),
    fun hrun => exec_of_refuse (tnRestart_running hrun)⟩

/-! ## What keeps the halt flag -/

/-- `t` is halted exactly when `s` is. -/
def KeepsHalt (s t : State) : Prop := t.tn.td.fatal = s.tn.td.fatal

/-- The operations that can start or end a halt. -/
def writesHalt : Instr → Bool
  | .rst .tn | .rst .all | .tnRestart | .tdDec => true
  | _ => false

section
variable {s t : State}

theorem KeepsHalt.refl (s : State) : KeepsHalt s s := rfl

theorem KeepsHalt.trans {u : State} (hst : KeepsHalt s t) (htu : KeepsHalt t u) : KeepsHalt s u :=
  Eq.trans htu hst

/-- The flag is a register of the Timing Node. -/
theorem KeepsHalt.of_tn (h : t.tn = s.tn) : KeepsHalt s t := by rw [KeepsHalt, h]

theorem keepsHalt_takeSample0 (s : State) : KeepsHalt s (takeSample0 s) := rfl

theorem keepsHalt_serveControls (levels : BitVec 3) (s : State) : KeepsHalt s (serveControls levels s) := by
  obtain ⟨es, target, h⟩ := serveControls_eq levels s
  rw [h]
  rfl

theorem keepsHalt_basicFire (s : State) : (basicFire s).All (KeepsHalt s) := by
  obtain ⟨-, h⟩ | ⟨-, h⟩ := basicFire_cases s <;> rw [h] <;> rfl

theorem keepsHalt_tnRx (v : Byte) (s : State) : (tnRx (.setpoint v) s).All (KeepsHalt s) := by
  obtain ⟨-, h⟩ | ⟨-, -, h⟩ | ⟨-, -, h⟩ := tnRx_cases v s <;> rw [h] <;> rfl

theorem keepsHalt_countPassing (c : CarIdx) (ts : U32) (s : State) : KeepsHalt s (countPassing c ts s) := by
  rw [countPassing_eq]
  simp only
  split <;> simp [KeepsHalt, win_tn, notifyFinishLine_tn]

theorem keepsHalt_onCarPassing (c : CarIdx) (ts : U32) (s : State) : (onCarPassing c ts s).All (KeepsHalt s) := by
  obtain ⟨-, h⟩ | ⟨-, -, h⟩ | ⟨-, -, h⟩ := onCarPassing_cases c ts s <;> rw [h]
  · rfl
  · rfl
  · exact keepsHalt_countPassing c ts s

theorem keepsHalt_onLight (ls : Byte) (changed : Bool) (s : State) : KeepsHalt s (onLight ls changed s) := by
  obtain ⟨-, htd, -⟩ := onLight_kept ls changed s
  rw [KeepsHalt, htd]

/-- No other operation writes the flag. -/
theorem exec_keepsHalt {i : Instr} (hw : writesHalt i = false) (h : exec i s = .next t) : KeepsHalt s t := by
  have hcar : i.node = .car → KeepsHalt s t := fun hi => .of_tn (exec_car_tn hi h)
  have hverdict : (verdict i s).All (KeepsHalt s) → KeepsHalt s t := fun hv => of_exec_eq_next (.refl s) hv h
  cases i with
  | rst dom =>
    cases dom with
    | cn => exact hcar rfl
    | tn | all => cases hw
  | etEdge u i dir ts =>
    cases u with
    | unit0 => exact hverdict (by simp [verdict, etEdge, KeepsHalt])
    | unit1 => exact hcar rfl
  | etFire u ts =>
    cases u with
    | unit0 =>
      have hfire : ∀ et, (basicFire (s.withTn { s.tn with et := et })).All (KeepsHalt s) := fun _ =>
        keepsHalt_basicFire _
      exact hverdict (by simp [verdict, etFire, KeepsHalt.refl, hfire])
    | unit1 => exact hcar rfl
  | etTake u =>
    cases u with
    | unit0 => exact hverdict (by simp [verdict, etTake, KeepsHalt.refl, keepsHalt_takeSample0])
    | unit1 => exact hcar rfl
  | ocServe =>
    have hserved := (keepsHalt_takeSample0 s).trans (keepsHalt_serveControls s.tn.et.smpLevels _)
    exact hverdict (by simp [verdict, ocServe, KeepsHalt.refl, hserved])
  | tdPoll => exact hverdict (by simp [verdict, tdPoll, KeepsHalt])
  | tdRxb b => exact hverdict (by simp [verdict, tdRxb, KeepsHalt, Decoder.receive])
  | lePass c ts => exact hverdict (by simp [verdict, lePass, KeepsHalt.refl, keepsHalt_onCarPassing])
  | leLight ls changed => exact hverdict (by simp [verdict, leLight, KeepsHalt.refl, keepsHalt_onLight])
  | leRank => exact hverdict (by simp [verdict, leRank, KeepsHalt])
  | kaFire => exact hverdict (by simp [verdict, kaFire, KeepsHalt])
  | tcSub a b => exact hverdict (by simp [verdict, tcSub, KeepsHalt])
  | tcCmp a b => exact hverdict (by simp [verdict, tcCmp, KeepsHalt])
  | chDlv dir v =>
    cases dir with
    | t2c => exact hcar rfl
    | c2t =>
      have hrx : ∀ ch, (tnRx (.setpoint v) (s.withCh ch)).All (KeepsHalt s) := fun ch =>
        keepsHalt_tnRx v (s.withCh ch)
      exact hverdict (by simp [verdict, chDlv, decodeC2t, hrx])
  | chDrop dir v => exact hverdict (by simp [verdict, chDrop, KeepsHalt])
  | cnSetsp v => exact hcar rfl
  | cnFinack => exact hcar rfl
  | cnMeasdone => exact hcar rfl
  | cnMapset b => exact hcar rfl
  | tnLoop => exact hverdict (by simp [verdict, tnLoop, KeepsHalt])
  | _ => cases hw

end

/-! ## The decode (R178) -/

section
variable {s t : State}

theorem keepsHalt_onHeartbeat (s : State) : KeepsHalt s (onHeartbeat s) := by
  have hnoted : ∀ ls changed, KeepsHalt s (noteLight ls changed (clearEmpty s)) := fun ls changed => by
    rw [noteLight_eq]
    rfl
  exact (hnoted _ _).trans (keepsHalt_onLight _ _ _)

theorem keepsHalt_onCarPassingTelegram (s : State) : (onCarPassingTelegram s).All (KeepsHalt s) := by
  have hcleared : KeepsHalt s (clearEmpty s) := rfl
  unfold onCarPassingTelegram
  simp only
  split
  · exact hcleared
  · rename_i c _
    obtain ⟨k, -, h⟩ | ⟨-, -, h⟩ | ⟨-, -, h⟩ := onCarTelegram_cases c (clearEmpty s) <;> rw [h]
    · exact hcleared
    · exact hcleared
    · exact (keepsHalt_onCarPassing c _ _).imp fun _ => hcleared.trans

/-- The count after an Empty telegram exceeds ten only if the count before reached ten, also where it wraps. -/
theorem ten_le_of_emptyFatal {cnt : Byte} (h : emptyFatal (cnt + 1) = true) : 10 ≤ cnt.toNat := by
  have hcount : (10 : Byte) < cnt + 1 := of_decide_eq_true h
  bv_omega

/-- A decode halts a running node exactly on an Empty telegram past the bound. -/
theorem decodeTelegram_halts_iff (hrun : s.tn.td.fatal = false) : (decodeTelegram s).All fun t =>
    t.tn.td.fatal = true ↔ s.tn.td.buf.read 1 = 0 ∧ emptyFatal (s.tn.td.emptyCnt + 1) = true := by
  have hkept : ∀ t, s.tn.td.buf.read 1 ≠ 0 → KeepsHalt s t → (t.tn.td.fatal = true ↔
      s.tn.td.buf.read 1 = 0 ∧ emptyFatal (s.tn.td.emptyCnt + 1) = true) := fun t hclass ht =>
    iff_of_false (Bool.eq_false_iff.1 (Eq.trans ht hrun)) fun hsilent => hclass hsilent.1
  obtain ⟨hclass, h⟩ | ⟨hclass, h⟩ | ⟨-, hclass, h⟩ := decodeTelegram_cases s <;> rw [h]
  · exact hkept _ (by rw [hclass]; decide) (keepsHalt_onHeartbeat s)
  · rw [onEmpty_eq hrun]
    simp [hclass]
  · exact (keepsHalt_onCarPassingTelegram s).imp fun t => hkept t hclass

theorem exec_tdDec_halts (hrun : s.tn.td.fatal = false) (h : exec .tdDec s = .next t)
    (hhalt : t.tn.td.fatal = true) : s.tn.td.buf.read 1 = 0 ∧ 10 ≤ s.tn.td.emptyCnt.toNat := by
  cases hopen : s.tn.td.isOpen with
  | false =>
    rw [exec_of_refuse (i := .tdDec) (tdDec_closed hrun hopen)] at h
    cases h
  | true =>
    have hdec := decodeTelegram_halts_iff (s := s.withTd { s.tn.td with isOpen := false }) hrun
    rw [← tdDec_of_open hrun hopen] at hdec
    have hsilent := of_exec_eq_next (i := .tdDec)
      (P := fun t => t.tn.td.fatal = true → s.tn.td.buf.read 1 = 0 ∧ emptyFatal (s.tn.td.emptyCnt + 1) = true)
      (fun hs => by simp [hrun] at hs) (hdec.imp fun _ ht => ht.1) h
    exact (hsilent hhalt).imp_right ten_le_of_emptyFatal

end

/-! ## Reset -/

section
variable {s t : State}

/-- A reset never starts a halt. -/
theorem exec_rst_running {dom : Domain} (hrun : s.tn.td.fatal = false) (h : exec (.rst dom) s = .next t) :
    t.tn.td.fatal = false := by
  have hreset : (verdict (.rst dom) s).All fun t => t.tn.td.fatal = false := by
    cases dom with
    | tn => rfl
    | cn => exact hrun
    | all => rfl
  exact of_exec_eq_next (P := fun t => t.tn.td.fatal = false) hrun hreset h

end

/-- Settles O50: of the operations of `writesHalt` the decode alone starts a halt, and the others alone end one. -/
theorem onlyLinkSilenceHalts : Obligations.OnlyLinkSilenceHalts := by
  intro s t i h
  cases hw : writesHalt i with
  | false =>
    have hsame : t.tn.td.fatal = s.tn.td.fatal := exec_keepsHalt hw h
    refine ⟨fun hrun hhalt => ?_, fun hhalt hrun => ?_⟩
    · simp [hsame, hrun] at hhalt
    · simp [hsame, hhalt] at hrun
  | true =>
    cases i with
    | tnRestart =>
      refine ⟨fun hrun _ => ?_, fun _ _ => .inl rfl⟩
      rw [exec_of_refuse (i := .tnRestart) (tnRestart_running hrun)] at h
      cases h
    | rst dom =>
      refine ⟨fun hrun hhalt => ?_, fun _ _ => ?_⟩
      · simp [exec_rst_running hrun h] at hhalt
      · cases dom with
        | tn => exact .inr (.inl rfl)
        | all => exact .inr (.inr rfl)
        | cn => cases hw
    | tdDec =>
      refine ⟨fun hrun hhalt => ⟨rfl, exec_tdDec_halts hrun h hhalt⟩, fun hhalt hrun => ?_⟩
      rw [haltedNodeDropsOperations s .tdDec hhalt rfl rfl] at h
      cases h
      simp [hhalt] at hrun
    | _ => cases hw

end Sys2Proof.Machine
end

section
/-! Which operations hold (R294; O58). -/

namespace Sys2Proof.Machine

section
variable (s : State)

theorem opticalEdge_ne_hold (sd : Side) (dir : Bool) (ts : U32) : opticalEdge sd dir ts s ≠ .hold := by
  obtain ⟨-, h⟩ | ⟨-, -, h⟩ | ⟨-, -, -, h⟩ | ⟨-, -, -, h⟩ := opticalEdge_cases sd dir ts s <;> simp [h]

theorem basicFire_ne_hold : basicFire s ≠ .hold := by
  obtain ⟨-, h⟩ | ⟨-, h⟩ := basicFire_cases s <;> simp [h]

theorem opticalFire_ne_hold : opticalFire s ≠ .hold := by
  obtain ⟨-, -, -, h⟩ | ⟨-, h⟩ := opticalFire_cases s <;> simp [h]

theorem onCarPassing_ne_hold (c : CarIdx) (ts : U32) : onCarPassing c ts s ≠ .hold := by
  obtain ⟨-, h⟩ | ⟨-, -, h⟩ | ⟨-, -, h⟩ := onCarPassing_cases c ts s <;> simp [h]

theorem tnRx_ne_hold (v : Byte) : tnRx (.setpoint v) s ≠ .hold := by
  obtain ⟨-, h⟩ | ⟨-, -, h⟩ | ⟨-, -, h⟩ := tnRx_cases v s <;> simp [h]

/-- The last column of R294: an operation that may not hold never does. -/
theorem verdict_ne_hold {i : Instr} (hi : i.mayHold = false) : verdict i s ≠ .hold := by
  cases i with
  | rst dom => simp [verdict, rst]
  | tnRestart => simp [verdict, tnRestart, ite_eq_iff]
  | etEdge u n dir ts => cases u <;> simp [verdict, etEdge, ite_eq_iff, opticalEdge_ne_hold]
  | etFire u ts => cases u <;> simp [verdict, etFire, ite_eq_iff, basicFire_ne_hold, opticalFire_ne_hold]
  | etTake u => cases hi
  | ocServe => cases hi
  | tdPoll => simp [verdict, tdPoll, ite_eq_iff]
  | tdRxb b => simp [verdict, tdRxb, ite_eq_iff]
  | tdDec => simp [verdict, tdDec, ite_eq_iff, decodeTelegram_ne_hold]
  | lePass c ts => simp [verdict, lePass, ite_eq_iff, onCarPassing_ne_hold]
  | leLight ls changed => simp [verdict, leLight, ite_eq_iff]
  | leRank => simp [verdict, leRank, ite_eq_iff]
  | kaFire => simp [verdict, kaFire, ite_eq_iff]
  | tcSub a b => simp [verdict, tcSub, ite_eq_iff]
  | tcCmp a b => simp [verdict, tcCmp, ite_eq_iff]
  | chDlv dir v => cases dir <;> simp [verdict, chDlv, decodeC2t, ite_eq_iff, tnRx_ne_hold]
  | chDrop dir v => simp [verdict, chDrop, ite_eq_iff]
  | cnSetsp v => simp [verdict, cnSetsp, ite_eq_iff]
  | cnFinack => simp [verdict, cnFinack]
  | cnMeasdone => simp [verdict, cnMeasdone, ite_eq_iff]
  | cnMapset b => simp [verdict, cnMapset]
  | tnLoop => simp [verdict, tnLoop, ite_eq_iff]

end

/-- What may hold runs in task context, and is a take or the service of the controls. -/
theorem task_of_mayHold {i : Instr} (h : i.mayHold = true) :
    i.context = .task ∧ ((∃ u, i = .etTake u) ∨ i = .ocServe) := by
  cases i with
  | etTake u => exact ⟨rfl, .inl ⟨u, rfl⟩⟩
  | ocServe => exact ⟨rfl, .inr rfl⟩
  | _ => cases h

/-- Settles O58. -/
theorem onlyTakesHold : Obligations.OnlyTakesHold := by
  refine fun s i => ⟨exec_eq_outcome i s, fun hhold => task_of_mayHold ?_⟩
  by_contra hi
  exact verdict_ne_hold s (Bool.eq_false_iff.2 hi) hhold

end Sys2Proof.Machine
end

section
/-! `RST` and the pieces of state of its domain (R320 to R322; O52). -/

namespace Sys2Proof.Machine

section
variable (s : State)

/-- `RST` runs in every state, that of a halted node included: it resets the domain and logs it. -/
theorem exec_rst (dom : Domain) : exec (.rst dom) s = .next ((resetDomain dom s).emit (.reset dom)) :=
  exec_of_step rfl

theorem resetDomain_tn_eq : resetDomain .tn s = { s with tn := (State.resetWith s.cfg).tn } := rfl

theorem resetDomain_cn_eq : resetDomain .cn s = { s with cn := (State.resetWith s.cfg).cn } := rfl

/-- The reset of the whole block leaves the log, the parameters and the waiting event words (R321, R324). -/
theorem resetDomain_all_eq : resetDomain .all s =
    { State.resetWith s.cfg with out := s.out, stimulus := s.stimulus } := rfl

end

/-- Settles O52: in each domain, what `RST` leaves is that domain's reset with one log entry. -/
theorem resetCoversItsDomain : Obligations.ResetCoversItsDomain := by
  refine fun s => ⟨?tn, ?cn, ?all⟩
  case tn => rw [exec_rst, resetDomain_tn_eq, State.emit]
  case cn => rw [exec_rst, resetDomain_cn_eq, State.emit]
  case all => rw [exec_rst, resetDomain_all_eq, State.emit]; rfl

end Sys2Proof.Machine
end

section
/-! The laws of the wrapping subtraction and of `ts_before` (spec/42_timestamp_comparator.md R201, R203; O28, O29). -/

namespace Sys2Proof.Machine

section
variable (a b d : U32)

/-! ## The wrapping subtraction (R201) -/

theorem wsub32_self : wsub32 a a = 0 := BitVec.sub_self a

theorem wsub32_zero : wsub32 a 0 = a := BitVec.sub_zero a

theorem wsub32_wadd32_cancel : wsub32 (wadd32 b d) b = d := add_sub_cancel_left b d

theorem wsub32_eq_zero_iff : wsub32 a b = 0 ↔ a = b := sub_eq_zero

theorem wsub32_swap : wsub32 b a = wsub32 0 (wsub32 a b) := ((zero_sub (a - b)).trans (neg_sub a b)).symm

/-! ## The sign of the difference (R203) -/

theorem tsBefore_self : tsBefore a a = false := by rw [tsBefore, wsub32_self]; rfl

/-- A timestamp is after the one it is counted from while the ticks between are fewer than `2^31`. -/
theorem tsBefore_wadd32_left : tsBefore (wadd32 a d) a = true ↔ 2 ^ 31 ≤ d.toNat := by
  rw [tsBefore, wsub32_wadd32_cancel, BitVec.msb_eq_decide, decide_eq_true_eq]

/-- The other way round the wrapped difference is `2^32` less the ticks between, so `2^31` is before both ways. -/
theorem tsBefore_wadd32_right : tsBefore a (wadd32 a d) = true ↔ 0 < d.toNat ∧ d.toNat ≤ 2 ^ 31 := by
  rw [tsBefore_iff, wadd32_toNat]
  have := a.isLt
  have := d.isLt
  omega

end

/-- Settles O28. -/
theorem wrappingSubtractionLaws : Obligations.WrappingSubtractionLaws := fun a b d =>
  ⟨wsub32_toNat a b, wsub32_self a, wsub32_zero a, wsub32_wadd32_cancel b d, wsub32_eq_zero_iff a b, wsub32_swap a b⟩

/-- Settles O29. -/
theorem tsBeforeHalfRange : Obligations.TsBeforeHalfRange := by
  refine fun a d => ⟨tsBefore_iff a, tsBefore_self a, fun hpos hlt => ⟨?_, ?_⟩, fun hhalf => ⟨?_, ?_⟩⟩
  · exact (tsBefore_wadd32_right a d).2 ⟨hpos, hlt.le⟩
  · exact Bool.eq_false_iff.2 fun h => hlt.not_ge ((tsBefore_wadd32_left a d).1 h)
  · exact (tsBefore_wadd32_right a d).2 ⟨by omega, hhalf.le⟩
  · exact (tsBefore_wadd32_left a d).2 hhalf.ge

end Sys2Proof.Machine
end

section
/-! Within half the range the order of two cars is a linear order, so the ranks differ (R230; O38). -/

namespace Sys2Proof.Machine

/-! ## The order of the cars within half the range -/

/-- The ticks from `base` to the last counted passing; 0 for a car without one. -/
def CarRecord.ticksFrom (base : U32) (r : CarRecord) : Nat :=
  if r.lapCount = 0 then 0 else (wsub32 r.lastTs base).toNat

/-- The last timestamp lies in the half range that begins at `base`, if a passing is counted. -/
def CarRecord.InHalfRange (base : U32) (r : CarRecord) : Prop :=
  r.lapCount ≠ 0 → (r.lastTs.toNat + 2 ^ 32 - base.toNat) % 2 ^ 32 < 2 ^ 31

/-- What R230 compares, in its order: more laps, then the earlier last passing, then the lower index. -/
def standing (base : U32) (cars : Vector CarRecord 4) (c : CarIdx) : ℕᵒᵈ ×ₗ ℕ ×ₗ CarIdx :=
  toLex (OrderDual.toDual cars[c].lapCount.toNat, toLex (cars[c].ticksFrom base, c))

section
variable {base : U32} {cars : Vector CarRecord 4} {c d : CarIdx}

theorem ticksFrom_of_uncounted {r : CarRecord} (h : r.lapCount = 0) : r.ticksFrom base = 0 := if_pos h

theorem ticksFrom_of_counted {r : CarRecord} (h : r.lapCount ≠ 0) :
    r.ticksFrom base = (r.lastTs.toNat + 2 ^ 32 - base.toNat) % 2 ^ 32 :=
  (if_neg h).trans (wsub32_toNat ..)

/-- Between cars of equal laps, the earlier last passing is the one fewer ticks from the common base: the wrapped
differences of R203 do not leave the half range. -/
theorem earlier_iff_ticksFrom_lt {r q : CarRecord} (hlaps : r.lapCount = q.lapCount) (hr : r.InHalfRange base)
    (hq : q.InHalfRange base) : r.earlier q = true ↔ r.ticksFrom base < q.ticksFrom base := by
  rw [earlier_iff]
  by_cases hzero : r.lapCount = 0
  · simp [ticksFrom_of_uncounted hzero, ticksFrom_of_uncounted (hlaps ▸ hzero), hzero]
  · have hzero' : q.lapCount ≠ 0 := hlaps ▸ hzero
    have hpos : 0 < r.lapCount.toNat := Nat.pos_of_ne_zero fun h => hzero (BitVec.eq_of_toNat_eq h)
    rw [ticksFrom_of_counted hzero, ticksFrom_of_counted hzero']
    have := hr hzero
    have := hq hzero'
    have := r.lastTs.isLt
    have := q.lastTs.isLt
    have := base.isLt
    omega

theorem standing_injective : Function.Injective (standing base cars) := fun c d h => by
  simp only [standing, EmbeddingLike.apply_eq_iff_eq, Prod.mk.injEq] at h
  exact h.2.2

theorem standing_lt_iff : standing base cars d < standing base cars c ↔
    cars[c].lapCount.toNat < cars[d].lapCount.toNat ∨
    (cars[d].lapCount.toNat = cars[c].lapCount.toNat ∧
      (cars[d].ticksFrom base < cars[c].ticksFrom base ∨
        (cars[d].ticksFrom base = cars[c].ticksFrom base ∧ d < c))) := by
  rw [standing, standing, Prod.Lex.toLex_lt_toLex, Prod.Lex.toLex_lt_toLex, OrderDual.toDual_lt_toDual,
    OrderDual.toDual_inj]

theorem ahead_iff_standing_lt (hrange : ∀ x : CarIdx, cars[x].InHalfRange base) :
    ahead cars d c = true ↔ standing base cars d < standing base cars c := by
  rw [ahead_iff, standing_lt_iff, ← and_or_left]
  refine or_congr_right (and_congr_right fun heq => ?_)
  have hlaps := BitVec.eq_of_toNat_eq heq
  rw [earlier_iff_ticksFrom_lt hlaps (hrange d) (hrange c), earlier_iff_ticksFrom_lt hlaps.symm (hrange c) (hrange d),
    Fin.lt_def]
  omega

/-! ## The ranks -/

/-- Whoever is ahead of a car is ahead of those behind it, and so is the car itself. -/
theorem rankOf_lt_of_standing_lt (hrange : ∀ x : CarIdx, cars[x].InHalfRange base)
    (hlt : standing base cars d < standing base cars c) : (rankOf cars d).toNat < (rankOf cars c).toNat := by
  rw [rankOf_toNat, rankOf_toNat]
  simp only [ahead_iff_standing_lt hrange]
  refine Nat.add_lt_add_left (Set.ncard_lt_ncard ((Set.ssubset_iff_of_subset ?_).2 ⟨d, ?_, ?_⟩)) 1
  · exact fun x hx => have hxc := hx.2.trans hlt; ⟨ne_of_apply_ne _ hxc.ne, hxc⟩
  · exact ⟨ne_of_apply_ne _ hlt.ne, hlt⟩
  · exact fun hd => hd.1 rfl

theorem rankOf_ne (hrange : ∀ x : CarIdx, cars[x].InHalfRange base) (hne : c ≠ d) : rankOf cars c ≠ rankOf cars d := by
  intro heq
  obtain hlt | hlt := lt_or_gt_of_ne ((standing_injective (base := base) (cars := cars)).ne hne)
  · exact (rankOf_lt_of_standing_lt hrange hlt).ne (congrArg BitVec.toNat heq)
  · exact (rankOf_lt_of_standing_lt hrange hlt).ne' (congrArg BitVec.toNat heq)

end

/-- Settles O38. -/
theorem rankPositionsDistinct : Obligations.RankPositionsDistinct := by
  intro s t base hrun hrange hexec c d hne
  have hnext := exec_of_step (i := .leRank) (leRank_running hrun)
  obtain rfl := Host.Outcome.next.inj (hnext.symm.trans hexec)
  simp only [State.withTn_tn, getElem_ranked]
  exact rankOf_ne hrange hne

end Sys2Proof.Machine
end
